-- ==== Sys2Proof/Word.lean ====
section
/-! DEFINITION. The word types of the block (00_scope.md R7: registers hold unsigned integers, bit 0 least significant). -/

namespace Sys2Proof

/-- A byte: payloads, statuses, identifier bytes, bytes of a caller's buffer. -/
abbrev Byte := BitVec 8

/-- A 32-bit register: tick values, the word container, the host port's scalars. -/
abbrev Word := BitVec 32

/-- A companion register address (20_memory.md R61). -/
abbrev Addr := BitVec 16

/-- A wire word, BCF in bit 16 to INV in bit 0 (30_encoding.md R94). -/
abbrev WireWord := BitVec 17

/-- A 4-bit command code {BCF, nBCF, D9, D8}. -/
abbrev Code := BitVec 4

/-- A level of the line: true is high (1), false is low (0). -/
abbrev Level := Bool

end Sys2Proof
end

