-- ==== Sys2Proof/Config.lean ====
section
/-! DEFINITION. What an implementation fixes (00_scope.md R6) and the free values of the model: the constants
the spec gives or decides, the shapes of the open parameters, and opaque values of which nothing can be proved. -/

namespace Sys2Proof

/-! ### Constants of R6 -/

/-- TAU_MIN (R6, R11). -/
def Config.tauMin : Nat := 2
/-- TAU_MAX (R6, R11). -/
def Config.tauMax : Nat := 153
/-- TAU_SPAN (R6). -/
def Config.tauSpan : Nat := 152
/-- IDLE_LEVEL: the line rests high (R6, decision D3, log 22). -/
def Config.idleLevel : Level := true
/-- BC_CODE, the code of the bus-command group (R6, R99, decision D8). -/
def Config.bcCode : Code := 0x8#4
/-- EOT_MASK, the end-of-transmission flag of a status (R6, R101, decision D21). -/
def Config.eotMask : Byte := 0x01#8
/-- STATUS_TIMEOUT (R6, R195). -/
def Config.statusTimeout : Byte := 0xFF#8
/-- STATUS_DECODE_FAIL (R6, R195, decision D20). -/
def Config.statusDecodeFail : Byte := 0xFE#8
/-- READ_RETRIES (R6, R201). -/
def Config.readRetries : Nat := 1
/-- UID_ATTEMPTS (R6, R232). -/
def Config.uidAttempts : Nat := 3
/-- UID_BITS (R6). -/
def Config.uidBits : Nat := 80
/-- CAP_INT, entries of a single-edge poll (R6, R19). -/
def Config.capInt : BitVec 5 := 2#5
/-- CAP_PKT, entries of a full-packet poll (R6, R19, conflict C2). -/
def Config.capPkt : BitVec 5 := 19#5
/-- CHECK_FRAMING: whether a received word with BCF = nBCF is rejected (R6, R103, decision D17). -/
def Config.checkFraming : Bool := false

/-! ### The command codes of R99 and R100 -/

/-- WriteData, WD (R100). -/
def Config.codeWD : Code := 0x4#4
/-- ExtendedRegAddr, ERA (R100). -/
def Config.codeERA : Code := 0x5#4
/-- WriteRegAddr, WRA (R100). -/
def Config.codeWRA : Code := 0x6#4
/-- ReadRegAddr, RRA (R100). -/
def Config.codeRRA : Code := 0x7#4
/-- BusReset's payload (R99). -/
def Config.busReset : Byte := 0x00#8
/-- DiscoverStart's payload (R99). -/
def Config.discoverStart : Byte := 0x80#8
/-- EnterBranch0's payload (R99). -/
def Config.enterBranch0 : Byte := 0x84#8
/-- EnterBranch1's payload (R99). -/
def Config.enterBranch1 : Byte := 0x85#8
/-- ProbeBranch0's payload (R99). -/
def Config.probeBranch0 : Byte := 0x86#8
/-- ProbeBranch1's payload (R99). -/
def Config.probeBranch1 : Byte := 0x87#8

/-! ### The register map (10_state.md R26) -/

/-- One row of REGMAP: a companion address and a byte length. -/
structure RegEntry where
  addr : Addr
  len  : Nat
deriving DecidableEq, Repr, Inhabited

/-- ErrorCode@0x0a02x1 (R26). -/
def Config.errorCode : RegEntry := ⟨0x0a02#16, 1⟩
/-- AuthChallenge@0x1304x22 (R26). -/
def Config.authChallenge : RegEntry := ⟨0x1304#16, 22⟩
/-- MacData@0x1602x10 (R26). -/
def Config.macData : RegEntry := ⟨0x1602#16, 10⟩
/-- NvmLockOffset@0x0f00x2 (R26). -/
def Config.nvmLockOffset : RegEntry := ⟨0x0f00#16, 2⟩
/-- REGMAP has 20 entries (R26). -/
def Config.regMapSize : Nat := 20

/-- The sixteen rows the source has lost (R26, R210, decision D39, log 10): open. -/
opaque Config.lostRow : Nat → RegEntry
/-- Where the named rows stand among the others (R210: no numeric id is in the source, log 10): open. -/
opaque Config.rowPlace : Nat → Nat

/-- REGMAP's content: the sixteen lost rows with the four given rows put in at open places, so that every table of
twenty rows that holds the four is one of its values (R26, R210). -/
def Config.regMap : List RegEntry :=
  let rows := (List.range 16).map Config.lostRow
  let rows := rows.insertIdx (Config.rowPlace 0 % 17) Config.errorCode
  let rows := rows.insertIdx (Config.rowPlace 1 % 18) Config.authChallenge
  let rows := rows.insertIdx (Config.rowPlace 2 % 19) Config.macData
  rows.insertIdx (Config.rowPlace 3 % 20) Config.nvmLockOffset

/-! ### The open parameters of R6, as plain data -/

/-- The parameters of R6 that the spec leaves OPEN, as plain data (10_state.md R10: inputs of the step relations).
State holds one such record that no step writes, so a statement about every state is one about every admissible
parameter. -/
structure Params where
  /-- TO_INT, one raw value per TAU (R130, decision D11); read through `Machine.pollBudget`. -/
  toInt : List Word
  /-- TO_PKT, one raw value per TAU (R130, decision D11); read through `Machine.pollBudget`. -/
  toPkt : List Word
  /-- raw value behind tau_small(0) (R120, decision D29). -/
  tauSmall0 : Byte
  /-- raw value behind tau_small(1) (R120, decision D29). -/
  tauSmall1 : Byte
deriving DecidableEq, Repr, Inhabited

/-- The parameters the machine has at reset: open (log 8, log 9). -/
opaque Config.params : Params

/-! ### Free values: nothing constrains them -/

/-- The level of the line at a sample beyond the scripted ones (R31, U8, log 5). -/
opaque Config.freeLevel : Nat → Level
/-- The value of TAU that get_tau finds before the first set_tau (R121, R321, U1, log 1). -/
opaque Config.freeTau : Nat → Byte
/-- A timeline entry that no poll has written since the last one began (R24, U11, log 2). -/
opaque Config.freeStamp : Nat → Word
/-- A result word for which the spec defines no value (R206, D26, log 13; R165, log 18). -/
opaque Config.freeWord : Nat → Word

end Sys2Proof
end

