-- ==== Sys2Proof/Syntax.lean ====
section
/-! DEFINITION. The instructions: one constructor per row of spec/opcode_table.json (21 HOST rows, 30_encoding.md R92;
10 W17 rows, R99 and R100), and the request a host puts on the port (R91). -/

namespace Sys2Proof

/-- BUF, a reference to a caller-owned byte buffer (R91, R60): where it lies in the caller's memory and how many bytes
the caller gave it (log 14). -/
structure BufRef where
  base : Word
  size : Word
deriving DecidableEq, Repr

/-- What a caller puts on the request port: a host operation with its scalars and buffer (R91), or a wire word of the
format W17 in its logical form (R94, R95, R106). -/
inductive Request where
  | host (op : Byte) (arg0 arg1 arg2 : Word) (buf : BufRef)
  | wire (word : WireWord)
deriving DecidableEq, Repr

inductive Instr where
  /-- OP 0x01, R120. -/
  | setTau (v : Word)
  /-- OP 0x02, R121. -/
  | getTau
  /-- OP 0x03, R122, R123; `mode` is ARG1 whole, 0 SendOnly, 1 PollInterrupt, 2 PollPacket. -/
  | beginTransfer (word mode : Word)
  /-- OP 0x04, R124. -/
  | currentState
  /-- OP 0x05, R133. -/
  | delayUs (n : Word)
  /-- OP 0x06, R134. -/
  | guardDelay
  /-- OP 0x07, R135. -/
  | busLineIdle
  /-- OP 0x10, R160. -/
  | encode (code : Code) (payload : Byte)
  /-- OP 0x11, R165; `n` is the number of intervals. -/
  | decode (n : Word) (buf : BufRef)
  /-- OP 0x12, R167. -/
  | checkParity (word : WireWord)
  /-- OP 0x13, R169. -/
  | checkInversionMajority (word : WireWord)
  /-- OP 0x20, R191. -/
  | sendOnly (code : Code) (payload : Byte)
  /-- OP 0x21, R193. -/
  | sendPollInterrupt (code : Code) (payload : Byte)
  /-- OP 0x22, R194. -/
  | sendPollPacket (code : Code) (payload : Byte)
  /-- OP 0x23, R198. -/
  | writeAddrSpace (addr : Addr) (length : Word) (buf : BufRef)
  /-- OP 0x24, R200. -/
  | readAddrSpace (addr : Addr) (length : Word) (buf : BufRef)
  /-- OP 0x25, R204. -/
  | readAddrReverse (addr : Addr) (size : Word) (buf : BufRef)
  /-- OP 0x26, R206. -/
  | readRegisters (id : Word) (buf : BufRef)
  /-- OP 0x27, R208. -/
  | writeRegisters (id : Word) (buf : BufRef)
  /-- OP 0x28, R205. -/
  | reverseByteOrder (n : Word) (buf : BufRef)
  /-- OP 0x30, R231. -/
  | searchId
  /-- WD(payload), code 0x4, R100. -/
  | writeData (payload : Byte)
  /-- ERA(payload), code 0x5, R100. -/
  | extendedRegAddr (payload : Byte)
  /-- WRA(payload), code 0x6, R100. -/
  | writeRegAddr (payload : Byte)
  /-- RRA(payload), code 0x7, R100. -/
  | readRegAddr (payload : Byte)
  /-- code 0x8, payload 0x00, R99. -/
  | busReset
  /-- code 0x8, payload 0x80, R99. -/
  | discoverStart
  /-- code 0x8, payload 0x84, R99. -/
  | enterBranch0
  /-- code 0x8, payload 0x85, R99. -/
  | enterBranch1
  /-- code 0x8, payload 0x86, R99. -/
  | probeBranch0
  /-- code 0x8, payload 0x87, R99. -/
  | probeBranch1
deriving DecidableEq, Repr

end Sys2Proof
end

