-- ==== Sys2Proof/WellFormed.lean ====
section
/-! DEFINITION. Which instructions are well formed: the requests 30_encoding.md R93 and 60_exceptions.md R287 give a
meaning to as far as the request itself shows it (a mode in 0..2, a register id in the table, a buffer that holds what
the operation reads or fills). An ill-formed one is still executed, with the reaction the spec gives it (logs 11, 13). -/

namespace Sys2Proof

/-- The buffer holds at least `n` bytes (R206, R287). -/
def BufRef.holds (b : BufRef) (n : Nat) : Bool := decide (n ≤ b.size.toNat)

/-- R93, R287. The length of a named register depends on REGMAP and is judged when the operation runs. -/
def Instr.wellFormed : Instr → Bool
  | .setTau _ => true
  | .getTau => true
  | .beginTransfer _ mode => decide (mode.toNat < 3)
  | .currentState => true
  | .delayUs _ => true
  | .guardDelay => true
  | .busLineIdle => true
  | .encode _ _ => true
  | .decode n buf => decide (n.toNat < 18) || buf.holds 72
  | .checkParity _ => true
  | .checkInversionMajority _ => true
  | .sendOnly _ _ => true
  | .sendPollInterrupt _ _ => true
  | .sendPollPacket _ _ => true
  | .writeAddrSpace _ length buf => buf.holds length.toNat
  | .readAddrSpace _ length buf => buf.holds length.toNat
  | .readAddrReverse _ size buf => buf.holds size.toNat
  | .readRegisters id _ => decide (id.toNat < Config.regMapSize)
  | .writeRegisters id _ => decide (id.toNat < Config.regMapSize)
  | .reverseByteOrder n buf => buf.holds n.toNat
  | .searchId => true
  | .writeData _ => true
  | .extendedRegAddr _ => true
  | .writeRegAddr _ => true
  | .readRegAddr _ => true
  | .busReset => true
  | .discoverStart => true
  | .enterBranch0 => true
  | .enterBranch1 => true
  | .probeBranch0 => true
  | .probeBranch1 => true

end Sys2Proof
end

