-- ==== Sys2Proof/Decode.lean ====
section
/-! DEFINITION. Decoding a request into an instruction, total, rejecting by name (30_encoding.md R91 to R100, R106), and the
encoder written from the same tables; the field layout of a wire word (R94) and its parity groups (R97, R161). -/

namespace Sys2Proof

/-- Why a request is no instruction: no operation has this OP (R92: the request is refused), or the wire word is none
of the ten of R99 and R100. -/
inductive Reject where
  | unknownOp (op : Byte)
  | unnamedWireWord (word : WireWord)
deriving DecidableEq, Repr

/-! ### Fields of a wire word (R94) -/

/-- code = W[16:13] (R94). -/
def wordCode (w : WireWord) : Code := w.extractLsb' 13 4

/-- payload = W[12:5] (R94). -/
def wordPayload (w : WireWord) : Byte := w.extractLsb' 5 8

/-- {code, payload} = W[16:5]: bit 11 BCF, bit 10 nBCF, bits 9..0 D9..D0 (R94, R97). -/
def codePayload (code : Code) (payload : Byte) : BitVec 12 := code ++ payload

/-! ### Parity (R97, R161) -/

/-- GROUP[g]: the D indices of parity group g (R161). -/
def parityGroup : Nat → List Nat
  | 0 => [8, 6, 4, 3, 1, 0]
  | 1 => [9, 6, 5, 3, 2, 0]
  | 2 => [9, 8, 7, 3, 2, 1]
  | _ => [9, 8, 7, 6, 5, 4]

/-- P[g] = F ^ xor of the group's D bits, F = nBCF (R97, R161), over {code, payload}. -/
def parityOf (cp : BitVec 12) (g : Nat) : Bool :=
  (parityGroup g).foldl (fun acc b => acc ^^ cp.getLsbD b) (cp.getLsbD 10)

/-- The parity field {P3, P2, P1, P0} (R94, R97). -/
def parityField (cp : BitVec 12) : BitVec 4 :=
  BitVec.ofBool (parityOf cp 3) ++ BitVec.ofBool (parityOf cp 2) ++ BitVec.ofBool (parityOf cp 1) ++
    BitVec.ofBool (parityOf cp 0)

/-- The logical word {code, payload, parity, 0} (R94, R95, R160). -/
def logicalWord (code : Code) (payload : Byte) : WireWord :=
  codePayload code payload ++ parityField (codePayload code payload) ++ 0#1

/-! ### Decoding -/

/-- The low four bits of a scalar, the width of a code (R93, D45). -/
def cutCode (a : Word) : Code := a.setWidth 4
/-- The low eight bits of a scalar, the width of a payload (R93, D45). -/
def cutPayload (a : Word) : Byte := a.setWidth 8
/-- The low sixteen bits of a scalar, the width of an address (R61, R93, log 16). -/
def cutAddr (a : Word) : Addr := a.setWidth 16
/-- The low seventeen bits of a scalar, the width of a wire word (R94, R167, log 16). -/
def cutWire (a : Word) : WireWord := a.setWidth 17

/-- The OP table of R92. -/
def decodeHost (op : Byte) (a0 a1 : Word) (buf : BufRef) : Except Reject Instr :=
  match op.toNat with
  | 0x01 => .ok (.setTau a0)
  | 0x02 => .ok .getTau
  | 0x03 => .ok (.beginTransfer a0 a1)
  | 0x04 => .ok .currentState
  | 0x05 => .ok (.delayUs a0)
  | 0x06 => .ok .guardDelay
  | 0x07 => .ok .busLineIdle
  | 0x10 => .ok (.encode (cutCode a0) (cutPayload a1))
  | 0x11 => .ok (.decode a0 buf)
  | 0x12 => .ok (.checkParity (cutWire a0))
  | 0x13 => .ok (.checkInversionMajority (cutWire a0))
  | 0x20 => .ok (.sendOnly (cutCode a0) (cutPayload a1))
  | 0x21 => .ok (.sendPollInterrupt (cutCode a0) (cutPayload a1))
  | 0x22 => .ok (.sendPollPacket (cutCode a0) (cutPayload a1))
  | 0x23 => .ok (.writeAddrSpace (cutAddr a0) a1 buf)
  | 0x24 => .ok (.readAddrSpace (cutAddr a0) a1 buf)
  | 0x25 => .ok (.readAddrReverse (cutAddr a0) a1 buf)
  | 0x26 => .ok (.readRegisters a0 buf)
  | 0x27 => .ok (.writeRegisters a0 buf)
  | 0x28 => .ok (.reverseByteOrder a0 buf)
  | 0x30 => .ok .searchId
  | _ => .error (.unknownOp op)

/-- The bus-command payloads of R99. -/
def decodeBusCommand (w : WireWord) : Except Reject Instr :=
  match (wordPayload w).toNat with
  | 0x00 => .ok .busReset
  | 0x80 => .ok .discoverStart
  | 0x84 => .ok .enterBranch0
  | 0x85 => .ok .enterBranch1
  | 0x86 => .ok .probeBranch0
  | 0x87 => .ok .probeBranch1
  | _ => .error (.unnamedWireWord w)

/-- The ten wire words of R99 and R100, by code and payload of the logical word; the parity and inversion bits are no
part of a row's mask (R106) and are computed by R97 and R98 when the word is sent (log 17). -/
def decodeWire (w : WireWord) : Except Reject Instr :=
  match (wordCode w).toNat with
  | 0x4 => .ok (.writeData (wordPayload w))
  | 0x5 => .ok (.extendedRegAddr (wordPayload w))
  | 0x6 => .ok (.writeRegAddr (wordPayload w))
  | 0x7 => .ok (.readRegAddr (wordPayload w))
  | 0x8 => decodeBusCommand w
  | _ => .error (.unnamedWireWord w)

/-- The instruction a request stands for, or the name of its rejection. -/
def decode : Request → Except Reject Instr
  | .host op a0 a1 _ buf => decodeHost op a0 a1 buf
  | .wire w => decodeWire w

/-! ### Encoding -/

/-- A buffer reference for operations that have none. -/
def noBuf : BufRef := ⟨0, 0⟩

/-- A HOST request with two scalars (R91). -/
def hostRequest (op : Byte) (a0 a1 : Word) (buf : BufRef) : Request := .host op a0 a1 0 buf

/-- The request of an instruction (R92, R99, R100). -/
def encode : Instr → Request
  | .setTau v => hostRequest 0x01 v 0 noBuf
  | .getTau => hostRequest 0x02 0 0 noBuf
  | .beginTransfer word mode => hostRequest 0x03 word mode noBuf
  | .currentState => hostRequest 0x04 0 0 noBuf
  | .delayUs n => hostRequest 0x05 n 0 noBuf
  | .guardDelay => hostRequest 0x06 0 0 noBuf
  | .busLineIdle => hostRequest 0x07 0 0 noBuf
  | .encode code payload => hostRequest 0x10 (code.setWidth 32) (payload.setWidth 32) noBuf
  | .decode n buf => hostRequest 0x11 n 0 buf
  | .checkParity word => hostRequest 0x12 (word.setWidth 32) 0 noBuf
  | .checkInversionMajority word => hostRequest 0x13 (word.setWidth 32) 0 noBuf
  | .sendOnly code payload => hostRequest 0x20 (code.setWidth 32) (payload.setWidth 32) noBuf
  | .sendPollInterrupt code payload => hostRequest 0x21 (code.setWidth 32) (payload.setWidth 32) noBuf
  | .sendPollPacket code payload => hostRequest 0x22 (code.setWidth 32) (payload.setWidth 32) noBuf
  | .writeAddrSpace addr length buf => hostRequest 0x23 (addr.setWidth 32) length buf
  | .readAddrSpace addr length buf => hostRequest 0x24 (addr.setWidth 32) length buf
  | .readAddrReverse addr size buf => hostRequest 0x25 (addr.setWidth 32) size buf
  | .readRegisters id buf => hostRequest 0x26 id 0 buf
  | .writeRegisters id buf => hostRequest 0x27 id 0 buf
  | .reverseByteOrder n buf => hostRequest 0x28 n 0 buf
  | .searchId => hostRequest 0x30 0 0 noBuf
  | .writeData payload => .wire (logicalWord Config.codeWD payload)
  | .extendedRegAddr payload => .wire (logicalWord Config.codeERA payload)
  | .writeRegAddr payload => .wire (logicalWord Config.codeWRA payload)
  | .readRegAddr payload => .wire (logicalWord Config.codeRRA payload)
  | .busReset => .wire (logicalWord Config.bcCode Config.busReset)
  | .discoverStart => .wire (logicalWord Config.bcCode Config.discoverStart)
  | .enterBranch0 => .wire (logicalWord Config.bcCode Config.enterBranch0)
  | .enterBranch1 => .wire (logicalWord Config.bcCode Config.enterBranch1)
  | .probeBranch0 => .wire (logicalWord Config.bcCode Config.probeBranch0)
  | .probeBranch1 => .wire (logicalWord Config.bcCode Config.probeBranch1)

/-! ### The opcode table's numbering -/

/-- The request whose bits the opcode table numbers as `w` (R106): a HOST row gives the 8 bits of OP, every scalar and
the buffer reference then 0; a W17 row gives the 17 bits of the logical word, in three bytes (log 17). -/
def requestOfWord (nbits w : Nat) : Request :=
  if nbits ≤ 16 then .host (BitVec.ofNat 8 w) 0 0 0 noBuf else .wire (BitVec.ofNat 17 w)

/-- The instruction the decoder reads from an instruction of the opcode table whose bits are `w`. -/
def decodeTableWord (nbits w : Nat) : Option Instr :=
  match decode (requestOfWord nbits w) with
  | .ok i => some i
  | .error _ => none

end Sys2Proof
end

