-- ==== Sys2Proof/Machine/State.lean ====
section
/-! DEFINITION. The state of the block and of what it reads (10_state.md R10 to R32, 30_encoding.md R91, 70_reset_and_hazards.md
R320, R326), as plain data, and the state after reset. INVENTORY.md lists every field with its rule and reset value. -/

namespace Sys2Proof.Machine

/-- BusState (R12). -/
inductive BusState where
  | idle
  | begin
  | sending
  | pollInterrupt
  | pollPacket
  | timeout
deriving DecidableEq, Repr

/-- The transfer mode latched by begin_transfer (R13). -/
inductive Mode where
  | sendOnly
  | pollInterrupt
  | pollPacket
deriving DecidableEq, Repr

/-- The direction of the pin (R17). -/
inductive Dir where
  | input
  | output
deriving DecidableEq, Repr

/-- The Bit Timing Driver's registers (R11 to R20) and the timeline (R24). -/
structure Driver where
  /-- TAU (R11). -/
  tau      : Byte
  /-- Whether a set_tau has run since reset (R321, R323); the model's own field (log 1). -/
  tauSet   : Bool
  /-- STATE (R12). -/
  bus      : BusState
  /-- MODE (R13). -/
  mode     : Mode
  /-- TXSR (R14); the wire word is bits 16..0. -/
  txsr     : Word
  /-- BITIX (R15). -/
  bitix    : BitVec 5
  /-- DUE (R16). -/
  due      : Word
  /-- DIR (R17). -/
  dir      : Dir
  /-- OUT (R18). -/
  out      : Level
  /-- NEDGE (R19). -/
  nedge    : BitVec 5
  /-- LAST (R20). -/
  last     : Level
  /-- T[0..18] (R24). -/
  timeline : Vector Word 19
deriving DecidableEq, Repr

/-- The foreground's scratch registers (R27, R28). -/
structure Scratch where
  /-- ADDR (R27). -/
  addr    : Addr
  /-- IDX (R27). -/
  idx     : BitVec 16
  /-- RETRY (R27). -/
  retry   : Byte
  /-- STATUS (R27). -/
  status  : Byte
  /-- PAYLOAD (R27). -/
  payload : Byte
  /-- OFFSET (R28). -/
  offset  : BitVec 7
  /-- ATTEMPT (R28). -/
  attempt : BitVec 2
deriving DecidableEq, Repr

/-- The host answer port (R91, R326). -/
structure Answer where
  res0 : Word
  res1 : Word
deriving DecidableEq, Repr

/-- An event of the outside world: a host request on the port, a tick while no operation runs, the rst port (R326) now or
after some moments of the operations to come (log 23), the tick source starting, or stopping after some ticks (R29, R79,
log 19). -/
inductive Input where
  | request (r : Request)
  | tick
  | rst
  | rstIn (moments : Nat)
  | tickSource (left : Option Nat)
deriving DecidableEq, Repr

/-- What stands outside the block and its rules read (R8, R29, R31), as plain data. -/
structure Env where
  /-- The tick counter `now()` (R29, R295). -/
  now     : Word
  /-- How many ticks still come before the tick source stops; `none` while it goes on running (R79, U10, log 19). -/
  ticksLeft : Option Nat
  /-- How many moments of the foreground's waits pass before rst is asserted inside one; `none` while it is not (R326,
  log 23). -/
  rstIn   : Option Nat
  /-- The levels the line's other side shows at the coming samples (R31, log 5). -/
  lineIn  : List Level
  /-- The ticks the foreground lets pass before each of its coming steps inside operations (R77, log 7). -/
  lag     : List Nat
  /-- The coming events of the outside world, in order (log 6). -/
  inbox   : List Input
  /-- How many free values have been drawn; the model's own field (log 25). -/
  freeCtr : Nat
  /-- The words the driver was armed with, newest first: what is sent to the line's other side (log 21). -/
  sent    : List (WireWord × Mode)
deriving DecidableEq, Repr

/-- The caller's memory: bytes by address, addresses strictly rising, no entry equal to what an unlisted address reads as
(log 14). -/
abbrev Memory := List Host.Cell

/-- The whole machine. -/
structure State where
  /-- Bit Timing Driver and timeline (R11 to R20, R24). -/
  drv    : Driver
  /-- UID[0..9] (R25). -/
  uid    : Vector Byte 10
  /-- REGMAP (R26); no step writes it. -/
  regmap : List RegEntry
  /-- The open parameters (R6, R10); no step writes them. -/
  par    : Params
  /-- Foreground scratch (R27, R28). -/
  scr    : Scratch
  /-- RES0, RES1 (R91). -/
  ans    : Answer
  /-- The outside world (R8, R29, R31). -/
  env    : Env
  /-- Caller-owned buffers (R60). -/
  mem    : Memory
deriving DecidableEq, Repr

/-- What stops the machine. -/
inductive Fault where
  /-- Raised by every operation that waits (delay_us, guard_delay, the transport operations, search_id, the wire
  words) when the tick source has stopped, before the wait or during it, and no rst comes: the foreground's spin never
  ends (R79, U10: stuck). Safe: the machine stops where the hardware hangs (log 19). -/
  | spinNeverEnds
deriving DecidableEq, Repr

/-- Why an instruction has no meaning. -/
inductive Refusal where
  /-- Raised by `exec` for an instruction that has no meaning yet. Safe: nothing is proved of it. -/
  | notModelled (mnemonic : String)
  /-- Raised by every operation that uses TAU (begin_transfer, guard_delay, the transport operations, search_id, the
  wire words) before the first set_tau (R287, R321, R323, log 1). Safe: the spec gives no value and no reaction. -/
  | tauUnset
  /-- Raised by `step` for an OP that names no operation (R92). Safe: the spec says the request is refused. -/
  | unknownOp (op : Byte)
  /-- Raised by `step` for a wire word that is none of R99 and R100. Safe: the table has no row for it; the same bits
  can be sent by send_only or begin_transfer. -/
  | unnamedWireWord (word : WireWord)
deriving DecidableEq, Repr

/-- The driver after reset (R320; TAU, T[]: logs 1, 2). -/
def Driver.reset : Driver where
  tau := 0
  tauSet := false
  bus := .idle
  mode := .sendOnly
  txsr := 0
  bitix := 0
  due := 0
  dir := .input
  out := Config.idleLevel
  nedge := 0
  last := Config.idleLevel
  timeline := Vector.replicate 19 0

/-- The scratch registers after reset (R27, R28, R320). -/
def Scratch.reset : Scratch where
  addr := 0
  idx := 0
  retry := 0
  status := 0
  payload := 0
  offset := 0
  attempt := 0

/-- The answer port after reset (log 4). -/
def Answer.reset : Answer where
  res0 := 0
  res1 := 0

/-- The outside world at power-on: ticks run, no request waits, no rst comes, nothing is scripted (R320, R325, logs 3, 5, 6,
7, 19, 23). -/
def Env.reset : Env where
  now := 0
  ticksLeft := none
  rstIn := none
  lineIn := []
  lag := []
  inbox := []
  freeCtr := 0
  sent := []

/-- The machine right after reset (R320). -/
def State.reset : State where
  drv := Driver.reset
  uid := Vector.replicate 10 0
  regmap := Config.regMap
  par := Config.params
  scr := Scratch.reset
  ans := Answer.reset
  env := Env.reset
  mem := []

end Sys2Proof.Machine
end

