-- ==== Sys2Proof/Machine/Ops.lean ====
section
/-! DEFINITION. The named operations: the caller's memory, the pin, the tick agent (40_timing_driver.md R125 to R132), waiting,
begin_transfer, delays, the answer port and reset. The block raises no traps
(60_exceptions.md R280, R292, R293): its one interrupt is the tick (R288), and `State.tick` is the shared operation that
takes it; rst landing inside a wait is `State.rstLands`. -/

namespace Sys2Proof.Machine

/-! ### The caller's memory (R60, log 14) -/

/-- What an unlisted address reads as (log 14). -/
def Memory.unlisted : Byte := 0

/-- The byte at an address. -/
def Memory.read : Memory → Nat → Byte
  | [], _ => Memory.unlisted
  | (k, v) :: rest, a => if k = a then v else Memory.read rest a

/-- One cell in front of a memory, left out where it holds what an unlisted address reads as. -/
def Memory.cons (a : Nat) (b : Byte) (m : Memory) : Memory := if b = Memory.unlisted then m else (a, b) :: m

/-- Writing one byte, keeping the canonical form. -/
def Memory.write : Memory → Nat → Byte → Memory
  | [], a, b => Memory.cons a b []
  | (k, v) :: rest, a, b =>
    if a < k then Memory.cons a b ((k, v) :: rest)
    else if a = k then Memory.cons a b rest
    else (k, v) :: Memory.write rest a b

/-- The canonical form: addresses strictly rising, no entry that reads as unlisted. -/
def Memory.wf : Memory → Bool
  | [] => true
  | (k, v) :: rest => decide (v ≠ Memory.unlisted) && rest.all (fun c => decide (k < c.1)) && Memory.wf rest

/-! ### Parameters (R6) -/

/-- TO(MODE, TAU), at least 1 (R130, D11, log 8). No poll runs in SendOnly (R128). -/
def pollBudget (par : Params) (m : Mode) (tau : Byte) : Word :=
  let raw := match m with
    | .sendOnly => par.toInt.getD tau.toNat 1
    | .pollInterrupt => par.toInt.getD tau.toNat 1
    | .pollPacket => par.toPkt.getD tau.toNat 1
  if raw = 0 then 1 else raw

/-- A raw byte mapped into 2..153, every value of which it reaches (D29, log 9). -/
def inTauRange (raw : Byte) : Byte := BitVec.ofNat 8 (raw.toNat % Config.tauSpan + Config.tauMin)

/-- tau_small(0) and tau_small(1) (R120, D29, log 9). -/
def tauSmall (par : Params) (v : Word) : Byte :=
  if v = 0 then inTauRange par.tauSmall0 else inTauRange par.tauSmall1

/-- The value set_tau writes: ((v - 2) mod 152) + 2 for v >= 2, tau_small(v) below (R120). -/
def effectiveTau (par : Params) (v : Word) : Byte :=
  if Config.tauMin ≤ v.toNat then BitVec.ofNat 8 ((v.toNat - Config.tauMin) % Config.tauSpan + Config.tauMin)
  else tauSmall par v

/-- CAP(MODE) (R19, R129). No poll runs in SendOnly (R128). -/
def Mode.cap : Mode → BitVec 5
  | .sendOnly => Config.capInt
  | .pollInterrupt => Config.capInt
  | .pollPacket => Config.capPkt

/-- The mode of ARG1, if it is one (R13, R93). -/
def modeOfArg (a : Word) : Option Mode :=
  match a.toNat with
  | 0 => some .sendOnly
  | 1 => some .pollInterrupt
  | 2 => some .pollPacket
  | _ => none

/-- The number of a state at the host port (R12, D41). -/
def BusState.code : BusState → Word
  | .idle => 0
  | .begin => 1
  | .sending => 2
  | .pollInterrupt => 3
  | .pollPacket => 4
  | .timeout => 5

/-- Idle or Timeout: no cycle in progress (R123). -/
def BusState.ready : BusState → Bool
  | .idle => true
  | .timeout => true
  | .begin => false
  | .sending => false
  | .pollInterrupt => false
  | .pollPacket => false

/-- A poll state (R129). -/
def BusState.polling : BusState → Bool
  | .pollInterrupt => true
  | .pollPacket => true
  | .idle => false
  | .begin => false
  | .sending => false
  | .timeout => false

/-! ### The pin (R30) -/

/-- pin_dir. -/
def Driver.pinDir (dir : Dir) (d : Driver) : Driver := { d with dir := dir }
/-- pin_write. -/
def Driver.pinWrite (l : Level) (d : Driver) : Driver := { d with out := l }
/-- pin_toggle. -/
def Driver.pinToggle (d : Driver) : Driver := { d with out := !d.out }
/-- pin_read: OUT while DIR = output, the line's level `l` while DIR = input (R30). -/
def Driver.pinRead (l : Level) (d : Driver) : Level :=
  match d.dir with
  | .output => d.out
  | .input => l

/-! ### The tick agent (R125 to R131) -/

/-- width(b): TAU ticks for a 0 bit, 3 TAU for a 1 bit (R136). -/
def pulseWidth (tau : Byte) (b : Bool) : Word := if b then 3 * tau.setWidth 32 else tau.setWidth 32

/-- Starts the pulse of bit `ix` at tick `t` (R126, R127). -/
def Driver.startPulse (t : Word) (ix : BitVec 5) (d : Driver) : Driver :=
  { d with bitix := ix, due := t + pulseWidth d.tau (d.txsr.getLsbD ix.toNat) }

/-- Tick with STATE = Begin (R126). -/
def Driver.tickBegin (t : Word) (d : Driver) : Driver :=
  { (d.pinToggle.startPulse t 16) with bus := .sending }

/-- Turns the pin round and opens the timeline (R128). -/
def Driver.startPoll (t : Word) (bus : BusState) (d : Driver) : Driver :=
  { (d.pinDir .input) with timeline := d.timeline.set 0 t, nedge := 1, last := d.out, bus := bus }

/-- end_of_send (R128). -/
def Driver.endOfSend (t : Word) (d : Driver) : Driver :=
  match d.mode with
  | .sendOnly => { d with bus := .idle }
  | .pollInterrupt => d.startPoll t .pollInterrupt
  | .pollPacket => d.startPoll t .pollPacket

/-- Tick with STATE = Sending (R127). -/
def Driver.tickSending (t : Word) (d : Driver) : Driver :=
  if t = d.due then
    if d.bitix = 0 then d.pinToggle.endOfSend t else d.pinToggle.startPulse t (d.bitix - 1)
  else d

/-- Edge capture of a poll tick (R129). -/
def Driver.capture (t : Word) (l : Level) (d : Driver) : Driver :=
  let level := d.pinRead l
  if level = d.last then d
  else
    { d with
      timeline := d.timeline.setIfInBounds d.nedge.toNat t
      nedge := d.nedge + 1
      last := level
      bus := if d.nedge + 1 = d.mode.cap then .idle else d.bus }

/-- The deadline test of a poll tick (R130). -/
def Driver.deadline (par : Params) (t : Word) (d : Driver) : Driver :=
  if d.bus.polling && decide (pollBudget par d.mode d.tau ≤ t - d.timeline[0]) then { d with bus := .timeout } else d

/-- Tick with STATE = PollInterrupt or PollPacket: edge capture, then the deadline (R129, R130, R290). -/
def Driver.tickPoll (par : Params) (t : Word) (l : Level) (d : Driver) : Driver := (d.capture t l).deadline par t

/-- One step of the tick agent at tick `t` with the line at level `l` (R125). -/
def Driver.tick (par : Params) (t : Word) (l : Level) (d : Driver) : Driver :=
  match d.bus with
  | .idle => d
  | .timeout => d
  | .begin => d.tickBegin t
  | .sending => d.tickSending t
  | .pollInterrupt => d.tickPoll par t l
  | .pollPacket => d.tickPoll par t l

/-- The level the line's other side shows at the next sample: the scripted one, then a free one (R31, log 5). -/
def Env.lineLevel (e : Env) : Level :=
  match e.lineIn with
  | [] => Config.freeLevel e.freeCtr
  | l :: _ => l

/-- The line after one sample has been taken. -/
def Env.sampled (e : Env) : Env :=
  match e.lineIn with
  | [] => { e with freeCtr := e.freeCtr + 1 }
  | _ :: rest => { e with lineIn := rest }

/-- One tick of the tick source: the counter goes up by one and the tick agent takes its step; the line is sampled in
the poll states only (R29, R125, R129, R288, log 24). With the tick source stopped no tick comes (R79, log 19). -/
def State.tick (s : State) : State :=
  if s.env.ticksLeft = some 0 then s
  else
    let t := s.env.now + 1
    let env := if s.drv.bus.polling then s.env.sampled else s.env
    { s with
      drv := s.drv.tick s.par t s.env.lineLevel
      env := { env with now := t, ticksLeft := s.env.ticksLeft.map (· - 1) } }

/-- `n` ticks. -/
def State.ticks : Nat → State → State
  | 0, s => s
  | n + 1, s => State.ticks n s.tick

/-! ### Reset (R320, R326) -/

/-- The rst port: the block's registers take their reset values; REGMAP, the parameters, the outside world and the
caller's memory stay (R320, log 23). -/
def State.applyReset (s : State) : State :=
  { s with drv := Driver.reset, uid := Vector.replicate 10 0, scr := Scratch.reset, ans := Answer.reset }

/-- rst is to be asserted inside an operation, after some moments of it (R326, log 23). -/
def State.setRstIn (moments : Option Nat) (s : State) : State := { s with env := { s.env with rstIn := moments } }

/-- rst asserted while an operation runs: the block is reset (R320, R326, log 23). -/
def State.rstLands (s : State) : State := s.applyReset.setRstIn none

/-! ### Operations that take time -/

/-- How a run of foreground steps ends: done with a result; cut off by rst, in the state rst leaves (R326, log 23); or in a
spin that never ends (R79, U10, log 19). -/
inductive Run (α : Type) where
  | done (a : α) (s : State)
  | cut (s : State)
  | hung

/-- The next steps of an operation, taken if the steps so far are done. -/
def Run.andThen {α β : Type} (r : Run α) (k : α → State → Run β) : Run β :=
  match r with
  | .done a s => k a s
  | .cut s => .cut s
  | .hung => .hung

/-- The same steps, with a result made of theirs. -/
def Run.map {α β : Type} (f : α → β) (r : Run α) : Run β :=
  match r with
  | .done a s => .done (f a) s
  | .cut s => .cut s
  | .hung => .hung

/-- One moment of an operation: rst lands here if it is due, else it comes one moment nearer (R326, log 23). -/
def State.moment {α : Type} (s : State) (k : State → Run α) : Run α :=
  match s.env.rstIn with
  | none => k s
  | some 0 => .cut s.rstLands
  | some (n + 1) => k (s.setRstIn (some n))

/-! ### Waiting (R7, R70, R79) -/

/-- A wait to which no tick comes any more: only rst ends it (R79, R326, U10). -/
def State.stuck (s : State) : Run Unit :=
  match s.env.rstIn with
  | none => .hung
  | some _ => .cut s.rstLands

/-- wait until `p`: the foreground takes no step while `p` is false and ticks go on (R7), until they stop or rst is
asserted. The count of ticks `fuel` is never used up by a wait of this block (R79). -/
def State.spin (p : State → Bool) : Nat → State → Run Unit
  | 0, _ => .hung
  | fuel + 1, s => s.moment fun u =>
    if p u then .done () u else if u.env.ticksLeft = some 0 then u.stuck else State.spin p fuel u.tick

/-- More ticks than any wait of the block takes (R79): a pulse, a poll and a delay each end within 2^32 ticks, and a cycle
has at most 32 pulses and one poll. -/
def spinFuel : Nat := 2 ^ 40

/-- The ticks the foreground lets pass before its next step (R77, R288, log 7). -/
def State.pause (s : State) : State :=
  match s.env.lag with
  | [] => s
  | n :: rest => State.ticks n { s with env := { s.env with lag := rest } }

/-- delay_us(n): s <- now(), wait until (now() -% s) >= n (R133). -/
def State.delay (n : Word) (s : State) : Run Unit :=
  State.spin (fun u => decide (n ≤ u.env.now - s.env.now)) spinFuel s

/-- guard_delay(): delay_us(5 TAU) (R134). -/
def State.guard (s : State) : Run Unit := s.delay (5 * s.drv.tau.setWidth 32)

/-- wait until STATE = Idle or STATE = Timeout (R190). -/
def State.awaitReady (s : State) : Run Unit := State.spin (fun u => u.drv.bus.ready) spinFuel s

/-! ### Starting a cycle (R122, R123) -/

/-- begin_transfer in Idle or Timeout; in a cycle the request is ignored (R122, R123, log 11). -/
def State.beginTransfer (word : Word) (mode : Mode) (s : State) : State :=
  if s.drv.bus.ready then
    { s with
      drv := { (s.drv.pinDir .output) with txsr := word, mode := mode, bus := .begin }
      env := { s.env with sent := (word.setWidth 17, mode) :: s.env.sent } }
  else s

/-- bus_line_idle in Idle or Timeout; in a cycle the request is ignored (R135, U3, log 11). -/
def State.lineIdle (s : State) : State :=
  if s.drv.bus.ready then { s with drv := (s.drv.pinWrite Config.idleLevel).pinDir .output } else s

/-- set_tau: TAU is written, also in a cycle, where the remaining pulses and the deadline use it (R120, R331, U5,
log 12). -/
def State.setTau (v : Word) (s : State) : State :=
  { s with drv := { s.drv with tau := effectiveTau s.par v, tauSet := true } }

/-! ### The answer port (R91, log 4) -/

/-- An answer in RES0; RES1 holds. -/
def State.answer0 (v : Word) (s : State) : State := { s with ans := { s.ans with res0 := v } }

/-- An answer in RES0 and RES1. -/
def State.answer (v0 v1 : Word) (s : State) : State := { s with ans := { res0 := v0, res1 := v1 } }

/-- A truth value at the port. -/
def boolWord (b : Bool) : Word := if b then 1 else 0

/-- One free value has been drawn. -/
def State.drew (s : State) : State := { s with env := { s.env with freeCtr := s.env.freeCtr + 1 } }

/-- An answer in RES0 for which the spec defines no value: a free one (R206, D26, log 13). -/
def State.undefined0 (s : State) : State := (s.answer0 (Config.freeWord s.env.freeCtr)).drew

/-- An operation's outcome: its answer put on the port; the state rst leaves, with no answer and nothing more of the
operation done (R326, log 23); or a spin that never ends (R79, U10, log 19). -/
def finish {α : Type} (answer : α → State → State) (r : Run α) : Host.Outcome State Fault Refusal :=
  match r with
  | .done a s => .next (answer a s)
  | .cut s => .next s
  | .hung => .fault .spinNeverEnds

/-- An operation without a result (R92, log 4). -/
def noAnswer : Unit → State → State := fun _ s => s

/-- A count at the port. -/
def answerCount : Nat → State → State := fun n s => s.answer0 (BitVec.ofNat 32 n)

/-- A truth value at the port. -/
def answerBool : Bool → State → State := fun b s => s.answer0 (boolWord b)

/-- A status and a payload at the port. -/
def answerPacket : Byte × Byte → State → State := fun p s => s.answer (p.1.setWidth 32) (p.2.setWidth 32)

/-- A signed result at the port (R204). -/
def answerWord : Word → State → State := fun v s => s.answer0 v

/-- What uses TAU is refused before the first set_tau (R287, R321, R323, log 1). -/
def State.needTau (s : State) (k : Host.Outcome State Fault Refusal) : Host.Outcome State Fault Refusal :=
  if s.drv.tauSet then k else .refused .tauUnset

/-! ### Scratch registers (R27, R28, log 20) -/

/-- ADDR and IDX name the byte in hand; IDX holds the index modulo 2^16 where a length runs past it (R27, R71, log 26). -/
def State.byteInHand (a : Addr) (i : Nat) (s : State) : State :=
  { s with scr := { s.scr with addr := a, idx := BitVec.ofNat 16 i } }

/-- RETRY. -/
def State.setRetry (n : Nat) (s : State) : State := { s with scr := { s.scr with retry := BitVec.ofNat 8 n } }

/-- STATUS and PAYLOAD. -/
def State.setStatus (st p : Byte) (s : State) : State := { s with scr := { s.scr with status := st, payload := p } }

/-- OFFSET. -/
def State.setOffset (n : Nat) (s : State) : State := { s with scr := { s.scr with offset := BitVec.ofNat 7 n } }

/-- ATTEMPT. -/
def State.setAttempt (n : Nat) (s : State) : State := { s with scr := { s.scr with attempt := BitVec.ofNat 2 n } }

/-! ### The identifier (R25, R234) -/

/-- UID[0..9] <- 0 (R231). -/
def State.clearUid (s : State) : State := { s with uid := Vector.replicate 10 0 }

/-- A byte with bit `k` set to `b`. -/
def setByteBit (v : Byte) (k : Nat) (b : Bool) : Byte :=
  if b then v ||| BitVec.twoPow 8 k else v &&& ~~~(BitVec.twoPow 8 k)

/-- set_uid_bit(p, b): UID[p div 8][p mod 8] <- b (R234). -/
def State.setUidBit (p : Nat) (b : Bool) (s : State) : State :=
  { s with uid := s.uid.setIfInBounds (p / 8) (setByteBit (s.uid.getD (p / 8) 0) (p % 8) b) }

end Sys2Proof.Machine
end

