-- ==== Sys2Proof/Machine/Flags.lean ====
section
/-! DEFINITION. The flags inside a wire word and a status: inversion (30_encoding.md R95, R98; 41_codec.md R162, R169), parity
check (R167), end of transmission (R101). The block has no condition codes (10_state.md R22). -/

namespace Sys2Proof.Machine

/-- The number of 1 bits (R7). -/
def popcount {w : Nat} (v : BitVec w) : Nat := (List.range w).countP fun i => v.getLsbD i

/-- The 14 covered bits W[14:1]: D9..D0, P3..P0 (R95, R98). -/
def coveredBits (w : WireWord) : BitVec 14 := w.extractLsb' 1 14

/-- The word with its 14 covered bits complemented; BCF, nBCF and INV stay (R95). -/
def invertCovered (w : WireWord) : WireWord := w ^^^ 0x07FFE#17

/-- INV, W[0] (R94). -/
def invFlag (w : WireWord) : Bool := w.getLsbD 0

/-- encode's wire word: the logical word, inverted and flagged when more than 7 covered bits are 1 (R160, R162). -/
def wireWord (code : Code) (payload : Byte) : WireWord :=
  let l := logicalWord code payload
  if 7 < popcount (coveredBits l) then invertCovered l ||| 1#17 else l

/-- The un-inverted word of a received one (R165). -/
def unInvert (r : WireWord) : WireWord := if invFlag r then invertCovered r else r

/-- check_parity: the lowest-numbered group whose recomputed parity differs from its bit L[1 + g] (R167). -/
def failingGroup (l : WireWord) : Option Nat :=
  [0, 1, 2, 3].find? fun g => parityOf (codePayload (wordCode l) (wordPayload l)) g != l.getLsbD (1 + g)

/-- check_inversion_majority: INV agrees with the majority rule (R169). -/
def majorityAgrees (r : WireWord) : Bool :=
  (!invFlag r && decide (popcount (coveredBits r) ≤ 7)) || (invFlag r && decide (popcount (coveredBits r) ≤ 6))

/-- BCF = nBCF, which only CHECK_FRAMING rejects (R103, D17). -/
def framingEqual (l : WireWord) : Bool := l.getLsbD 16 == l.getLsbD 15

/-- A checked word's status with the end-of-transmission flag set (R101, R195, R201). -/
def endOfTransmission (status : Byte) : Bool :=
  decide (status.toNat ≤ 0x0F) && decide (status &&& Config.eotMask ≠ 0)

end Sys2Proof.Machine
end

