-- ==== Sys2Proof/Machine/Operands.lean ====
section
/-! DEFINITION. Operand forms: bytes and intervals of a caller's buffer (20_memory.md R60, R69; 30_encoding.md R91, R92), the
payloads of an address (R96), a named register (42_transport.md R206, R210). -/

namespace Sys2Proof.Machine

/-- The caller's address of byte `i` of a buffer (log 14). -/
def bufAddr (buf : BufRef) (i : Nat) : Nat := (buf.base + BitVec.ofNat 32 i).toNat

/-- Byte `i` of a buffer. -/
def State.bufByte (buf : BufRef) (i : Nat) (s : State) : Byte := s.mem.read (bufAddr buf i)

/-- Stores byte `i` of a buffer. -/
def State.bufStore (buf : BufRef) (i : Nat) (b : Byte) (s : State) : State :=
  { s with mem := s.mem.write (bufAddr buf i) b }

/-- The buffer holds at least `n` bytes (R206, R287). -/
def bufHolds (buf : BufRef) (n : Nat) : Bool := decide (n ≤ buf.size.toNat)

/-- Bytes 0..n-1 of a buffer. -/
def State.bufBytes (buf : BufRef) (n : Nat) (s : State) : List Byte := (List.range n).map fun i => s.bufByte buf i

/-- Stores a list of bytes from byte `i` of a buffer upward. -/
def State.bufStoreAll (buf : BufRef) : Nat → List Byte → State → State
  | _, [], s => s
  | i, b :: rest, s => State.bufStoreAll buf (i + 1) rest (s.bufStore buf i b)

/-- Interval `k` of a buffer of 32-bit intervals, least significant byte first (R92, log 15). -/
def State.bufInterval (buf : BufRef) (k : Nat) (s : State) : Word :=
  s.bufByte buf (4 * k + 3) ++ s.bufByte buf (4 * k + 2) ++ s.bufByte buf (4 * k + 1) ++ s.bufByte buf (4 * k)

/-- Intervals I[0..17] of a buffer (R165). -/
def State.bufIntervals (buf : BufRef) (s : State) : List Word := (List.range 18).map fun k => s.bufInterval buf k

/-- addr[15:8], the payload of ERA (R61, R96). -/
def addrHigh (a : Addr) : Byte := a.extractLsb' 8 8

/-- addr[7:0], the payload of WRA and RRA (R61, R96). -/
def addrLow (a : Addr) : Byte := a.extractLsb' 0 8

/-- The companion address of byte `i`: addr + i modulo 2^16 (R61, D23). -/
def addrPlus (a : Addr) (i : Nat) : Addr := a + BitVec.ofNat 16 i

/-- REGMAP[id], if the table has it (R206, R210). -/
def State.namedRegister (id : Word) (s : State) : Option RegEntry := s.regmap[id.toNat]?

/-- reverse_byte_order(buf, n): the bytes 0..n-1 in reverse (R205). -/
def State.reverseBytes (buf : BufRef) (n : Nat) (s : State) : State :=
  s.bufStoreAll buf 0 (s.bufBytes buf n).reverse

end Sys2Proof.Machine
end

