-- ==== Sys2Proof/Machine/DriverOps.lean ====
section
/-! DEFINITION. The host operations of the Bit Timing Driver (40_timing_driver.md R120 to R124, R133 to R135). -/

namespace Sys2Proof.Machine

/-- set_tau (R120, R331): RES0 is the effective value. -/
def execSetTau (v : Word) (s : State) : Host.Outcome State Fault Refusal :=
  .next ((s.setTau v).answer0 ((effectiveTau s.par v).setWidth 32))

/-- get_tau (R121); before the first set_tau the value is a free one (R321, log 1). -/
def execGetTau (s : State) : Host.Outcome State Fault Refusal :=
  if s.drv.tauSet then .next (s.answer0 (s.drv.tau.setWidth 32))
  else .next (s.answer0 ((Config.freeTau s.env.freeCtr).setWidth 32)).drew

/-- begin_transfer (R122); ignored in a cycle or with a mode that is none (R123, log 11). -/
def execBeginTransfer (word mode : Word) (s : State) : Host.Outcome State Fault Refusal :=
  s.needTau <|
    match modeOfArg mode with
    | some m => .next (s.beginTransfer word m)
    | none => .next s

/-- current_state (R124). -/
def execCurrentState (s : State) : Host.Outcome State Fault Refusal := .next (s.answer0 s.drv.bus.code)

/-- delay_us (R133). -/
def execDelayUs (n : Word) (s : State) : Host.Outcome State Fault Refusal :=
  finish noAnswer (s.delay n)

/-- guard_delay (R134). -/
def execGuardDelay (s : State) : Host.Outcome State Fault Refusal := s.needTau (finish noAnswer s.guard)

/-- bus_line_idle (R135). -/
def execBusLineIdle (s : State) : Host.Outcome State Fault Refusal := .next s.lineIdle

end Sys2Proof.Machine
end

