-- ==== Sys2Proof/Machine/Codec.lean ====
section
/-! DEFINITION. The Packet Codec (41_codec.md): the receiving side of `decode`, and the meanings of encode, decode,
check_parity and check_inversion_majority. The codec holds no state (10_state.md R10). -/

namespace Sys2Proof.Machine

/-- th = floor((min + max) / 2) over a nonempty list of intervals (R165, R166). -/
def threshold (interior : List Word) : Nat :=
  let ns := interior.map BitVec.toNat
  (ns.foldl min (ns.headD 0) + ns.foldl max 0) / 2

/-- b[k] shifted in from the right, first interval to bit 16 (R67, R165). -/
def assembleWord (th : Nat) (bits : List Word) : WireWord :=
  bits.foldl (fun r i => (r <<< 1) ||| (if th < i.toNat then 1#17 else 0#17)) 0

/-- The word as received, R, from 18 intervals: I[0] is the latency, I[1..16] give the threshold, I[1..17] the bits
(R164, R165). -/
def receivedWord (intervals : List Word) : WireWord :=
  assembleWord (threshold ((intervals.drop 1).take 16)) ((intervals.drop 1).take 17)

/-- decode up to the un-inverted word L; `none` is DecodeError.TooFewIntervals (R165). -/
def decodedWord (intervals : List Word) : Option WireWord :=
  if intervals.length < 18 then none else some (unInvert (receivedWord intervals))

/-- {code, payload} in RES1 (R92). -/
def decodeAnswer (l : WireWord) : Word := (codePayload (wordCode l) (wordPayload l)).setWidth 32

/-- encode (R160). -/
def execEncode (code : Code) (payload : Byte) (s : State) : Host.Outcome State Fault Refusal :=
  .next (s.answer0 ((wireWord code payload).setWidth 32))

/-- decode (R165): RES0 = 1 and no RES1 value on too few intervals (a free one, log 18); a buffer shorter than the
eighteen intervals gives no defined answer (R287, log 13). -/
def execDecode (n : Word) (buf : BufRef) (s : State) : Host.Outcome State Fault Refusal :=
  if n.toNat < 18 then .next (s.answer 1 (Config.freeWord s.env.freeCtr)).drew
  else if bufHolds buf 72 then
    match decodedWord (s.bufIntervals buf) with
    | some l => .next (s.answer 0 (decodeAnswer l))
    | none => .next (s.answer 1 (Config.freeWord s.env.freeCtr)).drew
  else .next (s.answer (Config.freeWord s.env.freeCtr) (Config.freeWord (s.env.freeCtr + 1))).drew.drew

/-- check_parity (R167): RES0 = 0, or 1 + the lowest failing group. -/
def execCheckParity (word : WireWord) (s : State) : Host.Outcome State Fault Refusal :=
  match failingGroup word with
  | none => .next (s.answer0 0)
  | some g => .next (s.answer0 (BitVec.ofNat 32 (1 + g)))

/-- check_inversion_majority (R169). -/
def execCheckInversionMajority (word : WireWord) (s : State) : Host.Outcome State Fault Refusal :=
  .next (s.answer0 (boolWord (majorityAgrees word)))

end Sys2Proof.Machine
end

