-- ==== Sys2Proof/Machine/Transport.lean ====
section
/-! DEFINITION. The Bus Transport (42_transport.md): the exchange the three primitives share, byte reads with their retry,
array reads and writes, named registers, byte reversal. Each is a run of foreground steps, done, cut off by rst, or hung
(R79, R326). -/

namespace Sys2Proof.Machine

/-- DevExchange(code, payload, mode): encode, begin_transfer, wait for Idle or Timeout, guard_delay (R190). Issued while
a cycle is in progress, its begin_transfer is ignored and it waits for that cycle (R123, log 11). -/
def State.exchange (code : Code) (payload : Byte) (mode : Mode) (s : State) : Run BusState :=
  s.pause.moment fun t =>
    (t.beginTransfer ((wireWord code payload).setWidth 32) mode).awaitReady.andThen fun _ u =>
      u.pause.guard.map fun _ => u.drv.bus

/-- send_only (R191). -/
def State.sendOnly (code : Code) (payload : Byte) (s : State) : Run Bool :=
  (s.exchange code payload .sendOnly).map fun b => decide (b = .idle)

/-- send_poll_interrupt (R193). -/
def State.sendPollInterrupt (code : Code) (payload : Byte) (s : State) : Run Bool :=
  (s.exchange code payload .pollInterrupt).map fun b => decide (b = .idle)

/-- T[k] as the foreground reads it: an entry below NEDGE is what the last poll wrote there; an entry at or above NEDGE is
stale or was never written, and is a free value (R24, R321, U11, log 2). -/
def State.stamp (s : State) (k : Nat) : Word :=
  if k < s.drv.nedge.toNat then s.drv.timeline.getD k 0 else Config.freeStamp (s.env.freeCtr + k)

/-- I[k] = T[k+1] -% T[k] for k = 0..17 (R164). -/
def intervalsBetween (stamp : Nat → Word) : List Word := (List.range 18).map fun k => stamp (k + 1) - stamp k

/-- The free values of a read of T[0..18] have been drawn, if it needed any. -/
def State.stampsRead (s : State) : State :=
  if 19 ≤ s.drv.nedge.toNat then s else { s with env := { s.env with freeCtr := s.env.freeCtr + 19 } }

/-- What send_poll_packet answers for a timeline: status and payload (R194, R195). -/
def packetAnswer (intervals : List Word) : Byte × Byte :=
  match decodedWord intervals with
  | none => (Config.statusDecodeFail, 0)
  | some l =>
    if (failingGroup l).isSome || (Config.checkFraming && framingEqual l) then (Config.statusDecodeFail, 0)
    else ((wordCode l).setWidth 8, wordPayload l)

/-- The end of send_poll_packet, the exchange having ended in `b`: the sentinel, or the timeline decoded (R194); STATUS and
PAYLOAD hold the result (R27). After a poll of its own that ended in Idle the timeline is complete. Asked for in another
cycle it decodes what T[] holds when that cycle is over, with free values for the entries no poll wrote (logs 2, 11). -/
def State.packetEnd (b : BusState) (s : State) : Run (Byte × Byte) :=
  if b = .timeout then .done (Config.statusTimeout, 0) (s.setStatus Config.statusTimeout 0)
  else
    let a := packetAnswer (intervalsBetween s.stamp)
    .done a (s.stampsRead.setStatus a.1 a.2)

/-- send_poll_packet (R194). Asked for while another cycle is in progress (R190's precondition broken), the model's choice is that
it waits for that cycle and decodes what T[] then holds: DEDUCED from R194 as written, with free values for the entries no
poll wrote (R24, R78, U11, logs 2, 11). -/
def State.sendPollPacket (code : Code) (payload : Byte) (s : State) : Run (Byte × Byte) :=
  (s.exchange code payload .pollPacket).andThen fun b u => u.packetEnd b

/-- The data words of write_addr_space: bytes i, i+1, ... while sends succeed; the answer is the count (R198). -/
def State.writeBytes (addr : Addr) (buf : BufRef) : Nat → Nat → State → Run Nat
  | i, 0, s => .done i s
  | i, left + 1, s =>
    ((s.byteInHand (addrPlus addr i) i).sendOnly Config.codeWD (s.bufByte buf i)).andThen fun ok u =>
      if ok then State.writeBytes addr buf (i + 1) left u else .done i u

/-- write_addr_space (R198). -/
def State.writeSpace (addr : Addr) (n : Nat) (buf : BufRef) (s : State) : Run Nat :=
  (s.sendOnly Config.codeERA (addrHigh addr)).andThen fun ok1 u =>
    if ok1 then
      (u.sendOnly Config.codeWRA (addrLow addr)).andThen fun ok2 v =>
        if ok2 then State.writeBytes addr buf 0 n v else .done 0 v
    else .done 0 u

/-- One attempt at a byte read: ERA, then RRA and its reply (R201). -/
def State.readAttempt (x : Addr) (s : State) : Run (Byte × Byte) :=
  (s.sendOnly Config.codeERA (addrHigh x)).andThen fun _ u => u.sendPollPacket Config.codeRRA (addrLow x)

/-- read_byte with `left` retries left: only a transport timeout is retried (R201). -/
def State.readByteFrom (x : Addr) : Nat → State → Run (Option Byte)
  | left, s =>
    (s.readAttempt x).andThen fun a u =>
      if a.1 = Config.statusTimeout then
        match left with
        | 0 => .done none u
        | k + 1 => State.readByteFrom x k (u.setRetry (Config.readRetries - k))
      else if endOfTransmission a.1 then .done (some a.2) u
      else .done none u

/-- read_byte (R201). -/
def State.readByte (x : Addr) (s : State) : Run (Option Byte) :=
  State.readByteFrom x Config.readRetries (s.setRetry 0)

/-- The bytes of read_addr_space: i, i+1, ... until one fails; the answer is the count (R200). -/
def State.readBytes (addr : Addr) (buf : BufRef) : Nat → Nat → State → Run Nat
  | i, 0, s => .done i s
  | i, left + 1, s =>
    ((s.byteInHand (addrPlus addr i) i).readByte (addrPlus addr i)).andThen fun r u =>
      match r with
      | none => .done i u
      | some b => State.readBytes addr buf (i + 1) left (u.bufStore buf i b)

/-- read_addr_space (R200). -/
def State.readSpace (addr : Addr) (n : Nat) (buf : BufRef) (s : State) : Run Nat := State.readBytes addr buf 0 n s

/-- read_addr_reverse: -1, unreversed, if short; else reversed, and `size` (R204). -/
def State.readReverse (addr : Addr) (n : Nat) (buf : BufRef) (s : State) : Run Word :=
  (s.readSpace addr n buf).andThen fun c u =>
    if c < n then .done 0xFFFFFFFF u else .done (BitVec.ofNat 32 n) (u.reverseBytes buf n)

/-- A buffer the operation cannot be carried out on: nothing is done and no answer is defined (R206, D26, log 13). -/
def State.withBuffer (buf : BufRef) (n : Nat) (s : State) (k : Host.Outcome State Fault Refusal) :
    Host.Outcome State Fault Refusal :=
  if bufHolds buf n then k else .next s.undefined0

/-- send_only (R191). -/
def execSendOnly (code : Code) (payload : Byte) (s : State) : Host.Outcome State Fault Refusal :=
  s.needTau (finish answerBool (s.sendOnly code payload))

/-- send_poll_interrupt (R193). -/
def execSendPollInterrupt (code : Code) (payload : Byte) (s : State) : Host.Outcome State Fault Refusal :=
  s.needTau (finish answerBool (s.sendPollInterrupt code payload))

/-- send_poll_packet (R194). -/
def execSendPollPacket (code : Code) (payload : Byte) (s : State) : Host.Outcome State Fault Refusal :=
  s.needTau (finish answerPacket (s.sendPollPacket code payload))

/-- write_addr_space (R198). -/
def execWriteAddrSpace (addr : Addr) (length : Word) (buf : BufRef) (s : State) : Host.Outcome State Fault Refusal :=
  s.needTau (s.withBuffer buf length.toNat (finish answerCount (s.writeSpace addr length.toNat buf)))

/-- read_addr_space (R200). -/
def execReadAddrSpace (addr : Addr) (length : Word) (buf : BufRef) (s : State) : Host.Outcome State Fault Refusal :=
  s.needTau (s.withBuffer buf length.toNat (finish answerCount (s.readSpace addr length.toNat buf)))

/-- read_addr_reverse (R204). -/
def execReadAddrReverse (addr : Addr) (size : Word) (buf : BufRef) (s : State) : Host.Outcome State Fault Refusal :=
  s.needTau (s.withBuffer buf size.toNat (finish answerWord (s.readReverse addr size.toNat buf)))

/-- read_registers (R206); an id outside the table does nothing and has no defined answer (D26, log 13). -/
def execReadRegisters (id : Word) (buf : BufRef) (s : State) : Host.Outcome State Fault Refusal :=
  s.needTau <|
    match s.namedRegister id with
    | none => .next s.undefined0
    | some e => s.withBuffer buf e.len (finish answerCount (s.readSpace e.addr e.len buf))

/-- write_registers (R208); an id outside the table does nothing and has no defined answer (D26, log 13). -/
def execWriteRegisters (id : Word) (buf : BufRef) (s : State) : Host.Outcome State Fault Refusal :=
  s.needTau <|
    match s.namedRegister id with
    | none => .next s.undefined0
    | some e => s.withBuffer buf e.len (finish answerCount (s.writeSpace e.addr e.len buf))

/-- reverse_byte_order (R205): it has no result, so a buffer that is too short leaves everything as it was (log 13). -/
def execReverseByteOrder (n : Word) (buf : BufRef) (s : State) : Host.Outcome State Fault Refusal :=
  if bufHolds buf n.toNat then .next (s.reverseBytes buf n.toNat) else .next s

end Sys2Proof.Machine
end

