-- ==== Sys2Proof/Machine/Search.lean ====
section
/-! DEFINITION. The UID anti-collision search (43_uid_search.md R230 to R235). -/

namespace Sys2Proof.Machine

/-- One attempt at a position: probe branch 1, else probe branch 0; the branch that answered (R232, R233). -/
def State.probe (s : State) : Run (Option Bool) :=
  (s.sendPollInterrupt Config.bcCode Config.probeBranch1).andThen fun yes1 u =>
    if yes1 then .done (some true) u
    else (u.sendPollInterrupt Config.bcCode Config.probeBranch0).map fun yes0 => if yes0 then some false else none

/-- The commit: EnterBranch1 or EnterBranch0 by send_only (R232). -/
def State.enterBranch (b : Bool) (s : State) : Run Bool :=
  s.sendOnly Config.bcCode (if b then Config.enterBranch1 else Config.enterBranch0)

/-- resolve_bit with `left` attempts left (R232). -/
def State.resolveBitFrom : Nat → State → Run (Option Bool)
  | 0, s => .done none s
  | left + 1, s =>
    (s.setAttempt (Config.uidAttempts - left)).probe.andThen fun branch u =>
      match branch with
      | none => State.resolveBitFrom left u
      | some b => (u.enterBranch b).map fun _ => some b

/-- resolve_bit() (R232). -/
def State.resolveBit (s : State) : Run (Option Bool) := State.resolveBitFrom Config.uidAttempts (s.setAttempt 0)

/-- The positions of the tree, `left` of them left; position 79 - OFFSET is written at depth OFFSET (R231, R234). -/
def State.searchFrom : Nat → State → Run Bool
  | 0, s => .done true s
  | left + 1, s =>
    s.resolveBit.andThen fun bit u =>
      match bit with
      | none => .done false u
      | some b => State.searchFrom left ((u.setUidBit left b).setOffset (Config.uidBits - left))

/-- search_id() (R231). -/
def State.search (s : State) : Run Bool :=
  ((s.clearUid.setOffset 0).sendOnly Config.bcCode Config.discoverStart).andThen fun _ u =>
    State.searchFrom Config.uidBits u

/-- search_id (R231). -/
def execSearchId (s : State) : Host.Outcome State Fault Refusal := s.needTau (finish answerBool s.search)

end Sys2Proof.Machine
end

