-- ==== Sys2Proof/Machine/Wire.lean ====
section
/-! DEFINITION. The ten wire words as instructions: each is put on the line by the primitive that the column "sent by" of
30_encoding.md R99 and R100 names, with the answer of that primitive (log 17). -/

namespace Sys2Proof.Machine

/-- A word sent by send_only (R99, R100, R191). -/
def sendWord (code : Code) (payload : Byte) (s : State) : Host.Outcome State Fault Refusal :=
  s.needTau (finish answerBool (s.sendOnly code payload))

/-- A word sent by send_poll_interrupt (R99, R193). -/
def probeWord (code : Code) (payload : Byte) (s : State) : Host.Outcome State Fault Refusal :=
  s.needTau (finish answerBool (s.sendPollInterrupt code payload))

/-- WriteData (R100). -/
def execWriteData (payload : Byte) (s : State) : Host.Outcome State Fault Refusal := sendWord Config.codeWD payload s

/-- ExtendedRegAddr (R100). -/
def execExtendedRegAddr (payload : Byte) (s : State) : Host.Outcome State Fault Refusal :=
  sendWord Config.codeERA payload s

/-- WriteRegAddr (R100). -/
def execWriteRegAddr (payload : Byte) (s : State) : Host.Outcome State Fault Refusal :=
  sendWord Config.codeWRA payload s

/-- ReadRegAddr (R100): sent by send_poll_packet, the companion answers with one word. -/
def execReadRegAddr (payload : Byte) (s : State) : Host.Outcome State Fault Refusal :=
  s.needTau (finish answerPacket (s.sendPollPacket Config.codeRRA payload))

/-- BusReset (R99). -/
def execBusReset (s : State) : Host.Outcome State Fault Refusal := sendWord Config.bcCode Config.busReset s

/-- DiscoverStart (R99). -/
def execDiscoverStart (s : State) : Host.Outcome State Fault Refusal := sendWord Config.bcCode Config.discoverStart s

/-- EnterBranch0 (R99). -/
def execEnterBranch0 (s : State) : Host.Outcome State Fault Refusal := sendWord Config.bcCode Config.enterBranch0 s

/-- EnterBranch1 (R99). -/
def execEnterBranch1 (s : State) : Host.Outcome State Fault Refusal := sendWord Config.bcCode Config.enterBranch1 s

/-- ProbeBranch0 (R99). -/
def execProbeBranch0 (s : State) : Host.Outcome State Fault Refusal := probeWord Config.bcCode Config.probeBranch0 s

/-- ProbeBranch1 (R99). -/
def execProbeBranch1 (s : State) : Host.Outcome State Fault Refusal := probeWord Config.bcCode Config.probeBranch1 s

end Sys2Proof.Machine
end

