-- ==== Sys2Proof/Machine/Dispatch.lean ====
section
/-! DEFINITION. One arm per instruction: each calls its meaning. -/

namespace Sys2Proof.Machine

def exec (i : Instr) (s : State) : Host.Outcome State Fault Refusal :=
  match i with
  | .setTau v => Sys2Proof.Machine.execSetTau v s
  | .getTau => Sys2Proof.Machine.execGetTau s
  | .beginTransfer word mode => Sys2Proof.Machine.execBeginTransfer word mode s
  | .currentState => Sys2Proof.Machine.execCurrentState s
  | .delayUs n => Sys2Proof.Machine.execDelayUs n s
  | .guardDelay => Sys2Proof.Machine.execGuardDelay s
  | .busLineIdle => Sys2Proof.Machine.execBusLineIdle s
  | .encode code payload => Sys2Proof.Machine.execEncode code payload s
  | .decode n buf => Sys2Proof.Machine.execDecode n buf s
  | .checkParity word => Sys2Proof.Machine.execCheckParity word s
  | .checkInversionMajority word => Sys2Proof.Machine.execCheckInversionMajority word s
  | .sendOnly code payload => Sys2Proof.Machine.execSendOnly code payload s
  | .sendPollInterrupt code payload => Sys2Proof.Machine.execSendPollInterrupt code payload s
  | .sendPollPacket code payload => Sys2Proof.Machine.execSendPollPacket code payload s
  | .writeAddrSpace addr length buf => Sys2Proof.Machine.execWriteAddrSpace addr length buf s
  | .readAddrSpace addr length buf => Sys2Proof.Machine.execReadAddrSpace addr length buf s
  | .readAddrReverse addr size buf => Sys2Proof.Machine.execReadAddrReverse addr size buf s
  | .readRegisters id buf => Sys2Proof.Machine.execReadRegisters id buf s
  | .writeRegisters id buf => Sys2Proof.Machine.execWriteRegisters id buf s
  | .reverseByteOrder n buf => Sys2Proof.Machine.execReverseByteOrder n buf s
  | .searchId => Sys2Proof.Machine.execSearchId s
  | .writeData payload => Sys2Proof.Machine.execWriteData payload s
  | .extendedRegAddr payload => Sys2Proof.Machine.execExtendedRegAddr payload s
  | .writeRegAddr payload => Sys2Proof.Machine.execWriteRegAddr payload s
  | .readRegAddr payload => Sys2Proof.Machine.execReadRegAddr payload s
  | .busReset => Sys2Proof.Machine.execBusReset s
  | .discoverStart => Sys2Proof.Machine.execDiscoverStart s
  | .enterBranch0 => Sys2Proof.Machine.execEnterBranch0 s
  | .enterBranch1 => Sys2Proof.Machine.execEnterBranch1 s
  | .probeBranch0 => Sys2Proof.Machine.execProbeBranch0 s
  | .probeBranch1 => Sys2Proof.Machine.execProbeBranch1 s

end Sys2Proof.Machine
end

