-- ==== Sys2Proof/Machine/Fetch.lean ====
section
/-! DEFINITION. Taking the next event of the outside world (00_scope.md R8, 20_memory.md R77, 70_reset_and_hazards.md R320, R326):
a host request is decoded and executed, a tick is taken, rst resets now or is due inside an operation, the tick source
starts or stops; with no event waiting, time passes by one tick (log 6). -/

namespace Sys2Proof.Machine

/-- The state with the first waiting event taken off. -/
def State.setInbox (inbox : List Input) (s : State) : State := { s with env := { s.env with inbox := inbox } }

/-- The tick source starts, or stops after some ticks (R29, R79, log 19). -/
def State.setTicksLeft (left : Option Nat) (s : State) : State := { s with env := { s.env with ticksLeft := left } }

/-- The refusal of a request that is no instruction (R92). -/
def refusalOf : Reject → Refusal
  | .unknownOp op => .unknownOp op
  | .unnamedWireWord w => .unnamedWireWord w

/-- A host request: decoded, then executed (R90, R92). -/
def runRequest (r : Request) (s : State) : Host.Outcome State Fault Refusal :=
  match decode r with
  | .ok i => exec i s
  | .error e => .refused (refusalOf e)

/-- One event of the outside world. -/
def takeInput (x : Input) (s : State) : Host.Outcome State Fault Refusal :=
  match x with
  | .request r => runRequest r s
  | .tick => .next s.tick
  | .rst => .next s.applyReset
  | .rstIn moments => .next (s.setRstIn (some moments))
  | .tickSource left => .next (s.setTicksLeft left)

/-- The machine's next step: its first waiting event, or a tick. -/
def nextStep (s : State) : Host.Outcome State Fault Refusal :=
  match s.env.inbox with
  | [] => .next s.tick
  | x :: rest => takeInput x (s.setInbox rest)

/-- The state with a request put in front of the waiting events. -/
def State.issue (r : Request) (s : State) : State := s.setInbox (.request r :: s.env.inbox)

end Sys2Proof.Machine
end

