-- ==== Sys2Proof/Machine/Step.lean ====
section
/-! DEFINITION. One step of the machine, and a state whose next step runs a given instruction of the opcode table. -/

namespace Sys2Proof.Machine

/-- One step (`nextStep`). -/
def step : State → Host.Outcome State Fault Refusal := nextStep

/-- The instruction of the opcode table with bits `w` put where `step` takes its next request (log 6). -/
def State.withFetchWord (s : State) (nbits w : Nat) : State := s.issue (requestOfWord nbits w)

end Sys2Proof.Machine
end

