-- ==== Sys2Proof/Safety.lean ====
section
/-! DEFINITION. The terms claims are stated in: the invariant of the machine, what an observer of the line sees, the timeline and
the line levels of a reply (41_codec.md R163, 30_encoding.md R102), and the shape of an exchange's end state. -/

namespace Sys2Proof.Machine

/-! ### The invariant -/

/-- The longest pulse, 3 TAU_MAX ticks (R136). -/
def longestPulse : Nat := 459

/-- TAU lies in 2..153 once it is set (R11), and no cycle is in progress before that (R323). -/
abbrev Driver.TauInv (d : Driver) : Prop :=
  (d.tauSet = true → 2 ≤ d.tau.toNat ∧ d.tau.toNat ≤ 153) ∧ (d.bus.ready = false → d.tauSet = true)

/-- DIR follows STATE: output from begin_transfer to the end of the send, input in a poll (R122, R128). -/
abbrev Driver.DirInv (d : Driver) : Prop :=
  ((d.bus = .begin ∨ d.bus = .sending) → d.dir = .output) ∧ (d.bus.polling = true → d.dir = .input)

/-- OUT is at IDLE_LEVEL outside a send, and in a send has been toggled 17 - BITIX times (R18, R126, R127). -/
abbrev Driver.OutInv (d : Driver) : Prop :=
  (d.bus = .sending → d.out = (d.bitix.getLsbD 0 == Config.idleLevel)) ∧ (d.bus ≠ .sending → d.out = Config.idleLevel)

/-- A send's next level change lies 1 to 459 ticks ahead, and BITIX is at most 16 (R15, R126, R127, R136). -/
abbrev Driver.PulseInv (d : Driver) (now : Word) : Prop :=
  d.bitix.toNat ≤ 16 ∧ (d.bus = .sending → 1 ≤ (d.due - now).toNat ∧ (d.due - now).toNat ≤ longestPulse)

/-- A poll is in the state of its mode with at least its first entry and not yet its last; NEDGE is at most 19; Timeout is
the end of a poll (R19, R128, R129, R132). -/
abbrev Driver.PollInv (d : Driver) : Prop :=
  d.nedge.toNat ≤ 19 ∧
  (d.bus = .pollInterrupt → d.mode = .pollInterrupt ∧ d.nedge = 1) ∧
  (d.bus = .pollPacket → d.mode = .pollPacket ∧ 1 ≤ d.nedge.toNat ∧ d.nedge.toNat ≤ 18) ∧
  (d.bus = .timeout → d.mode ≠ .sendOnly)

/-- REGMAP has twenty rows, the four given ones among them (R26, R210). -/
abbrev RegMapInv (m : List RegEntry) : Prop :=
  m.length = Config.regMapSize ∧ Config.errorCode ∈ m ∧ Config.authChallenge ∈ m ∧ Config.macData ∈ m ∧
    Config.nvmLockOffset ∈ m

/-- RETRY and OFFSET stay within their ranges (R27, R28). -/
abbrev Scratch.Inv (r : Scratch) : Prop := r.retry.toNat ≤ Config.readRetries ∧ r.offset.toNat ≤ Config.uidBits

/-- The invariant of the machine. -/
abbrev State.Inv (s : State) : Prop :=
  s.drv.TauInv ∧ s.drv.DirInv ∧ s.drv.OutInv ∧ s.drv.PulseInv s.env.now ∧ s.drv.PollInv ∧ RegMapInv s.regmap ∧
    s.scr.Inv ∧ s.mem.wf = true

/-- Nothing from outside stops an operation: ticks go on arriving and rst is not asserted inside it (R79, R326). -/
abbrev State.Undisturbed (s : State) : Prop := s.env.ticksLeft = none ∧ s.env.rstIn = none

/-- The machine may run any operation: TAU has been set and nothing from outside stops it (R323, R79). -/
abbrev State.Live (s : State) : Prop := s.Inv ∧ s.drv.tauSet = true ∧ s.Undisturbed

/-- ... and no cycle is in progress: the precondition of a transport operation (R190). -/
abbrev State.Ready (s : State) : Prop := s.Live ∧ s.drv.bus.ready = true

/-! ### What the line shows -/

/-- The ticks at which the block changes the level it drives, over `n` ticks (R102, R137). -/
def levelChanges : Nat → State → List Word
  | 0, _ => []
  | n + 1, s =>
    if s.tick.drv.out = s.drv.out then levelChanges n s.tick else s.tick.env.now :: levelChanges n s.tick

/-- The ticks of the level changes that end the pulses of bits `ix`, ..., 0, the first pulse starting at `t` (R137). -/
def pulseEnds (tau : Byte) (word : Word) : Nat → Word → List Word
  | 0, t => [t + pulseWidth tau (word.getLsbD 0)]
  | ix + 1, t => (t + pulseWidth tau (word.getLsbD (ix + 1))) :: pulseEnds tau word ix (t + pulseWidth tau (word.getLsbD (ix + 1)))

/-- TAU (17 + 2 popcount(W)): the ticks from the first level change of a word to its last (R102, R137). -/
def sendTicks (tau : Byte) (w : WireWord) : Nat := tau.toNat * (17 + 2 * popcount w)

/-- width_tau(b) (R163). -/
def replyWidth (tau : Nat) (b : Bool) : Nat := if b then 3 * tau else tau

/-- The bits of a word, first on the wire first (R67). -/
def wireBits (w : WireWord) : List Bool := (List.range 17).map fun k => w.getLsbD (16 - k)

/-- Timestamps of the level changes that end the given pulses (R163). -/
def edgeTimes (tau : Nat) : Word → List Bool → List Word
  | _, [] => []
  | t, b :: rest =>
    (t + BitVec.ofNat 32 (replyWidth tau b)) :: edgeTimes tau (t + BitVec.ofNat 32 (replyWidth tau b)) rest

/-- timeline_of(W, tau, t_start, latency) (R163). -/
def timelineOf (w : WireWord) (tau : Nat) (tStart : Word) (latency : Nat) : List Word :=
  tStart :: (tStart + BitVec.ofNat 32 latency) :: edgeTimes tau (tStart + BitVec.ofNat 32 latency) (wireBits w)

/-- Differences of consecutive timestamps, modulo 2^32 (R164). -/
def intervalsOf : List Word → List Word
  | a :: b :: rest => (b - a) :: intervalsOf (b :: rest)
  | _ => []

/-- The levels the line shows at the samples of the given pulses and of the change that ends them, the first pulse at level
`l` (R102). -/
def pulseLevels (unit : Nat) : Level → List Bool → List Level
  | l, [] => [l]
  | l, b :: rest => List.replicate (replyWidth unit b) l ++ pulseLevels unit (!l) rest

/-- The levels at the samples of a poll that a reply of unit `unit` answers, its first change `latency` ticks after the
poll began, on a line resting at IDLE_LEVEL (R102, R163). -/
def replyLevels (w : WireWord) (unit latency : Nat) : List Level :=
  List.replicate (latency - 1) Config.idleLevel ++ pulseLevels unit (!Config.idleLevel) (wireBits w)

/-- The ticks such a reply takes, from the start of the poll to its last change (R102). -/
def replyTicks (w : WireWord) (unit latency : Nat) : Nat := latency + unit * (17 + 2 * popcount w)

/-- The levels at the samples of `n` ticks on a line nobody moves (R31). -/
def restLevels (n : Nat) : List Level := List.replicate n Config.idleLevel

/-- The levels at the samples of a probe that is answered `latency` ticks after it began (R65, R193). -/
def edgeLevels (latency : Nat) : List Level := restLevels (latency - 1) ++ [!Config.idleLevel]

/-! ### The end of an exchange (R190) -/

/-- What every exchange leaves alone: the registers of R8's foreground and tick agents that it does not write, the caller's
memory, the tables, the inputs still to come. -/
abbrev ExchangeFrame (s t : State) : Prop :=
  t.uid = s.uid ∧ t.regmap = s.regmap ∧ t.par = s.par ∧ t.mem = s.mem ∧ t.scr = s.scr ∧
    t.drv.tau = s.drv.tau ∧ t.drv.tauSet = s.drv.tauSet ∧ t.drv.out = s.drv.out ∧
    t.env.ticksLeft = s.env.ticksLeft ∧ t.env.rstIn = s.env.rstIn ∧ t.env.inbox = s.env.inbox

/-- The driver was armed with exactly this word in this mode, and the foreground's two pauses were used (R122, R190). -/
abbrev WordSent (w : WireWord) (m : Mode) (s t : State) : Prop :=
  t.drv.txsr = w.setWidth 32 ∧ t.drv.mode = m ∧ t.env.sent = (w, m) :: s.env.sent ∧ t.env.lag = s.env.lag.drop 2

/-- The ticks the foreground's pauses in one exchange take (R77). -/
def lagTicks (s : State) : Nat := (s.env.lag.take 2).sum

/-- The end of a send_only of a word, its answer in RES0: STATE is Idle, DIR is output, and the ticks that passed are one to
the first level change, the word's own, and the guard delay (R191, R137, R134). -/
abbrev SentAlone (code : Code) (payload : Byte) (s t : State) : Prop :=
  WordSent (wireWord code payload) .sendOnly s t ∧ ExchangeFrame s t ∧ t.ans = { s.ans with res0 := 1 } ∧
    t.drv.bus = .idle ∧ t.drv.dir = .output ∧ t.drv.timeline = s.drv.timeline ∧ t.drv.nedge = s.drv.nedge ∧
    t.drv.last = s.drv.last ∧ t.env.lineIn = s.env.lineIn ∧ t.env.freeCtr = s.env.freeCtr ∧
    t.env.now = s.env.now +
      BitVec.ofNat 32 (lagTicks s + 1 + sendTicks s.drv.tau (wireWord code payload) + 5 * s.drv.tau.toNat)

/-- TO_INT(TAU) and TO_PKT(TAU) in ticks (R130). -/
abbrev intTicks (s : State) : Nat := (pollBudget s.par .pollInterrupt s.drv.tau).toNat
abbrev pktTicks (s : State) : Nat := (pollBudget s.par .pollPacket s.drv.tau).toNat

/-- The end of a send_poll_interrupt of a word: the answer is whether the cycle ended in Idle, DIR is input, and with the
levels of the whole budget scripted the answer is true iff one of them differs from the resting level (R193). -/
abbrev ProbeSent (code : Code) (payload : Byte) (s t : State) : Prop :=
  WordSent (wireWord code payload) .pollInterrupt s t ∧ ExchangeFrame s t ∧ t.drv.dir = .input ∧
    t.ans = { s.ans with res0 := boolWord (decide (t.drv.bus = .idle)) } ∧ (t.drv.bus = .idle ∨ t.drv.bus = .timeout) ∧
    (intTicks s ≤ s.env.lineIn.length →
      (t.drv.bus = .idle ↔ ∃ l ∈ s.env.lineIn.take (intTicks s), l ≠ Config.idleLevel))

/-- The end of a send_poll_packet of a word: on a transport timeout the sentinel 0xFF with payload 0; else the timeline is
complete, and the answer is 0xFE with payload 0 if the parity check of the decoded word fails, else its code and
payload (R194, R195); STATUS and PAYLOAD hold the same (R27). -/
abbrev PacketSent (code : Code) (payload : Byte) (s t : State) : Prop :=
  WordSent (wireWord code payload) .pollPacket s t ∧
    t.uid = s.uid ∧ t.regmap = s.regmap ∧ t.par = s.par ∧ t.mem = s.mem ∧
    t.drv.tau = s.drv.tau ∧ t.drv.tauSet = s.drv.tauSet ∧ t.drv.out = s.drv.out ∧
    t.env.ticksLeft = s.env.ticksLeft ∧ t.env.rstIn = s.env.rstIn ∧ t.env.inbox = s.env.inbox ∧ t.drv.dir = .input ∧
    t.scr = { s.scr with status := t.scr.status, payload := t.scr.payload } ∧
    t.ans = ⟨t.scr.status.setWidth 32, t.scr.payload.setWidth 32⟩ ∧
    ((t.drv.bus = .timeout ∧ t.scr.status = 0xFF ∧ t.scr.payload = 0) ∨
      (t.drv.bus = .idle ∧ t.drv.nedge = 19 ∧
        ∃ l, decodedWord (intervalsBetween fun k => t.drv.timeline.getD k 0) = some l ∧
          ((failingGroup l ≠ none ∧ t.scr.status = 0xFE ∧ t.scr.payload = 0) ∨
            (failingGroup l = none ∧ t.scr.status = (wordCode l).setWidth 8 ∧ t.scr.payload = wordPayload l))))

/-! ### What the statements name -/

/-- The instructions that use TAU: those R323 names, and the wire words, which are sent by them. -/
def usesTau : Instr → Bool
  | .beginTransfer _ _ | .guardDelay | .sendOnly _ _ | .sendPollInterrupt _ _ | .sendPollPacket _ _ => true
  | .writeAddrSpace _ _ _ | .readAddrSpace _ _ _ | .readAddrReverse _ _ _ => true
  | .readRegisters _ _ | .writeRegisters _ _ | .searchId => true
  | .writeData _ | .extendedRegAddr _ | .writeRegAddr _ | .readRegAddr _ => true
  | .busReset | .discoverStart | .enterBranch0 | .enterBranch1 | .probeBranch0 | .probeBranch1 => true
  | .setTau _ | .getTau | .currentState | .delayUs _ | .busLineIdle => false
  | .encode _ _ | .decode _ _ | .checkParity _ | .checkInversionMajority _ | .reverseByteOrder _ _ => false

/-- The lowest parity group a wire bit takes part in, by position: INV flips every group; P0..P3; D0..D9; nBCF (R161, R168,
95_test_vectors.md 2.4). -/
def lowestGroup : List Nat := [0, 0, 1, 2, 3, 0, 0, 1, 0, 0, 1, 0, 2, 0, 1, 0]

/-- The block's registers hold the values R320 gives them, and nothing is left of rst to come (R326). TAU and T[], which R320
leaves unspecified, are not spoken of; that TAU counts as not set is the model's choice (log 1), so is the answer port's 0
(log 4). -/
abbrev RegistersReset (t : State) : Prop :=
  t.drv.bus = .idle ∧ t.drv.mode = .sendOnly ∧ t.drv.txsr = 0 ∧ t.drv.bitix = 0 ∧ t.drv.due = 0 ∧ t.drv.dir = .input ∧
    t.drv.out = true ∧ t.drv.nedge = 0 ∧ t.drv.last = true ∧ t.drv.tauSet = false ∧ (∀ k (h : k < 10), t.uid[k] = 0) ∧
    t.scr = ⟨0, 0, 0, 0, 0, 0, 0⟩ ∧ t.ans = ⟨0, 0⟩ ∧ t.env.rstIn = none

/-- What rst leaves of a state in which it lands: the block's registers reset, REGMAP and what stands outside the block as they
were, but for the time that has passed and the words that have been sent (R320, log 23). -/
abbrev AfterRst (s t : State) : Prop :=
  RegistersReset t ∧ t.regmap = s.regmap ∧ t.par = s.par ∧ t.mem = s.mem ∧ t.env.inbox = s.env.inbox ∧
    t.env.lineIn = s.env.lineIn ∧ t.env.ticksLeft = s.env.ticksLeft

/-- A reply of the companion to one byte of a read: its code, data, unit and latency (R101, R102). -/
structure Reply where
  code    : Code
  data    : Byte
  unit    : Nat
  latency : Nat
deriving DecidableEq, Repr

/-- Its word. -/
abbrev Reply.word (r : Reply) : WireWord := wireWord r.code r.data

/-- The levels at its samples. -/
def Reply.levels (r : Reply) : List Level := replyLevels r.word r.unit r.latency

/-- A reply that a byte read takes: flagged as the end of its transmission and over within the budget (R101, R201). -/
abbrev Reply.Good (r : Reply) (budget : Nat) : Prop :=
  r.code.getLsbD 0 = true ∧ 1 ≤ r.unit ∧ 1 ≤ r.latency ∧ replyTicks r.word r.unit r.latency ≤ budget

/-- The words of a write: ERA, WRA and one WD per byte, newest first (R105, R198). -/
def writeWords (addr : Addr) (bytes : List Byte) : List (WireWord × Mode) :=
  (bytes.map fun b => (wireWord 0x4 b, Mode.sendOnly)).reverse ++
    [(wireWord 0x6 (addr.extractLsb' 0 8), .sendOnly), (wireWord 0x5 (addr.extractLsb' 8 8), .sendOnly)]

/-- The levels of an asking that is left unanswered, if there is one before the answer (R201). -/
def lateLevels (budget : Nat) (late : Bool) : List Level := if late then restLevels budget else []

/-- How the companion answers one byte of a read: at once, or, the first asking left unanswered, at the second (R201). -/
structure ByteAnswer where
  late  : Bool
  reply : Reply
deriving DecidableEq, Repr

/-- The levels at its samples. -/
def ByteAnswer.levels (budget : Nat) (a : ByteAnswer) : List Level := lateLevels budget a.late ++ a.reply.levels

/-- The words of asking for byte `i` of a read: ERA and RRA, newest first (R105, R201). -/
def askWords (addr : Addr) (i : Nat) : List (WireWord × Mode) :=
  [(wireWord 0x7 ((addr + BitVec.ofNat 16 i).extractLsb' 0 8), .pollPacket),
    (wireWord 0x5 ((addr + BitVec.ofNat 16 i).extractLsb' 8 8), .sendOnly)]

/-- The words of byte `i` of a read, which is asked for twice if it is late. -/
def byteWords (addr : Addr) (i : Nat) (late : Bool) : List (WireWord × Mode) :=
  if late then askWords addr i ++ askWords addr i else askWords addr i

/-- The words of a read from byte `i` on, each byte late or not, newest first (R200). -/
def readWords (addr : Addr) : Nat → List Bool → List (WireWord × Mode)
  | _, [] => []
  | i, late :: rest => readWords addr (i + 1) rest ++ byteWords addr i late

/-- A read has ended with the bytes of the answers, and no others, in the buffer, and their number as its answer; the words of
those bytes were sent, and after them `last` (R200). -/
abbrev ReadEnded (addr : Addr) (buf : BufRef) (answers : List ByteAnswer) (last : List (WireWord × Mode)) (s t : State) : Prop :=
  t.ans.res0 = BitVec.ofNat 32 answers.length ∧ t.bufBytes buf answers.length = answers.map (·.reply.data) ∧
    (∀ a, (∀ i, i < answers.length → a ≠ bufAddr buf i) → t.mem.read a = s.mem.read a) ∧
    (answers = [] → t.mem = s.mem) ∧
    t.env.sent = last ++ (readWords addr 0 (answers.map ByteAnswer.late) ++ s.env.sent)

/-- Ticks a send_only of a word takes, the foreground's pauses among them (R137, R134, log 7). -/
abbrev sendOnlyTicks (s : State) (code : Code) (payload : Byte) : Nat :=
  lagTicks s + 1 + sendTicks s.drv.tau (wireWord code payload) + 5 * s.drv.tau.toNat

/-- The least ticks an instruction begun in Idle or Timeout takes: a send_only takes these, an exchange that polls at least one
more, an access or a search at least those of its first word (R79, R338). -/
def leastTicks (s : State) : Instr → Nat
  | .delayUs n => n.toNat
  | .guardDelay => 5 * s.drv.tau.toNat
  | .sendOnly code payload => sendOnlyTicks s code payload
  | .sendPollInterrupt code payload => sendOnlyTicks s code payload + 1
  | .sendPollPacket code payload => sendOnlyTicks s code payload + 1
  | .writeAddrSpace addr n buf => if n.toNat ≤ buf.size.toNat then sendOnlyTicks s 0x5 (addr.extractLsb' 8 8) else 0
  | .readAddrSpace addr n buf =>
    if n ≠ 0 ∧ n.toNat ≤ buf.size.toNat then sendOnlyTicks s 0x5 (addr.extractLsb' 8 8) else 0
  | .readAddrReverse addr n buf =>
    if n ≠ 0 ∧ n.toNat ≤ buf.size.toNat then sendOnlyTicks s 0x5 (addr.extractLsb' 8 8) else 0
  | .readRegisters id buf =>
    match s.regmap[id.toNat]? with
    | none => 0
    | some e => if e.len ≠ 0 ∧ e.len ≤ buf.size.toNat then sendOnlyTicks s 0x5 (e.addr.extractLsb' 8 8) else 0
  | .writeRegisters id buf =>
    match s.regmap[id.toNat]? with
    | none => 0
    | some e => if e.len ≤ buf.size.toNat then sendOnlyTicks s 0x5 (e.addr.extractLsb' 8 8) else 0
  | .searchId => sendOnlyTicks s 0x8 0x80
  | .writeData b => sendOnlyTicks s 0x4 b
  | .extendedRegAddr b => sendOnlyTicks s 0x5 b
  | .writeRegAddr b => sendOnlyTicks s 0x6 b
  | .readRegAddr b => sendOnlyTicks s 0x7 b + 1
  | .busReset => sendOnlyTicks s 0x8 0x00
  | .discoverStart => sendOnlyTicks s 0x8 0x80
  | .enterBranch0 => sendOnlyTicks s 0x8 0x84
  | .enterBranch1 => sendOnlyTicks s 0x8 0x85
  | .probeBranch0 => sendOnlyTicks s 0x8 0x86 + 1
  | .probeBranch1 => sendOnlyTicks s 0x8 0x87 + 1
  | .setTau _ => 0
  | .getTau => 0
  | .beginTransfer _ _ => 0
  | .currentState => 0
  | .busLineIdle => 0
  | .encode _ _ => 0
  | .decode _ _ => 0
  | .checkParity _ => 0
  | .checkInversionMajority _ => 0
  | .reverseByteOrder _ _ => 0

/-- The levels a device that follows the bits of an identifier shows to the probes of a search: branch 1 answered for a 1;
for a 0 branch 1 left unanswered and branch 0 answered (R65, R232). -/
def obedientLevels (budget latency : Nat) (bits : List Bool) : List Level :=
  bits.flatMap fun b => if b then edgeLevels latency else restLevels budget ++ edgeLevels latency

/-- The words of a search that finds the bits, newest first (R105, R232). -/
def searchWords : List Bool → List (WireWord × Mode)
  | [] => []
  | b :: rest => searchWords rest ++
      (if b then [(wireWord 0x8 0x85, .sendOnly), (wireWord 0x8 0x87, .pollInterrupt)]
       else [(wireWord 0x8 0x84, .sendOnly), (wireWord 0x8 0x86, .pollInterrupt),
         (wireWord 0x8 0x87, .pollInterrupt)])

/-- The words of three attempts at a position that nobody answers, newest first (R232). -/
def failedProbes : List (WireWord × Mode) :=
  (List.replicate 3 [(wireWord 0x8 0x86, Mode.pollInterrupt), (wireWord 0x8 0x87, .pollInterrupt)]).flatten

/-- Whether parity group `g`, its members given as R97's mask over {code, payload}, holds together with its parity bit an odd
number of ones (R97, R167). -/
def oddGroup (l : WireWord) (mask : BitVec 12) (g : Nat) : Bool :=
  (popcount (l.extractLsb' 5 12 &&& mask) + (if l.getLsbD (1 + g) then 1 else 0)) % 2 == 1

end Sys2Proof.Machine
end

