-- ==== Sys2Proof/Certificates/Slice0/Obligations.lean ====
section
/-! DEFINITION. The statements about the machine, each formalising rules of spec/. OBLIGATIONS.json lists them. -/

open Sys2Proof Sys2Proof.Machine

/-! ### Reset, decoding, the step -/

/-- R320: what the rst port leaves in every register the spec gives a reset value, whatever the state before; REGMAP keeps
its fixed content. The model's choices: TAU counts as not set (log 1); the counter and all else outside the block, the
parameters and the callers' memory stay as they were (log 23). -/
def Obligations.ResetPortLeavesTheTable : Prop :=
  ∀ (s : State) (rest : List Input), s.env.inbox = .rst :: rest → ∃ t, step s = .next t ∧
    t.drv.bus = .idle ∧ t.drv.mode = .sendOnly ∧ t.drv.txsr = 0 ∧ t.drv.bitix = 0 ∧ t.drv.due = 0 ∧
    t.drv.dir = .input ∧ t.drv.out = true ∧ t.drv.nedge = 0 ∧ t.drv.last = true ∧ t.drv.tauSet = false ∧
    (∀ k (h : k < 10), t.uid[k] = 0) ∧ t.scr = ⟨0, 0, 0, 0, 0, 0, 0⟩ ∧ t.regmap = s.regmap ∧
    t.par = s.par ∧ t.env = { s.env with inbox := rest } ∧ t.mem = s.mem

/-- The machine after reset meets the invariant (R320, with R26's four rows in the open table of log 10). -/
def Obligations.ResetMeetsInvariant : Prop := State.reset.Inv

/-- R11, R12, R15, R17 to R19, R26 to R28: whatever event or instruction a step takes, the invariant is kept. -/
def Obligations.EveryStepKeepsInvariant : Prop := ∀ s t : State, s.Inv → step s = .next t → t.Inv

/-- R92, R99, R100: every instruction is decoded from its request, whole, with every operand at every value. -/
def Obligations.DecodeOfEncodeIsTheInstruction : Prop := ∀ i : Instr, i.wellFormed = true → decode (encode i) = .ok i

/-- R106, R100: a wire word that decodes is encoded again as itself, once its parity is what R97 computes and its
inversion flag is 0; so two instructions never share such a word. -/
def Obligations.EncodeOfDecodedWireWord : Prop :=
  ∀ (w : WireWord) (i : Instr), decode (.wire w) = .ok i → w.getLsbD 0 = false → failingGroup w = none →
    encode i = .wire w

/-- Words written out from the encodings of the opcode table decode to the instructions they stand for (R92, R99, R100,
95_test_vectors.md 2.2). -/
def Obligations.TableWordsDecode : Prop :=
  decodeTableWord 8 0x07 = some .busLineIdle ∧ decodeTableWord 8 0x30 = some .searchId ∧
  decodeTableWord 24 0b01001010010111000 = some (.writeData 0xA5) ∧
  decodeTableWord 24 0b01010001001111010 = some (.extendedRegAddr 0x13) ∧
  decodeTableWord 24 0b10001000011111000 = some .probeBranch1 ∧
  decode (.host 0x10 0x14 0x1A5 0 noBuf) = .ok (.encode 0x4 0xA5)

/-- R90, R92: when the first waiting event is a request that decodes to an instruction, the step is that instruction's
meaning, with the event taken off and nothing else around it. -/
def Obligations.StepRunsTheDecodedInstruction : Prop :=
  ∀ (s : State) (r : Request) (rest : List Input) (i : Instr), s.env.inbox = .request r :: rest → decode r = .ok i →
    step s = exec i { s with env := { s.env with inbox := rest } }

/-- R92: a request whose OP is none of the table's is refused, whatever its other fields. -/
def Obligations.UnknownOperationsAreRefused : Prop :=
  ∀ (s : State) (op : Byte) (a0 a1 a2 : Word) (buf : BufRef) (rest : List Input),
    op.toNat ∉ [0x01, 0x02, 0x03, 0x04, 0x05, 0x06, 0x07, 0x10, 0x11, 0x12, 0x13, 0x20, 0x21, 0x22, 0x23, 0x24, 0x25,
      0x26, 0x27, 0x28, 0x30] →
    s.env.inbox = .request (.host op a0 a1 a2 buf) :: rest → step s = .refused (.unknownOp op)

/-- R125, R131, R288: a tick moves the counter up by one, and with no cycle in progress changes nothing else. That a step with
no event waiting is one tick is the model's choice (log 6); so is the count of the ticks that still come (log 19). -/
def Obligations.TimePassesByTicks : Prop :=
  ∀ s : State, s.env.inbox = [] → s.env.ticksLeft ≠ some 0 → ∃ t, step s = .next t ∧ t.env.now = s.env.now + 1 ∧
    t.uid = s.uid ∧ t.regmap = s.regmap ∧ t.scr = s.scr ∧ t.ans = s.ans ∧ t.mem = s.mem ∧
    t.drv.tau = s.drv.tau ∧ t.drv.tauSet = s.drv.tauSet ∧ t.drv.txsr = s.drv.txsr ∧ t.drv.mode = s.drv.mode ∧
    t.par = s.par ∧ t.env.inbox = [] ∧
    ((s.drv.bus = .idle ∨ s.drv.bus = .timeout) →
      t = { s with env := { s.env with now := s.env.now + 1, ticksLeft := s.env.ticksLeft.map (· - 1) } })

/-! ### The tick agent -/

/-- R126: the tick after begin_transfer makes the first level change and starts the pulse of bit 16. -/
def Obligations.BeginTickStartsTheWord : Prop :=
  ∀ s : State, s.env.ticksLeft ≠ some 0 → s.drv.bus = .begin →
    s.tick = { s with
      drv := { s.drv with
        out := !s.drv.out, bitix := 16, bus := .sending
        due := s.env.now + 1 + (if s.drv.txsr.getLsbD 16 then 3 * s.drv.tau.setWidth 32 else s.drv.tau.setWidth 32) }
      env := { s.env with now := s.env.now + 1, ticksLeft := s.env.ticksLeft.map (· - 1) } }

/-- R127, R128: a sending tick before DUE changes nothing but the counter; at DUE it toggles the line and starts the next
bit's pulse, or after the last bit ends the send: Idle for SendOnly, else the pin turned round and the timeline opened. -/
def Obligations.SendingTick : Prop :=
  ∀ (s : State) (env : Env), s.env.ticksLeft ≠ some 0 → s.drv.bus = .sending →
    env = { s.env with now := s.env.now + 1, ticksLeft := s.env.ticksLeft.map (· - 1) } →
    (s.env.now + 1 ≠ s.drv.due → s.tick = { s with env := env }) ∧
    (s.env.now + 1 = s.drv.due → s.drv.bitix ≠ 0 →
      s.tick = { s with
        env := env
        drv := { s.drv with
          out := !s.drv.out, bitix := s.drv.bitix - 1
          due := s.drv.due +
            (if s.drv.txsr.getLsbD (s.drv.bitix.toNat - 1) then 3 * s.drv.tau.setWidth 32
             else s.drv.tau.setWidth 32) } }) ∧
    (s.env.now + 1 = s.drv.due → s.drv.bitix = 0 → s.drv.mode = .sendOnly →
      s.tick = { s with env := env, drv := { s.drv with out := !s.drv.out, bus := .idle } }) ∧
    (∀ b, (s.drv.mode = .pollInterrupt ∧ b = .pollInterrupt ∨ s.drv.mode = .pollPacket ∧ b = .pollPacket) →
      s.env.now + 1 = s.drv.due → s.drv.bitix = 0 →
      s.tick = { s with
        env := env
        drv := { s.drv with
          out := !s.drv.out, dir := .input, timeline := s.drv.timeline.set 0 s.drv.due, nedge := 1
          last := !s.drv.out, bus := b } })

/-- R129, R130, R290: a poll tick captures a level change first (the entry, NEDGE, LAST, and Idle if the timeline is
complete), and only then, if it is not complete, enters Timeout when the budget is spent. -/
def Obligations.PollTick : Prop :=
  ∀ (s : State) (l : Level), s.Inv → s.env.ticksLeft ≠ some 0 → s.drv.bus.polling = true → s.env.lineLevel = l →
    s.tick = { s with drv := s.tick.drv, env := s.tick.env } ∧
    (∀ l' rest, s.env.lineIn = l' :: rest → l = l' ∧
      s.tick.env = { s.env with
        now := s.env.now + 1, ticksLeft := s.env.ticksLeft.map (· - 1), lineIn := rest }) ∧
    (s.env.lineIn = [] →
      s.tick.env = { s.env with
        now := s.env.now + 1, ticksLeft := s.env.ticksLeft.map (· - 1), freeCtr := s.env.freeCtr + 1 }) ∧
    (l = s.drv.last → s.tick.drv = { s.drv with bus := s.tick.drv.bus }) ∧
    (l ≠ s.drv.last →
      s.tick.drv = { s.drv with
        bus := s.tick.drv.bus, nedge := s.drv.nedge + 1, last := l
        timeline := s.drv.timeline.setIfInBounds s.drv.nedge.toNat (s.env.now + 1) }) ∧
    (let full := l ≠ s.drv.last ∧ s.drv.nedge.toNat + 1 = (if s.drv.mode = .pollPacket then 19 else 2)
     let spent := (pollBudget s.par s.drv.mode s.drv.tau).toNat ≤ (s.env.now + 1 - s.drv.timeline[0]).toNat
     (full → s.tick.drv.bus = .idle) ∧ (¬full → spent → s.tick.drv.bus = .timeout) ∧
       (¬full → ¬spent → s.tick.drv.bus = s.drv.bus))

/-- R132, R282: Timeout is entered by a tick from a poll state only, and begin_transfer's mode decides the poll. -/
def Obligations.TimeoutComesFromPollsOnly : Prop :=
  ∀ s : State, s.tick.drv.bus = .timeout → s.drv.bus = .timeout ∨ s.drv.bus = .pollInterrupt ∨ s.drv.bus = .pollPacket

/-- R137, R102: from Begin, the level changes of a send happen at t0 and then at the end of each of the seventeen pulses,
`TAU × (17 + 2 × popcount(W))` ticks in all; eighteen changes, no more. STATE is Sending from the first tick to the last but
one. -/
def Obligations.LevelChangesOfASend : Prop :=
  ∀ s : State, s.Live → s.drv.bus = .begin →
    levelChanges (1 + sendTicks s.drv.tau (s.drv.txsr.setWidth 17)) s =
      (s.env.now + 1) :: pulseEnds s.drv.tau s.drv.txsr 16 (s.env.now + 1) ∧
    (∀ j, 1 ≤ j → j ≤ sendTicks s.drv.tau (s.drv.txsr.setWidth 17) → (State.ticks j s).drv.bus = .sending) ∧
    (State.ticks (1 + sendTicks s.drv.tau (s.drv.txsr.setWidth 17)) s).drv.bus =
      (match s.drv.mode with
       | .sendOnly => .idle
       | .pollInterrupt => .pollInterrupt
       | .pollPacket => .pollPacket)

/-- R79, R338: a cycle that has been begun ends: a send within 51 TAU ticks of its Begin tick, a poll within its budget. -/
def Obligations.CycleEndsInBoundedTime : Prop :=
  ∀ s : State, s.Live → s.drv.bus = .begin → ∃ k t, s.awaitReady = .done () t ∧ t = State.ticks k s ∧
    t.drv.bus.ready = true ∧
    k ≤ 1 + 51 * s.drv.tau.toNat +
      (if s.drv.mode = .sendOnly then 0 else (pollBudget s.par s.drv.mode s.drv.tau).toNat)

/-! ### The Bit Timing Driver's operations -/

/-- R120: set_tau writes ((v - 2) mod 152) + 2 for v of 2 and above, some value in 2..153 below, and answers it. That it does
so in a cycle too, where R331 asks a model to refuse, is the model's choice (log 12). -/
def Obligations.SetTauWrapsIntoRange : Prop :=
  ∀ s : State, ∃ e : Word → Byte, ∀ v : Word,
    exec (.setTau v) s = .next { s with
      drv := { s.drv with tau := e v, tauSet := true }, ans := { s.ans with res0 := (e v).setWidth 32 } } ∧
    2 ≤ (e v).toNat ∧ (e v).toNat ≤ 153 ∧ (2 ≤ v.toNat → (e v).toNat = (v.toNat - 2) % 152 + 2)

/-- R121: get_tau answers TAU; before the first set_tau it answers some byte (log 1). -/
def Obligations.GetTauAnswersTau : Prop :=
  ∀ s : State,
    (s.drv.tauSet = true → exec .getTau s = .next { s with ans := { s.ans with res0 := s.drv.tau.setWidth 32 } }) ∧
    (s.drv.tauSet = false → ∃ (b : Byte) (t : State), exec .getTau s = .next t ∧
      t = { s with ans := { s.ans with res0 := b.setWidth 32 }, env := { s.env with freeCtr := t.env.freeCtr } })

/-- R122: begin_transfer in Idle or Timeout loads TXSR and MODE, turns the pin to output and enters Begin; T[], NEDGE, OUT
and everything else stay. -/
def Obligations.BeginTransferArmsTheDriver : Prop :=
  ∀ (s : State) (word mode : Word) (m : Mode), s.drv.tauSet = true → (s.drv.bus = .idle ∨ s.drv.bus = .timeout) →
    (mode = 0 ∧ m = .sendOnly ∨ mode = 1 ∧ m = .pollInterrupt ∨ mode = 2 ∧ m = .pollPacket) →
    exec (.beginTransfer word mode) s = .next { s with
      drv := { s.drv with txsr := word, mode := m, dir := .output, bus := .begin }
      env := { s.env with sent := (word.setWidth 17, m) :: s.env.sent } }

/-- R123: in a cycle, or with a mode that is none of the three, begin_transfer changes no register (log 11). -/
def Obligations.BeginTransferIgnored : Prop :=
  ∀ (s : State) (word mode : Word), s.drv.tauSet = true →
    (s.drv.bus ≠ .idle ∧ s.drv.bus ≠ .timeout ∨ 3 ≤ mode.toNat) → exec (.beginTransfer word mode) s = .next s

/-- R124: current_state answers the number of STATE and has no side effect. -/
def Obligations.CurrentStateAnswers : Prop :=
  ∀ s : State, ∃ n : Word, exec .currentState s = .next { s with ans := { s.ans with res0 := n } } ∧
    (s.drv.bus = .idle ↔ n = 0) ∧ (s.drv.bus = .begin ↔ n = 1) ∧ (s.drv.bus = .sending ↔ n = 2) ∧
    (s.drv.bus = .pollInterrupt ↔ n = 3) ∧ (s.drv.bus = .pollPacket ↔ n = 4) ∧ (s.drv.bus = .timeout ↔ n = 5)

/-- R133: delay_us(n) lets n ticks pass, in which a cycle in progress progresses, and changes no register itself. -/
def Obligations.DelayLetsTicksPass : Prop :=
  ∀ (s : State) (n : Word), s.Undisturbed →
    exec (.delayUs n) s = .next (State.ticks n.toNat s) ∧ (State.ticks n.toNat s).env.now = s.env.now + n ∧
    ((s.drv.bus = .idle ∨ s.drv.bus = .timeout) →
      exec (.delayUs n) s = .next { s with env := { s.env with now := s.env.now + n } })

/-- R134: guard_delay lets 5 TAU ticks pass. -/
def Obligations.GuardDelayLetsFiveTauPass : Prop :=
  ∀ s : State, s.drv.tauSet = true → s.Undisturbed →
    exec .guardDelay s = .next (State.ticks (5 * s.drv.tau.toNat) s) ∧
    ((s.drv.bus = .idle ∨ s.drv.bus = .timeout) →
      exec .guardDelay s =
        .next { s with env := { s.env with now := s.env.now + BitVec.ofNat 32 (5 * s.drv.tau.toNat) } })

/-- R135: bus_line_idle drives the line to IDLE_LEVEL in Idle or Timeout, and does nothing in a cycle (U3, log 11). -/
def Obligations.BusLineIdleDrivesRest : Prop :=
  ∀ s : State,
    ((s.drv.bus = .idle ∨ s.drv.bus = .timeout) →
      exec .busLineIdle s = .next { s with drv := { s.drv with out := true, dir := .output } }) ∧
    (s.drv.bus ≠ .idle → s.drv.bus ≠ .timeout → exec .busLineIdle s = .next s)

/-- R323: what uses TAU is refused before the first set_tau, and nothing else is. -/
def Obligations.UseOfTauBeforeSetTauIsRefused : Prop :=
  ∀ (i : Instr) (s : State), s.drv.tauSet = false → (exec i s = .refused .tauUnset ↔ usesTau i = true)

/-- R79: when the tick source stops, before a wait or during it, the foreground's spin never ends: for each instruction there is
a number of ticks it takes, no less than `leastTicks` from Idle or Timeout; with fewer still to come it is stuck, with as many
or more it ends as if the source went on. No rst comes to end the hang (log 19). That an instruction runs at all where the spec
asks a model to refuse it (a cycle in progress, a mode that is none: logs 11 and 12; a bad id or a short buffer: log 13) is the
model's choice. -/
def Obligations.StoppedTicksHangTheSpin : Prop :=
  ∀ s : State, s.env.rstIn = none →
    (∀ (n : Nat) (d : Word), n < d.toNat → exec (.delayUs d) (s.setTicksLeft (some n)) = .fault .spinNeverEnds) ∧
    (∀ n : Nat, s.drv.tauSet = true → n < 5 * s.drv.tau.toNat →
      exec .guardDelay (s.setTicksLeft (some n)) = .fault .spinNeverEnds) ∧
    (s.Inv → s.drv.tauSet = true → ∀ i : Instr, ∃ (m : Nat) (t : State),
      (s.drv.bus.ready = true → leastTicks s i ≤ m) ∧
      exec i (s.setTicksLeft none) = .next t ∧ t.env.now = s.env.now + BitVec.ofNat 32 m ∧
      (∀ n, n < m → exec i (s.setTicksLeft (some n)) = .fault .spinNeverEnds) ∧
      (∀ n, m ≤ n → exec i (s.setTicksLeft (some n)) = .next (t.setTicksLeft (some (n - m)))))

/-! ### The Packet Codec -/

/-- R97, R98, R160, R162: encode answers the word whose code is W[16:13] and payload W[12:5] before inversion, whose parity
bits are the parities of {code, payload} under the masks of R97, and which is complemented in its 14 covered bits and
flagged iff more than 7 of them are 1. It changes nothing else. -/
def Obligations.EncodeAnswersTheWireWord : Prop :=
  ∀ (s : State) (code : Code) (payload : Byte), ∃ l w : WireWord,
    exec (.encode code payload) s = .next { s with ans := { s.ans with res0 := w.setWidth 32 } } ∧
    l.extractLsb' 13 4 = code ∧ l.extractLsb' 5 8 = payload ∧ l.getLsbD 0 = false ∧
    l.getLsbD 1 = (popcount ((code ++ payload : BitVec 12) &&& 0x55B#12) % 2 == 1) ∧
    l.getLsbD 2 = (popcount ((code ++ payload : BitVec 12) &&& 0x66D#12) % 2 == 1) ∧
    l.getLsbD 3 = (popcount ((code ++ payload : BitVec 12) &&& 0x78E#12) % 2 == 1) ∧
    l.getLsbD 4 = (popcount ((code ++ payload : BitVec 12) &&& 0x7F0#12) % 2 == 1) ∧
    (popcount (l.extractLsb' 1 14) ≤ 7 → w = l) ∧
    (7 < popcount (l.extractLsb' 1 14) →
      w.getLsbD 0 = true ∧ w.extractLsb' 1 14 = ~~~(l.extractLsb' 1 14) ∧ w.extractLsb' 15 2 = l.extractLsb' 15 2)

/-- R162, R169: every word encode makes has at most 7 covered ones, at most 6 if inverted, at most 9 ones in all (R137), and
passes check_inversion_majority. -/
def Obligations.EncodedWordsAreBalanced : Prop :=
  ∀ (code : Code) (payload : Byte),
    popcount (coveredBits (wireWord code payload)) ≤ 7 ∧
    (invFlag (wireWord code payload) = true → popcount (coveredBits (wireWord code payload)) ≤ 6) ∧
    popcount (wireWord code payload) ≤ 9 ∧
    ∀ s : State, exec (.checkInversionMajority (wireWord code payload)) s =
      .next { s with ans := { s.ans with res0 := 1 } }

/-- R165, R166: decode of fewer than 18 intervals answers RES0 = 1; of 18 or more in a buffer that holds them it answers 0
and {code, payload} of the word whose bit 17 - k is 1 iff I[k] is greater than floor((min + max) / 2) of I[1..16], its
covered bits complemented if the last of its bits is 1. -/
def Obligations.DecodeAnswersCodeAndPayload : Prop :=
  ∀ (s : State) (n : Word) (buf : BufRef),
    (n.toNat < 18 → ∃ t v, exec (.decode n buf) s = .next t ∧
      t = { s with ans := ⟨1, v⟩, env := { s.env with freeCtr := t.env.freeCtr } }) ∧
    (18 ≤ n.toNat → 72 ≤ buf.size.toNat →
      ∃ (lo hi : Nat) (r l : WireWord),
        exec (.decode n buf) s = .next { s with ans := ⟨0, (l.extractLsb' 5 12).setWidth 32⟩ } ∧
        (∀ k, 1 ≤ k → k ≤ 16 → lo ≤ (s.bufInterval buf k).toNat ∧ (s.bufInterval buf k).toNat ≤ hi) ∧
        (∃ k, 1 ≤ k ∧ k ≤ 16 ∧ (s.bufInterval buf k).toNat = lo) ∧
        (∃ k, 1 ≤ k ∧ k ≤ 16 ∧ (s.bufInterval buf k).toNat = hi) ∧
        (∀ k, 1 ≤ k → k ≤ 17 → r.getLsbD (17 - k) = decide ((lo + hi) / 2 < (s.bufInterval buf k).toNat)) ∧
        l = if r.getLsbD 0 then r ^^^ 0x07FFE#17 else r)

/-- The model's choice (log 13; R206, R287 and D26 say that such a call has no meaning): an operation whose buffer is shorter
than what it reads or fills does nothing, and has no defined answer. -/
def Obligations.ShortBuffersDoNothing : Prop :=
  ∀ (s : State) (addr : Addr) (n : Word) (buf : BufRef),
    (s.drv.tauSet = true → buf.size.toNat < n.toNat →
      ∀ i ∈ [Instr.writeAddrSpace addr n buf, .readAddrSpace addr n buf, .readAddrReverse addr n buf],
        ∃ t v, exec i s = .next t ∧
          t = { s with ans := { s.ans with res0 := v }, env := { s.env with freeCtr := t.env.freeCtr } }) ∧
    (buf.size.toNat < n.toNat → exec (.reverseByteOrder n buf) s = .next s) ∧
    (18 ≤ n.toNat → buf.size.toNat < 72 → ∃ t, exec (.decode n buf) s = .next t ∧
      t = { s with ans := t.ans, env := { s.env with freeCtr := t.env.freeCtr } })

/-- R167: check_parity answers 0 iff each of the four groups with its parity bit holds an even number of ones, else 1 + the
lowest failing group; nothing else changes. -/
def Obligations.CheckParityReportsTheLowestGroup : Prop :=
  ∀ (s : State) (l : WireWord), ∃ v : Word,
    exec (.checkParity l) s = .next { s with ans := { s.ans with res0 := v } } ∧
    v = (if oddGroup l (0x55B#12) 0 then 1
      else if oddGroup l (0x66D#12) 1 then 2
      else if oddGroup l (0x78E#12) 2 then 3
      else if oddGroup l (0x7F0#12) 3 then 4
      else 0)

/-- R169: check_inversion_majority is true iff the un-inverted word has more than 7 covered ones exactly when INV is 1. -/
def Obligations.CheckInversionMajorityAnswers : Prop :=
  ∀ (s : State) (r : WireWord), ∃ b : Bool,
    exec (.checkInversionMajority r) s = .next { s with ans := { s.ans with res0 := if b then 1 else 0 } } ∧
    (b = true ↔
      (7 < popcount ((if r.getLsbD 0 then r ^^^ 0x07FFE#17 else r).extractLsb' 1 14) ↔ r.getLsbD 0 = true))

/-- R170 (a), S1: a word made by encode, sent with any start and latency and any unit whose pulses the 32-bit counter can time, is decoded
to its code and payload, and its parity check is Ok. -/
def Obligations.CodecRoundTrip : Prop :=
  ∀ (code : Code) (payload : Byte) (tau latency : Nat) (tStart : Word),
    1 ≤ tau → 3 * tau < 2 ^ 32 → 1 ≤ latency →
    ∃ l, decodedWord (intervalsOf (timelineOf (wireWord code payload) tau tStart latency)) = some l ∧
      l.extractLsb' 13 4 = code ∧ l.extractLsb' 5 8 = payload ∧ failingGroup l = none

/-- R168, with the members of the groups of R161 and R167 (95_test_vectors.md 2.4), S2: flipping any one bit but BCF of an encoded word makes check_parity of the un-inverted word report the lowest
group of that bit, whatever the word; flipping BCF is caught by nothing. -/
def Obligations.SingleFlipsAreReported : Prop :=
  ∀ (code : Code) (payload : Byte) (s : State),
    (∀ k, k < 16 → ∃ g, lowestGroup[k]? = some g ∧
      exec (.checkParity (unInvert (wireWord code payload ^^^ BitVec.twoPow 17 k))) s =
        .next { s with ans := { s.ans with res0 := BitVec.ofNat 32 (1 + g) } }) ∧
    exec (.checkParity (unInvert (wireWord code payload ^^^ BitVec.twoPow 17 16))) s =
      .next { s with ans := { s.ans with res0 := 0 } }

/-! ### The Bus Transport -/

/-- R191: send_only in Idle or Timeout arms the driver with encode's word, returns true, and leaves Idle with DIR output; it
takes one tick, the word's ticks and the guard delay. -/
def Obligations.SendOnlySendsTheWord : Prop :=
  ∀ (s : State) (code : Code) (payload : Byte), s.Ready →
    ∃ t, exec (.sendOnly code payload) s = .next t ∧ SentAlone code payload s t

/-- R99, R100: the words the tables give to send_only are sent by it, each with its code and payload. -/
def Obligations.SendOnlyWireWordsAreSent : Prop :=
  ∀ s : State, s.Ready →
    (∀ b, ∃ t, exec (.writeData b) s = .next t ∧ SentAlone 0x4 b s t) ∧
    (∀ b, ∃ t, exec (.extendedRegAddr b) s = .next t ∧ SentAlone 0x5 b s t) ∧
    (∀ b, ∃ t, exec (.writeRegAddr b) s = .next t ∧ SentAlone 0x6 b s t) ∧
    (∃ t, exec .busReset s = .next t ∧ SentAlone 0x8 0x00 s t) ∧
    (∃ t, exec .discoverStart s = .next t ∧ SentAlone 0x8 0x80 s t) ∧
    (∃ t, exec .enterBranch0 s = .next t ∧ SentAlone 0x8 0x84 s t) ∧
    (∃ t, exec .enterBranch1 s = .next t ∧ SentAlone 0x8 0x85 s t)

/-- R193, R99: send_poll_interrupt, and the two probe words, answer whether the line changed level within TO_INT(TAU) ticks
of the end of the word, and leave DIR input. -/
def Obligations.ProbesAnswerLevelChanges : Prop :=
  ∀ s : State, s.Ready →
    (∀ code payload, ∃ t, exec (.sendPollInterrupt code payload) s = .next t ∧ ProbeSent code payload s t) ∧
    (∃ t, exec .probeBranch0 s = .next t ∧ ProbeSent 0x8 0x86 s t) ∧
    (∃ t, exec .probeBranch1 s = .next t ∧ ProbeSent 0x8 0x87 s t)

/-- R194, R195, R100: send_poll_packet, and ReadRegAddr, answer 0xFF on a timeout, 0xFE on an integrity failure, else the code
and payload of the decoded word. -/
def Obligations.PacketPollsAnswerTheReply : Prop :=
  ∀ s : State, s.Ready →
    (∀ code payload, ∃ t, exec (.sendPollPacket code payload) s = .next t ∧ PacketSent code payload s t) ∧
    (∀ b, ∃ t, exec (.readRegAddr b) s = .next t ∧ PacketSent 0x7 b s t)

/-- R195: the status of a packet poll is a code 0x00..0x0F, 0xFE or 0xFF, and the payload with a sentinel is 0. Where rst lands
inside the poll there is no status, and the answer port holds the 0 the model gives it at reset: that the bounds hold there too is
the model's choice (logs 4 and 23). -/
def Obligations.StatusValuesAreComplete : Prop :=
  ∀ (s t : State) (code : Code) (payload : Byte), exec (.sendPollPacket code payload) s = .next t →
    (t.ans.res0.toNat ≤ 0x0F ∧ t.ans.res1.toNat ≤ 0xFF) ∨ (t.ans.res0 = 0xFE ∧ t.ans.res1 = 0) ∨
      (t.ans.res0 = 0xFF ∧ t.ans.res1 = 0)

/-- R102, R163, R194: a reply in the symbol code, of any unit and latency, that ends within TO_PKT(TAU) ticks of the poll's
start is received: the answer is its code and payload. -/
def Obligations.RepliesAreReceived : Prop :=
  ∀ (s : State) (code c : Code) (payload b : Byte) (unit latency : Nat) (rest : List Level),
    s.Ready → 1 ≤ unit → 1 ≤ latency → replyTicks (wireWord c b) unit latency ≤ pktTicks s →
    s.env.lineIn = replyLevels (wireWord c b) unit latency ++ rest →
    ∃ t, exec (.sendPollPacket code payload) s = .next t ∧ t.ans = ⟨c.setWidth 32, b.setWidth 32⟩ ∧
      t.drv.bus = .idle ∧ t.env.lineIn = rest ∧
      t.drv.timeline.toList = timelineOf (wireWord c b) unit t.drv.timeline[0] latency

/-- R190, R123: an exchange asked for while a cycle is in progress does not disturb it: no word is armed, the answer tells
whether that cycle ended in Idle (log 11). -/
def Obligations.ExchangeInACycleWaitsForIt : Prop :=
  ∀ (s : State) (code : Code) (payload : Byte), s.Live → s.drv.bus.ready = false → s.env.lag = [] →
    ∃ t, exec (.sendOnly code payload) s = .next t ∧ t.env.sent = s.env.sent ∧ t.drv.txsr = s.drv.txsr ∧
      t.drv.mode = s.drv.mode ∧ t.drv.bus.ready = true ∧ t.ans.res0 = boolWord (decide (t.drv.bus = .idle))

/-- R198: write_addr_space sends ERA, WRA and one WD per byte in ascending order, returns n, and stores nothing. -/
def Obligations.WriteAddrSpaceSendsTheBytes : Prop :=
  ∀ (s : State) (addr : Addr) (n : Word) (buf : BufRef), s.Ready → n.toNat ≤ buf.size.toNat →
    ∃ t, exec (.writeAddrSpace addr n buf) s = .next t ∧ t.ans = { s.ans with res0 := n } ∧
      t.env.sent = writeWords addr (s.bufBytes buf n.toNat) ++ s.env.sent ∧
      t.drv.bus = .idle ∧ t.drv.dir = .output ∧ t.mem = s.mem ∧ t.uid = s.uid ∧ t.regmap = s.regmap ∧ t.par = s.par ∧
      t.drv = { s.drv with
        bus := .idle, dir := .output, mode := .sendOnly, txsr := t.drv.txsr, bitix := t.drv.bitix, due := t.drv.due } ∧
      t.scr = { s.scr with addr := t.scr.addr, idx := t.scr.idx } ∧ t.env.lineIn = s.env.lineIn ∧
      t.env.ticksLeft = none ∧ t.env.rstIn = none ∧ t.env.inbox = s.env.inbox

/-- R200, R72, R281: read_addr_space returns a count of at most n, and stores nothing outside the first count bytes of the
buffer; it sends two words a byte, four at most. -/
def Obligations.ReadAddrSpaceCountsAndStores : Prop :=
  ∀ (s : State) (addr : Addr) (n : Word) (buf : BufRef), s.Ready → n.toNat ≤ buf.size.toNat →
    ∃ t, exec (.readAddrSpace addr n buf) s = .next t ∧ t.ans.res1 = s.ans.res1 ∧ t.ans.res0.toNat ≤ n.toNat ∧
      (∀ a, (∀ i, i < t.ans.res0.toNat → a ≠ bufAddr buf i) → t.mem.read a = s.mem.read a) ∧
      s.env.sent.length + 2 * t.ans.res0.toNat ≤ t.env.sent.length ∧
      t.env.sent.length ≤ s.env.sent.length + 4 * n.toNat ∧
      t.drv.bus.ready = true ∧ t.uid = s.uid ∧ t.regmap = s.regmap ∧ t.par = s.par ∧ t.drv.tau = s.drv.tau ∧
      t.drv.tauSet = true ∧ t.drv.out = s.drv.out ∧ t.scr.offset = s.scr.offset ∧ t.scr.attempt = s.scr.attempt ∧
      t.env.ticksLeft = none ∧ t.env.rstIn = none ∧ t.env.inbox = s.env.inbox

/-- R200, R201, R61: a read whose every byte is answered in time by a good word with the end-of-transmission flag, at the first
or at the second asking, each of its own code, unit and latency, stores the bytes in ascending order and returns n; every byte is
asked for with its own address, modulo 2^16. -/
def Obligations.AnsweredReadsFillTheBuffer : Prop :=
  ∀ (s : State) (addr : Addr) (buf : BufRef) (answers : List ByteAnswer) (rest : List Level),
    s.Ready → answers.length ≤ buf.size.toNat → (∀ a ∈ answers, a.reply.Good (pktTicks s)) →
    s.env.lineIn = answers.flatMap (ByteAnswer.levels (pktTicks s)) ++ rest →
    ∃ t, exec (.readAddrSpace addr (BitVec.ofNat 32 answers.length) buf) s = .next t ∧
      ReadEnded addr buf answers [] s t ∧ t.env.lineIn = rest

/-- R201, R202, R200: a byte that is never answered is asked for twice, and the read then ends with the bytes answered before it:
their number is its answer, STATE is Timeout. -/
def Obligations.UnansweredReadIsRetriedOnce : Prop :=
  ∀ (s : State) (addr : Addr) (n : Word) (buf : BufRef) (answers : List ByteAnswer) (rest : List Level),
    s.Ready → answers.length < n.toNat → n.toNat ≤ buf.size.toNat → (∀ a ∈ answers, a.reply.Good (pktTicks s)) →
    s.env.lineIn = answers.flatMap (ByteAnswer.levels (pktTicks s)) ++ (restLevels (2 * pktTicks s) ++ rest) →
    ∃ t, exec (.readAddrSpace addr n buf) s = .next t ∧
      ReadEnded addr buf answers (byteWords addr answers.length true) s t ∧
      t.drv.bus = .timeout ∧ t.scr.retry = 1 ∧ t.scr.status = 0xFF ∧ t.env.lineIn = rest

/-- R201, R285, R195: a word that fails the parity check, or a good one without the end-of-transmission flag, ends the read at once,
not retried, whether it comes at the first or at the second asking of its byte; the answer is the number of the bytes answered
before it. -/
def Obligations.ReplyWithoutFlagEndsTheRead : Prop :=
  ∀ (s : State) (addr : Addr) (n : Word) (buf : BufRef) (answers : List ByteAnswer) (w : WireWord) (unit latency : Nat)
    (late : Bool) (rest : List Level),
    s.Ready → answers.length < n.toNat → n.toNat ≤ buf.size.toNat → (∀ a ∈ answers, a.reply.Good (pktTicks s)) →
    (failingGroup (unInvert w) ≠ none ∨ (unInvert w).getLsbD 13 = false) →
    1 ≤ unit → 1 ≤ latency → replyTicks w unit latency ≤ pktTicks s →
    s.env.lineIn = answers.flatMap (ByteAnswer.levels (pktTicks s)) ++
      (lateLevels (pktTicks s) late ++ (replyLevels w unit latency ++ rest)) →
    ∃ t, exec (.readAddrSpace addr n buf) s = .next t ∧
      ReadEnded addr buf answers (byteWords addr answers.length late) s t ∧
      t.drv.bus = .idle ∧ t.scr.retry = (if late then 1 else 0) ∧ t.env.lineIn = rest ∧
      (failingGroup (unInvert w) ≠ none → w.getLsbD 16 ≠ w.getLsbD 15 → t.scr.status = 0xFE ∧ t.scr.payload = 0)

/-- R204: read_addr_reverse does what read_addr_space does; if that is short it answers -1 and leaves the bytes unreversed,
else it answers size and byte j of the buffer is the byte read for address addr + size - 1 - j. -/
def Obligations.ReadAddrReverseReverses : Prop :=
  ∀ (s : State) (addr : Addr) (n : Word) (buf : BufRef), s.Ready → n.toNat ≤ buf.size.toNat →
    ∃ t u, exec (.readAddrReverse addr n buf) s = .next t ∧ exec (.readAddrSpace addr n buf) s = .next u ∧
      (u.ans.res0 ≠ n → t = { u with ans := { u.ans with res0 := 0xFFFFFFFF } }) ∧
      (u.ans.res0 = n → t = { u with ans := { u.ans with res0 := n }, mem := t.mem } ∧
        (∀ j, j < n.toNat → t.bufByte buf j = u.bufByte buf (n.toNat - 1 - j)) ∧
        (∀ a, (∀ j, j < n.toNat → a ≠ bufAddr buf j) → t.mem.read a = u.mem.read a))

/-- R206, R210, D26: read_registers is read_addr_space of the table's row; an id the table does not have, or a buffer too
short for the row, does nothing and its answer is undefined (log 13). -/
def Obligations.ReadRegistersGoesThroughTheMap : Prop :=
  ∀ (s : State) (id : Word) (buf : BufRef), s.Ready →
    (∀ e : RegEntry, s.regmap[id.toNat]? = some e → e.len ≤ buf.size.toNat →
      ∃ t, exec (.readRegisters id buf) s = .next t ∧
        exec (.readAddrSpace e.addr (BitVec.ofNat 32 e.len) buf) s = .next t ∧ t.ans.res0.toNat ≤ e.len) ∧
    ((∀ e : RegEntry, s.regmap[id.toNat]? = some e → buf.size.toNat < e.len) →
      ∃ t v, exec (.readRegisters id buf) s = .next t ∧
        t = { s with ans := { s.ans with res0 := v }, env := { s.env with freeCtr := t.env.freeCtr } })

/-- R208, R210, D26: write_registers sends the row's address and exactly its length of bytes; bad id or short buffer as in
read_registers. -/
def Obligations.WriteRegistersGoesThroughTheMap : Prop :=
  ∀ (s : State) (id : Word) (buf : BufRef), s.Ready →
    (∀ e : RegEntry, s.regmap[id.toNat]? = some e → e.len ≤ buf.size.toNat →
      ∃ t, exec (.writeRegisters id buf) s = .next t ∧
        exec (.writeAddrSpace e.addr (BitVec.ofNat 32 e.len) buf) s = .next t ∧
        t.ans.res0 = BitVec.ofNat 32 e.len ∧ t.mem = s.mem ∧
        t.env.sent = writeWords e.addr (s.bufBytes buf e.len) ++ s.env.sent) ∧
    ((∀ e : RegEntry, s.regmap[id.toNat]? = some e → buf.size.toNat < e.len) →
      ∃ t v, exec (.writeRegisters id buf) s = .next t ∧
        t = { s with ans := { s.ans with res0 := v }, env := { s.env with freeCtr := t.env.freeCtr } })

/-- R205, S5: reverse_byte_order reverses bytes 0..n-1 in place and leaves every other byte, and twice is nothing, for even
and odd n. -/
def Obligations.ReverseByteOrderIsAnInvolution : Prop :=
  ∀ (s : State) (n : Word) (buf : BufRef), s.mem.wf = true → n.toNat ≤ buf.size.toNat →
    ∃ t, exec (.reverseByteOrder n buf) s = .next t ∧ t = { s with mem := t.mem } ∧
      (∀ j, j < n.toNat → t.bufByte buf j = s.bufByte buf (n.toNat - 1 - j)) ∧
      (∀ a, (∀ j, j < n.toNat → a ≠ bufAddr buf j) → t.mem.read a = s.mem.read a) ∧
      exec (.reverseByteOrder n buf) t = .next s

/-! ### The UID search -/

/-- R231, R235: search_id answers 0 or 1; on 1 all 80 positions were committed; on 0 the last probe timed out. It writes
UID[], and no memory, table or TAU. -/
def Obligations.SearchAnswersTrueOrFalse : Prop :=
  ∀ s : State, s.Ready → ∃ t, exec .searchId s = .next t ∧ t.ans.res1 = s.ans.res1 ∧
    (t.ans.res0 = 1 ∧ t.scr.offset = 80 ∧ t.drv.bus = .idle ∧ t.drv.dir = .output ∨
      t.ans.res0 = 0 ∧ t.scr.offset.toNat < 80 ∧ t.scr.attempt = 3 ∧ t.drv.bus = .timeout ∧ t.drv.dir = .input ∧
        ∀ p, p < 80 - t.scr.offset.toNat → (t.uid.getD (p / 8) 0).getLsbD (p % 8) = false) ∧
    t.mem = s.mem ∧ t.regmap = s.regmap ∧ t.par = s.par ∧ t.drv.tau = s.drv.tau ∧ t.drv.tauSet = true ∧
    t.drv.out = s.drv.out ∧ t.scr = { s.scr with offset := t.scr.offset, attempt := t.scr.attempt } ∧
    t.env.ticksLeft = none ∧ t.env.rstIn = none ∧ t.env.inbox = s.env.inbox

/-- R231 to R234, R236: a single device that follows R65 is found: UID[] holds its identifier, the first bit found at
position 79, and the words sent are DiscoverStart and then the probes and commits of each bit. -/
def Obligations.SearchFindsTheIdentifier : Prop :=
  ∀ (s : State) (bits : List Bool) (latency : Nat) (rest : List Level), s.Ready → bits.length = 80 → 1 ≤ latency →
    latency ≤ intTicks s → s.env.lineIn = obedientLevels (intTicks s) latency bits ++ rest →
    ∃ t, exec .searchId s = .next t ∧ t.ans.res0 = 1 ∧
      (∀ k, k < 80 → (t.uid.getD ((79 - k) / 8) 0).getLsbD ((79 - k) % 8) = bits.getD k false) ∧
      t.env.sent = searchWords bits ++ ((wireWord 0x8 0x80, .sendOnly) :: s.env.sent) ∧ t.env.lineIn = rest

/-- R231, R232, R235, R281: with nobody answering any more after the first k bits, three attempts of two probes are made and the
search answers false; UID[] keeps the bits found, the rest is zero. -/
def Obligations.SearchFailsWithNobody : Prop :=
  ∀ (s : State) (bits : List Bool) (latency : Nat) (rest : List Level), s.Ready → bits.length < 80 → 1 ≤ latency →
    latency ≤ intTicks s →
    s.env.lineIn = obedientLevels (intTicks s) latency bits ++ (restLevels (6 * intTicks s) ++ rest) →
    ∃ t, exec .searchId s = .next t ∧ t.ans.res0 = 0 ∧ t.scr.offset.toNat = bits.length ∧ t.scr.attempt = 3 ∧
      t.drv.bus = .timeout ∧ t.drv.dir = .input ∧ t.env.lineIn = rest ∧
      (∀ k, k < 80 → (t.uid.getD ((79 - k) / 8) 0).getLsbD ((79 - k) % 8) = bits.getD k false) ∧
      (bits = [] → ∀ k (h : k < 10), t.uid[k] = 0) ∧
      t.env.sent = failedProbes ++ (searchWords bits ++ ((wireWord 0x8 0x80, .sendOnly) :: s.env.sent))

/-! ### The whole machine -/

/-- R190, R79: from every state that meets the invariant, with TAU set and ticks arriving, every instruction completes, a cycle
in progress or not, with any operands; only rst can end it otherwise (R326). Where the spec asks a model to refuse (a cycle in
progress, a mode that is none: logs 11 and 12; a bad id or a short buffer: log 13) that it completes is the model's choice. -/
def Obligations.EveryInstructionCompletes : Prop :=
  ∀ (i : Instr) (s : State), s.Inv → s.drv.tauSet = true → s.env.ticksLeft = none →
    ∃ t, exec i s = .next t ∧ t.Inv ∧ t.env.ticksLeft = none ∧ (s.env.rstIn = none → t.Live)

/-- R26, R75: no step of any kind writes REGMAP. -/
def Obligations.RegisterMapIsReadOnly : Prop := ∀ s t : State, step s = .next t → t.regmap = s.regmap ∧ t.par = s.par

/-- R11: TAU is written only by set_tau, no rst coming inside the instruction (R320). -/
def Obligations.OnlySetTauWritesTau : Prop :=
  ∀ (i : Instr) (s t : State), (∀ v, i ≠ .setTau v) → s.env.rstIn = none → exec i s = .next t →
    t.drv.tau = s.drv.tau ∧ t.drv.tauSet = s.drv.tauSet

/-- R25: UID[] is written by search_id only, no rst coming inside the instruction (R320). -/
def Obligations.OnlySearchWritesUid : Prop :=
  ∀ (i : Instr) (s t : State), i ≠ .searchId → s.env.rstIn = none → exec i s = .next t → t.uid = s.uid

/-- R200, R204 to R206: the caller's buffers are written only by the reads and by the byte reversal. -/
def Obligations.OnlyReadsAndReversalWriteBuffers : Prop :=
  ∀ (i : Instr) (s t : State), (∀ a n b, i ≠ .readAddrSpace a n b) → (∀ a n b, i ≠ .readAddrReverse a n b) →
    (∀ d b, i ≠ .readRegisters d b) → (∀ n b, i ≠ .reverseByteOrder n b) → exec i s = .next t → t.mem = s.mem

/-- R29, R133: only what waits lets the counter move: the other instructions leave the counter, the levels still to be sampled
and the waiting events as they are. -/
def Obligations.OnlyWaitsLetTimePass : Prop :=
  ∀ (i : Instr) (s t : State), exec i s = .next t →
    (usesTau i = false ∨ ∃ w m, i = .beginTransfer w m) → (∀ n, i ≠ .delayUs n) →
    t.env.now = s.env.now ∧ t.env.lineIn = s.env.lineIn ∧ t.env.inbox = s.env.inbox

/-! ### rst inside an operation -/

/-- R326, R320: rst asserted while an operation waits ends the operation in the reset registers, after the ticks that have
passed; due later it leaves the operation alone. At which of an operation's moments it lands, that nothing more of the
operation is done, and that all outside the block stays, is the model's choice (log 23); so are that TAU counts as not set
(log 1) and the answer port's 0 (log 4). -/
def Obligations.RstInsideAWaitEndsTheOperation : Prop :=
  ∀ (s : State) (k : Nat), s.env.ticksLeft = none → s.env.rstIn = some k →
    (∀ n : Word, k ≤ n.toNat → ∃ t, exec (.delayUs n) s = .next t ∧ AfterRst (State.ticks k s) t ∧
      t.env = { (State.ticks k s).env with rstIn := none }) ∧
    (∀ n : Word, n.toNat < k →
      exec (.delayUs n) s = .next ((State.ticks n.toNat s).setRstIn (some (k - n.toNat - 1)))) ∧
    (s.Inv → s.drv.tauSet = true → s.drv.bus.ready = true → ∀ code payload,
      (k ≤ sendTicks s.drv.tau (wireWord code payload) + 5 * s.drv.tau.toNat + 3 →
        ∃ t, exec (.sendOnly code payload) s = .next t ∧ AfterRst s t ∧
          t.env.sent = (if k = 0 then [] else [(wireWord code payload, .sendOnly)]) ++ s.env.sent) ∧
      (sendTicks s.drv.tau (wireWord code payload) + 5 * s.drv.tau.toNat + 3 < k →
        ∃ t, exec (.sendOnly code payload) s = .next t ∧ t.ans = { s.ans with res0 := 1 } ∧ t.drv.bus = .idle ∧
          t.env.rstIn = some (k - (sendTicks s.drv.tau (wireWord code payload) + 5 * s.drv.tau.toNat + 4))))

/-- R320, R326: wherever in an instruction rst lands, the block's registers are left at the reset values R320 gives them, REGMAP
and the parameters as they were; until it lands it stays due (log 23). The model's choices besides: TAU counts as not set
(log 1), the answer port holds 0 (log 4). -/
def Obligations.RstLeavesTheTableWhereverItLands : Prop :=
  ∀ (i : Instr) (s t : State), s.env.rstIn ≠ none → exec i s = .next t →
    (t.env.rstIn = none → RegistersReset t ∧ t.regmap = s.regmap ∧ t.par = s.par ∧ t.env.inbox = s.env.inbox) ∧
    ((usesTau i = false ∨ ∃ w m, i = .beginTransfer w m) → (∀ n, i ≠ .delayUs n) → t.env.rstIn = s.env.rstIn)
end

