-- ==== Sys2Proof/Laws/Memory.lean ====
section
/-! SUPPORT. The caller's memory: reads after writes, and the canonical form that every write keeps. -/

namespace Sys2Proof.Machine

theorem Memory.wf_cons {k : Nat} {v : Byte} {m : Memory} :
    Memory.wf ((k, v) :: m) = true ↔ v ≠ Memory.unlisted ∧ (∀ c ∈ m, k < c.1) ∧ Memory.wf m = true := by
  simp [Memory.wf, and_assoc]

theorem Memory.read_of_lt {m : Memory} {a : Nat} (h : ∀ c ∈ m, a < c.1) : m.read a = Memory.unlisted := by
  induction m with
  | nil => rfl
  | cons c rest ih =>
    obtain ⟨k, v⟩ := c
    have hk : a < k := h (k, v) (by simp)
    rw [Memory.read, if_neg (by omega)]
    exact ih fun c hc => h c (by simp [hc])

theorem Memory.read_cons_same {m : Memory} {a : Nat} {b : Byte} (h : ∀ c ∈ m, a < c.1) :
    (Memory.cons a b m).read a = b := by
  unfold Memory.cons
  split
  · next hb => rw [Memory.read_of_lt h, hb]
  · simp [Memory.read]

theorem Memory.read_cons_other {m : Memory} {a x : Nat} {b : Byte} (hx : x ≠ a) :
    (Memory.cons a b m).read x = m.read x := by
  unfold Memory.cons
  split
  · rfl
  · simp [Memory.read, hx.symm]

/-- A read of the byte just written gives it. -/
theorem Memory.read_write_same {m : Memory} (h : m.wf = true) (a : Nat) (b : Byte) : (m.write a b).read a = b := by
  induction m with
  | nil => exact Memory.read_cons_same (by simp)
  | cons c rest ih =>
    obtain ⟨k, v⟩ := c
    obtain ⟨_, hlt, hwf⟩ := Memory.wf_cons.1 h
    unfold Memory.write
    split
    · next hak =>
      refine Memory.read_cons_same fun c hc => ?_
      rcases List.mem_cons.1 hc with rfl | hc
      · exact hak
      · exact lt_trans hak (hlt c hc)
    · split
      · next hak => exact Memory.read_cons_same fun c hc => hak ▸ hlt c hc
      · next h1 h2 => rw [Memory.read, if_neg (fun e => h2 e.symm), ih hwf]

/-- A write leaves every other byte alone. -/
theorem Memory.read_write_other (m : Memory) {a x : Nat} (b : Byte) (hx : x ≠ a) :
    (m.write a b).read x = m.read x := by
  induction m with
  | nil => exact Memory.read_cons_other hx
  | cons c rest ih =>
    obtain ⟨k, v⟩ := c
    unfold Memory.write
    split
    · exact Memory.read_cons_other hx
    · split
      · next _ hak => rw [Memory.read_cons_other hx, Memory.read, if_neg (by omega)]
      · simp [Memory.read, ih]

theorem Memory.mem_write {m : Memory} {a : Nat} {b : Byte} {c : Host.Cell} (hc : c ∈ m.write a b) :
    c.1 = a ∨ c ∈ m := by
  induction m with
  | nil =>
    unfold Memory.write Memory.cons at hc
    split at hc <;> simp_all
  | cons d rest ih =>
    obtain ⟨k, v⟩ := d
    unfold Memory.write Memory.cons at hc
    split at hc
    · split at hc
      · exact .inr hc
      · rcases List.mem_cons.1 hc with rfl | hc
        · exact .inl rfl
        · exact .inr hc
    · split at hc
      · split at hc
        · exact .inr (by simp [hc])
        · rcases List.mem_cons.1 hc with rfl | hc
          · exact .inl rfl
          · exact .inr (by simp [hc])
      · rcases List.mem_cons.1 hc with rfl | hc
        · exact .inr (by simp)
        · exact (ih hc).imp_right fun h => by simp [h]

theorem Memory.cons_wf {m : Memory} {a : Nat} {b : Byte} (h : ∀ c ∈ m, a < c.1) (hm : m.wf = true) :
    (Memory.cons a b m).wf = true := by
  unfold Memory.cons
  split
  · exact hm
  · next hb => exact Memory.wf_cons.2 ⟨hb, h, hm⟩

/-- A write keeps the canonical form. -/
theorem Memory.write_wf {m : Memory} (h : m.wf = true) (a : Nat) (b : Byte) : (m.write a b).wf = true := by
  induction m with
  | nil => exact Memory.cons_wf (by simp) rfl
  | cons c rest ih =>
    obtain ⟨k, v⟩ := c
    obtain ⟨hv, hlt, hwf⟩ := Memory.wf_cons.1 h
    unfold Memory.write
    split
    · next hak =>
      refine Memory.cons_wf (fun c hc => ?_) h
      rcases List.mem_cons.1 hc with rfl | hc
      · exact hak
      · exact lt_trans hak (hlt c hc)
    · split
      · next hak => exact Memory.cons_wf (fun c hc => hak ▸ hlt c hc) hwf
      · next h1 h2 =>
        refine Memory.wf_cons.2 ⟨hv, fun c hc => ?_, ih hwf⟩
        rcases Memory.mem_write hc with hc | hc
        · omega
        · exact hlt c hc

/-- Two canonical memories that read alike are equal. -/
theorem Memory.ext_of_read {m n : Memory} (hm : m.wf = true) (hn : n.wf = true) (h : ∀ a, m.read a = n.read a) :
    m = n := by
  induction m generalizing n with
  | nil =>
    cases n with
    | nil => rfl
    | cons c rest =>
      obtain ⟨hv, _, _⟩ := Memory.wf_cons.1 hn
      have := h c.1
      simp [Memory.read] at this
      exact absurd this.symm hv
  | cons c rest ih =>
    obtain ⟨k, v⟩ := c
    obtain ⟨hv, hlt, hwf⟩ := Memory.wf_cons.1 hm
    cases n with
    | nil =>
      have := h k
      simp [Memory.read] at this
      exact absurd this hv
    | cons d rest' =>
      obtain ⟨k', v'⟩ := d
      obtain ⟨hv', hlt', hwf'⟩ := Memory.wf_cons.1 hn
      have hkk : k = k' := by
        rcases lt_trichotomy k k' with hk | hk | hk
        · have := h k
          rw [Memory.read, if_pos rfl, Memory.read_of_lt fun c hc => by
            rcases List.mem_cons.1 hc with rfl | hc
            · exact hk
            · exact lt_trans hk (hlt' c hc)] at this
          exact absurd this hv
        · exact hk
        · have := h k'
          rw [Memory.read_of_lt (m := (k, v) :: rest) fun c hc => by
            rcases List.mem_cons.1 hc with rfl | hc
            · exact hk
            · exact lt_trans hk (hlt c hc), Memory.read, if_pos rfl] at this
          exact absurd this.symm hv'
      subst hkk
      have hvv : v = v' := by simpa [Memory.read] using h k
      subst hvv
      rw [ih hwf hwf' fun a => ?_]
      by_cases ha : a = k
      · subst ha
        rw [Memory.read_of_lt hlt, Memory.read_of_lt hlt']
      · simpa [Memory.read, Ne.symm ha] using h a

/-- The memory after reset is canonical. -/
theorem Memory.reset_wf : Memory.wf State.reset.mem = true := rfl

end Sys2Proof.Machine
end

