-- ==== Sys2Proof/Laws/State.lean ====
section
/-! SUPPORT. One lemma per part of State per named update, so that no proof unfolds a record update. -/

namespace Sys2Proof.Machine

variable (s : State)

/-! ### State.setTau -/

@[simp] theorem State.setTau_drv (v : Word) : (s.setTau v).drv = { s.drv with tau := effectiveTau s.par v, tauSet := true } := rfl
@[simp] theorem State.setTau_uid (v : Word) : (s.setTau v).uid = s.uid := rfl
@[simp] theorem State.setTau_regmap (v : Word) : (s.setTau v).regmap = s.regmap := rfl
@[simp] theorem State.setTau_par (v : Word) : (s.setTau v).par = s.par := rfl
@[simp] theorem State.setTau_scr (v : Word) : (s.setTau v).scr = s.scr := rfl
@[simp] theorem State.setTau_ans (v : Word) : (s.setTau v).ans = s.ans := rfl
@[simp] theorem State.setTau_env (v : Word) : (s.setTau v).env = s.env := rfl
@[simp] theorem State.setTau_mem (v : Word) : (s.setTau v).mem = s.mem := rfl

/-! ### State.answer0 -/

@[simp] theorem State.answer0_drv (v : Word) : (s.answer0 v).drv = s.drv := rfl
@[simp] theorem State.answer0_uid (v : Word) : (s.answer0 v).uid = s.uid := rfl
@[simp] theorem State.answer0_regmap (v : Word) : (s.answer0 v).regmap = s.regmap := rfl
@[simp] theorem State.answer0_par (v : Word) : (s.answer0 v).par = s.par := rfl
@[simp] theorem State.answer0_scr (v : Word) : (s.answer0 v).scr = s.scr := rfl
@[simp] theorem State.answer0_ans (v : Word) : (s.answer0 v).ans = { s.ans with res0 := v } := rfl
@[simp] theorem State.answer0_env (v : Word) : (s.answer0 v).env = s.env := rfl
@[simp] theorem State.answer0_mem (v : Word) : (s.answer0 v).mem = s.mem := rfl

/-! ### State.answer -/

@[simp] theorem State.answer_drv (v w : Word) : (s.answer v w).drv = s.drv := rfl
@[simp] theorem State.answer_uid (v w : Word) : (s.answer v w).uid = s.uid := rfl
@[simp] theorem State.answer_regmap (v w : Word) : (s.answer v w).regmap = s.regmap := rfl
@[simp] theorem State.answer_par (v w : Word) : (s.answer v w).par = s.par := rfl
@[simp] theorem State.answer_scr (v w : Word) : (s.answer v w).scr = s.scr := rfl
@[simp] theorem State.answer_ans (v w : Word) : (s.answer v w).ans = ⟨v, w⟩ := rfl
@[simp] theorem State.answer_env (v w : Word) : (s.answer v w).env = s.env := rfl
@[simp] theorem State.answer_mem (v w : Word) : (s.answer v w).mem = s.mem := rfl

/-! ### State.drew -/

@[simp] theorem State.drew_drv : (s.drew).drv = s.drv := rfl
@[simp] theorem State.drew_uid : (s.drew).uid = s.uid := rfl
@[simp] theorem State.drew_regmap : (s.drew).regmap = s.regmap := rfl
@[simp] theorem State.drew_par : (s.drew).par = s.par := rfl
@[simp] theorem State.drew_scr : (s.drew).scr = s.scr := rfl
@[simp] theorem State.drew_ans : (s.drew).ans = s.ans := rfl
@[simp] theorem State.drew_env : (s.drew).env = { s.env with freeCtr := s.env.freeCtr + 1 } := rfl
@[simp] theorem State.drew_mem : (s.drew).mem = s.mem := rfl

/-! ### State.undefined0 -/

@[simp] theorem State.undefined0_drv : (s.undefined0).drv = s.drv := rfl
@[simp] theorem State.undefined0_uid : (s.undefined0).uid = s.uid := rfl
@[simp] theorem State.undefined0_regmap : (s.undefined0).regmap = s.regmap := rfl
@[simp] theorem State.undefined0_par : (s.undefined0).par = s.par := rfl
@[simp] theorem State.undefined0_scr : (s.undefined0).scr = s.scr := rfl
@[simp] theorem State.undefined0_ans : (s.undefined0).ans = { s.ans with res0 := Config.freeWord s.env.freeCtr } := rfl
@[simp] theorem State.undefined0_env : (s.undefined0).env = { s.env with freeCtr := s.env.freeCtr + 1 } := rfl
@[simp] theorem State.undefined0_mem : (s.undefined0).mem = s.mem := rfl

/-! ### State.byteInHand -/

@[simp] theorem State.byteInHand_drv (a : Addr) (i : Nat) : (s.byteInHand a i).drv = s.drv := rfl
@[simp] theorem State.byteInHand_uid (a : Addr) (i : Nat) : (s.byteInHand a i).uid = s.uid := rfl
@[simp] theorem State.byteInHand_regmap (a : Addr) (i : Nat) : (s.byteInHand a i).regmap = s.regmap := rfl
@[simp] theorem State.byteInHand_par (a : Addr) (i : Nat) : (s.byteInHand a i).par = s.par := rfl
@[simp] theorem State.byteInHand_scr (a : Addr) (i : Nat) : (s.byteInHand a i).scr = { s.scr with addr := a, idx := BitVec.ofNat 16 i } := rfl
@[simp] theorem State.byteInHand_ans (a : Addr) (i : Nat) : (s.byteInHand a i).ans = s.ans := rfl
@[simp] theorem State.byteInHand_env (a : Addr) (i : Nat) : (s.byteInHand a i).env = s.env := rfl
@[simp] theorem State.byteInHand_mem (a : Addr) (i : Nat) : (s.byteInHand a i).mem = s.mem := rfl

/-! ### State.setRetry -/

@[simp] theorem State.setRetry_drv (n : Nat) : (s.setRetry n).drv = s.drv := rfl
@[simp] theorem State.setRetry_uid (n : Nat) : (s.setRetry n).uid = s.uid := rfl
@[simp] theorem State.setRetry_regmap (n : Nat) : (s.setRetry n).regmap = s.regmap := rfl
@[simp] theorem State.setRetry_par (n : Nat) : (s.setRetry n).par = s.par := rfl
@[simp] theorem State.setRetry_scr (n : Nat) : (s.setRetry n).scr = { s.scr with retry := BitVec.ofNat 8 n } := rfl
@[simp] theorem State.setRetry_ans (n : Nat) : (s.setRetry n).ans = s.ans := rfl
@[simp] theorem State.setRetry_env (n : Nat) : (s.setRetry n).env = s.env := rfl
@[simp] theorem State.setRetry_mem (n : Nat) : (s.setRetry n).mem = s.mem := rfl

/-! ### State.setStatus -/

@[simp] theorem State.setStatus_drv (st p : Byte) : (s.setStatus st p).drv = s.drv := rfl
@[simp] theorem State.setStatus_uid (st p : Byte) : (s.setStatus st p).uid = s.uid := rfl
@[simp] theorem State.setStatus_regmap (st p : Byte) : (s.setStatus st p).regmap = s.regmap := rfl
@[simp] theorem State.setStatus_par (st p : Byte) : (s.setStatus st p).par = s.par := rfl
@[simp] theorem State.setStatus_scr (st p : Byte) : (s.setStatus st p).scr = { s.scr with status := st, payload := p } := rfl
@[simp] theorem State.setStatus_ans (st p : Byte) : (s.setStatus st p).ans = s.ans := rfl
@[simp] theorem State.setStatus_env (st p : Byte) : (s.setStatus st p).env = s.env := rfl
@[simp] theorem State.setStatus_mem (st p : Byte) : (s.setStatus st p).mem = s.mem := rfl

/-! ### State.setOffset -/

@[simp] theorem State.setOffset_drv (n : Nat) : (s.setOffset n).drv = s.drv := rfl
@[simp] theorem State.setOffset_uid (n : Nat) : (s.setOffset n).uid = s.uid := rfl
@[simp] theorem State.setOffset_regmap (n : Nat) : (s.setOffset n).regmap = s.regmap := rfl
@[simp] theorem State.setOffset_par (n : Nat) : (s.setOffset n).par = s.par := rfl
@[simp] theorem State.setOffset_scr (n : Nat) : (s.setOffset n).scr = { s.scr with offset := BitVec.ofNat 7 n } := rfl
@[simp] theorem State.setOffset_ans (n : Nat) : (s.setOffset n).ans = s.ans := rfl
@[simp] theorem State.setOffset_env (n : Nat) : (s.setOffset n).env = s.env := rfl
@[simp] theorem State.setOffset_mem (n : Nat) : (s.setOffset n).mem = s.mem := rfl

/-! ### State.setAttempt -/

@[simp] theorem State.setAttempt_drv (n : Nat) : (s.setAttempt n).drv = s.drv := rfl
@[simp] theorem State.setAttempt_uid (n : Nat) : (s.setAttempt n).uid = s.uid := rfl
@[simp] theorem State.setAttempt_regmap (n : Nat) : (s.setAttempt n).regmap = s.regmap := rfl
@[simp] theorem State.setAttempt_par (n : Nat) : (s.setAttempt n).par = s.par := rfl
@[simp] theorem State.setAttempt_scr (n : Nat) : (s.setAttempt n).scr = { s.scr with attempt := BitVec.ofNat 2 n } := rfl
@[simp] theorem State.setAttempt_ans (n : Nat) : (s.setAttempt n).ans = s.ans := rfl
@[simp] theorem State.setAttempt_env (n : Nat) : (s.setAttempt n).env = s.env := rfl
@[simp] theorem State.setAttempt_mem (n : Nat) : (s.setAttempt n).mem = s.mem := rfl

/-! ### State.clearUid -/

@[simp] theorem State.clearUid_drv : (s.clearUid).drv = s.drv := rfl
@[simp] theorem State.clearUid_uid : (s.clearUid).uid = Vector.replicate 10 0 := rfl
@[simp] theorem State.clearUid_regmap : (s.clearUid).regmap = s.regmap := rfl
@[simp] theorem State.clearUid_par : (s.clearUid).par = s.par := rfl
@[simp] theorem State.clearUid_scr : (s.clearUid).scr = s.scr := rfl
@[simp] theorem State.clearUid_ans : (s.clearUid).ans = s.ans := rfl
@[simp] theorem State.clearUid_env : (s.clearUid).env = s.env := rfl
@[simp] theorem State.clearUid_mem : (s.clearUid).mem = s.mem := rfl

/-! ### State.setUidBit -/

@[simp] theorem State.setUidBit_drv (p : Nat) (b : Bool) : (s.setUidBit p b).drv = s.drv := rfl
@[simp] theorem State.setUidBit_uid (p : Nat) (b : Bool) : (s.setUidBit p b).uid = s.uid.setIfInBounds (p / 8) (setByteBit (s.uid.getD (p / 8) 0) (p % 8) b) := rfl
@[simp] theorem State.setUidBit_regmap (p : Nat) (b : Bool) : (s.setUidBit p b).regmap = s.regmap := rfl
@[simp] theorem State.setUidBit_par (p : Nat) (b : Bool) : (s.setUidBit p b).par = s.par := rfl
@[simp] theorem State.setUidBit_scr (p : Nat) (b : Bool) : (s.setUidBit p b).scr = s.scr := rfl
@[simp] theorem State.setUidBit_ans (p : Nat) (b : Bool) : (s.setUidBit p b).ans = s.ans := rfl
@[simp] theorem State.setUidBit_env (p : Nat) (b : Bool) : (s.setUidBit p b).env = s.env := rfl
@[simp] theorem State.setUidBit_mem (p : Nat) (b : Bool) : (s.setUidBit p b).mem = s.mem := rfl

/-! ### State.bufStore -/

@[simp] theorem State.bufStore_drv (buf : BufRef) (i : Nat) (b : Byte) : (s.bufStore buf i b).drv = s.drv := rfl
@[simp] theorem State.bufStore_uid (buf : BufRef) (i : Nat) (b : Byte) : (s.bufStore buf i b).uid = s.uid := rfl
@[simp] theorem State.bufStore_regmap (buf : BufRef) (i : Nat) (b : Byte) : (s.bufStore buf i b).regmap = s.regmap := rfl
@[simp] theorem State.bufStore_par (buf : BufRef) (i : Nat) (b : Byte) : (s.bufStore buf i b).par = s.par := rfl
@[simp] theorem State.bufStore_scr (buf : BufRef) (i : Nat) (b : Byte) : (s.bufStore buf i b).scr = s.scr := rfl
@[simp] theorem State.bufStore_ans (buf : BufRef) (i : Nat) (b : Byte) : (s.bufStore buf i b).ans = s.ans := rfl
@[simp] theorem State.bufStore_env (buf : BufRef) (i : Nat) (b : Byte) : (s.bufStore buf i b).env = s.env := rfl
@[simp] theorem State.bufStore_mem (buf : BufRef) (i : Nat) (b : Byte) : (s.bufStore buf i b).mem = s.mem.write (bufAddr buf i) b := rfl

/-! ### State.applyReset -/

@[simp] theorem State.applyReset_drv : (s.applyReset).drv = Driver.reset := rfl
@[simp] theorem State.applyReset_uid : (s.applyReset).uid = Vector.replicate 10 0 := rfl
@[simp] theorem State.applyReset_regmap : (s.applyReset).regmap = s.regmap := rfl
@[simp] theorem State.applyReset_par : (s.applyReset).par = s.par := rfl
@[simp] theorem State.applyReset_scr : (s.applyReset).scr = Scratch.reset := rfl
@[simp] theorem State.applyReset_ans : (s.applyReset).ans = Answer.reset := rfl
@[simp] theorem State.applyReset_env : (s.applyReset).env = s.env := rfl
@[simp] theorem State.applyReset_mem : (s.applyReset).mem = s.mem := rfl

/-! ### State.setInbox -/

@[simp] theorem State.setInbox_drv (l : List Input) : (s.setInbox l).drv = s.drv := rfl
@[simp] theorem State.setInbox_uid (l : List Input) : (s.setInbox l).uid = s.uid := rfl
@[simp] theorem State.setInbox_regmap (l : List Input) : (s.setInbox l).regmap = s.regmap := rfl
@[simp] theorem State.setInbox_par (l : List Input) : (s.setInbox l).par = s.par := rfl
@[simp] theorem State.setInbox_scr (l : List Input) : (s.setInbox l).scr = s.scr := rfl
@[simp] theorem State.setInbox_ans (l : List Input) : (s.setInbox l).ans = s.ans := rfl
@[simp] theorem State.setInbox_env (l : List Input) : (s.setInbox l).env = { s.env with inbox := l } := rfl
@[simp] theorem State.setInbox_mem (l : List Input) : (s.setInbox l).mem = s.mem := rfl

/-! ### State.setTicksLeft -/

@[simp] theorem State.setTicksLeft_drv (left : Option Nat) : (s.setTicksLeft left).drv = s.drv := rfl
@[simp] theorem State.setTicksLeft_uid (left : Option Nat) : (s.setTicksLeft left).uid = s.uid := rfl
@[simp] theorem State.setTicksLeft_regmap (left : Option Nat) : (s.setTicksLeft left).regmap = s.regmap := rfl
@[simp] theorem State.setTicksLeft_par (left : Option Nat) : (s.setTicksLeft left).par = s.par := rfl
@[simp] theorem State.setTicksLeft_scr (left : Option Nat) : (s.setTicksLeft left).scr = s.scr := rfl
@[simp] theorem State.setTicksLeft_ans (left : Option Nat) : (s.setTicksLeft left).ans = s.ans := rfl
@[simp] theorem State.setTicksLeft_env (left : Option Nat) : (s.setTicksLeft left).env = { s.env with ticksLeft := left } := rfl
@[simp] theorem State.setTicksLeft_mem (left : Option Nat) : (s.setTicksLeft left).mem = s.mem := rfl
@[simp] theorem State.setTicksLeft_setTicksLeft (l l' : Option Nat) : (s.setTicksLeft l).setTicksLeft l' = s.setTicksLeft l' := rfl
theorem State.setTicksLeft_self {s : State} {l : Option Nat} (h : s.env.ticksLeft = l) : s.setTicksLeft l = s := by subst h; rfl

/-! ### State.setRstIn -/

@[simp] theorem State.setRstIn_drv (moments : Option Nat) : (s.setRstIn moments).drv = s.drv := rfl
@[simp] theorem State.setRstIn_uid (moments : Option Nat) : (s.setRstIn moments).uid = s.uid := rfl
@[simp] theorem State.setRstIn_regmap (moments : Option Nat) : (s.setRstIn moments).regmap = s.regmap := rfl
@[simp] theorem State.setRstIn_par (moments : Option Nat) : (s.setRstIn moments).par = s.par := rfl
@[simp] theorem State.setRstIn_scr (moments : Option Nat) : (s.setRstIn moments).scr = s.scr := rfl
@[simp] theorem State.setRstIn_ans (moments : Option Nat) : (s.setRstIn moments).ans = s.ans := rfl
@[simp] theorem State.setRstIn_env (moments : Option Nat) : (s.setRstIn moments).env = { s.env with rstIn := moments } := rfl
@[simp] theorem State.setRstIn_mem (moments : Option Nat) : (s.setRstIn moments).mem = s.mem := rfl

/-! ### State.rstLands -/

@[simp] theorem State.rstLands_drv : (s.rstLands).drv = Driver.reset := rfl
@[simp] theorem State.rstLands_uid : (s.rstLands).uid = Vector.replicate 10 0 := rfl
@[simp] theorem State.rstLands_regmap : (s.rstLands).regmap = s.regmap := rfl
@[simp] theorem State.rstLands_par : (s.rstLands).par = s.par := rfl
@[simp] theorem State.rstLands_scr : (s.rstLands).scr = Scratch.reset := rfl
@[simp] theorem State.rstLands_ans : (s.rstLands).ans = Answer.reset := rfl
@[simp] theorem State.rstLands_env : (s.rstLands).env = { s.env with rstIn := none } := rfl
@[simp] theorem State.rstLands_mem : (s.rstLands).mem = s.mem := rfl

/-! ### State.stampsRead -/

@[simp] theorem State.stampsRead_drv : (s.stampsRead).drv = s.drv := by unfold State.stampsRead; split <;> rfl
@[simp] theorem State.stampsRead_uid : (s.stampsRead).uid = s.uid := by unfold State.stampsRead; split <;> rfl
@[simp] theorem State.stampsRead_regmap : (s.stampsRead).regmap = s.regmap := by unfold State.stampsRead; split <;> rfl
@[simp] theorem State.stampsRead_par : (s.stampsRead).par = s.par := by unfold State.stampsRead; split <;> rfl
@[simp] theorem State.stampsRead_scr : (s.stampsRead).scr = s.scr := by unfold State.stampsRead; split <;> rfl
@[simp] theorem State.stampsRead_ans : (s.stampsRead).ans = s.ans := by unfold State.stampsRead; split <;> rfl
@[simp] theorem State.stampsRead_mem : (s.stampsRead).mem = s.mem := by unfold State.stampsRead; split <;> rfl
@[simp] theorem State.stampsRead_now : (s.stampsRead).env.now = s.env.now := by unfold State.stampsRead; split <;> rfl
@[simp] theorem State.stampsRead_ticksLeft : (s.stampsRead).env.ticksLeft = s.env.ticksLeft := by unfold State.stampsRead; split <;> rfl
@[simp] theorem State.stampsRead_rstIn : (s.stampsRead).env.rstIn = s.env.rstIn := by unfold State.stampsRead; split <;> rfl
@[simp] theorem State.stampsRead_lineIn : (s.stampsRead).env.lineIn = s.env.lineIn := by unfold State.stampsRead; split <;> rfl
@[simp] theorem State.stampsRead_lag : (s.stampsRead).env.lag = s.env.lag := by unfold State.stampsRead; split <;> rfl
@[simp] theorem State.stampsRead_inbox : (s.stampsRead).env.inbox = s.env.inbox := by unfold State.stampsRead; split <;> rfl
@[simp] theorem State.stampsRead_sent : (s.stampsRead).env.sent = s.env.sent := by unfold State.stampsRead; split <;> rfl

/-! ### State.beginTransfer and State.lineIdle: what they leave alone in every state -/

@[simp] theorem State.beginTransfer_uid (w : Word) (m : Mode) : (s.beginTransfer w m).uid = s.uid := by unfold State.beginTransfer; split <;> rfl
@[simp] theorem State.beginTransfer_regmap (w : Word) (m : Mode) : (s.beginTransfer w m).regmap = s.regmap := by unfold State.beginTransfer; split <;> rfl
@[simp] theorem State.beginTransfer_par (w : Word) (m : Mode) : (s.beginTransfer w m).par = s.par := by unfold State.beginTransfer; split <;> rfl
@[simp] theorem State.beginTransfer_scr (w : Word) (m : Mode) : (s.beginTransfer w m).scr = s.scr := by unfold State.beginTransfer; split <;> rfl
@[simp] theorem State.beginTransfer_ans (w : Word) (m : Mode) : (s.beginTransfer w m).ans = s.ans := by unfold State.beginTransfer; split <;> rfl
@[simp] theorem State.beginTransfer_mem (w : Word) (m : Mode) : (s.beginTransfer w m).mem = s.mem := by unfold State.beginTransfer; split <;> rfl
@[simp] theorem State.beginTransfer_now (w : Word) (m : Mode) : (s.beginTransfer w m).env.now = s.env.now := by unfold State.beginTransfer; split <;> rfl
@[simp] theorem State.beginTransfer_ticksLeft (w : Word) (m : Mode) : (s.beginTransfer w m).env.ticksLeft = s.env.ticksLeft := by unfold State.beginTransfer; split <;> rfl
@[simp] theorem State.beginTransfer_rstIn (w : Word) (m : Mode) : (s.beginTransfer w m).env.rstIn = s.env.rstIn := by unfold State.beginTransfer; split <;> rfl
@[simp] theorem State.beginTransfer_lineIn (w : Word) (m : Mode) : (s.beginTransfer w m).env.lineIn = s.env.lineIn := by unfold State.beginTransfer; split <;> rfl
@[simp] theorem State.beginTransfer_lag (w : Word) (m : Mode) : (s.beginTransfer w m).env.lag = s.env.lag := by unfold State.beginTransfer; split <;> rfl
@[simp] theorem State.beginTransfer_inbox (w : Word) (m : Mode) : (s.beginTransfer w m).env.inbox = s.env.inbox := by unfold State.beginTransfer; split <;> rfl
@[simp] theorem State.beginTransfer_freeCtr (w : Word) (m : Mode) : (s.beginTransfer w m).env.freeCtr = s.env.freeCtr := by unfold State.beginTransfer; split <;> rfl
@[simp] theorem State.beginTransfer_tau (w : Word) (m : Mode) : (s.beginTransfer w m).drv.tau = s.drv.tau := by unfold State.beginTransfer; split <;> rfl
@[simp] theorem State.beginTransfer_tauSet (w : Word) (m : Mode) : (s.beginTransfer w m).drv.tauSet = s.drv.tauSet := by unfold State.beginTransfer; split <;> rfl
@[simp] theorem State.beginTransfer_out (w : Word) (m : Mode) : (s.beginTransfer w m).drv.out = s.drv.out := by unfold State.beginTransfer; split <;> rfl

@[simp] theorem State.lineIdle_uid : (s.lineIdle).uid = s.uid := by unfold State.lineIdle; split <;> rfl
@[simp] theorem State.lineIdle_regmap : (s.lineIdle).regmap = s.regmap := by unfold State.lineIdle; split <;> rfl
@[simp] theorem State.lineIdle_par : (s.lineIdle).par = s.par := by unfold State.lineIdle; split <;> rfl
@[simp] theorem State.lineIdle_scr : (s.lineIdle).scr = s.scr := by unfold State.lineIdle; split <;> rfl
@[simp] theorem State.lineIdle_ans : (s.lineIdle).ans = s.ans := by unfold State.lineIdle; split <;> rfl
@[simp] theorem State.lineIdle_env : (s.lineIdle).env = s.env := by unfold State.lineIdle; split <;> rfl
@[simp] theorem State.lineIdle_mem : (s.lineIdle).mem = s.mem := by unfold State.lineIdle; split <;> rfl

end Sys2Proof.Machine
end

