-- ==== Sys2Proof/Laws/Buffer.lean ====
section
/-! SUPPORT. Buffers: two bytes of one buffer lie apart, what storing a run of bytes writes and what it leaves. -/

namespace Sys2Proof.Machine

/-- Two bytes of one buffer lie at different addresses (log 14). -/
theorem bufAddr_inj {buf : BufRef} {i j : Nat} (hi : i < 2 ^ 32) (hj : j < 2 ^ 32) (h : bufAddr buf i = bufAddr buf j) :
    i = j := by
  unfold bufAddr at h
  have hb := buf.base.isLt
  simp only [BitVec.toNat_add, BitVec.toNat_ofNat] at h
  omega

/-- A stored byte reads back. -/
theorem State.bufByte_bufStore {s : State} (h : s.mem.wf = true) (buf : BufRef) (i : Nat) (b : Byte) :
    (s.bufStore buf i b).bufByte buf i = b := Memory.read_write_same h _ b

/-- Storing a run of bytes leaves every byte outside it. -/
theorem State.read_bufStoreAll_other {s : State} {buf : BufRef} {i : Nat} {l : List Byte} {a : Nat}
    (h : ∀ k, i ≤ k → k < i + l.length → a ≠ bufAddr buf k) : (s.bufStoreAll buf i l).mem.read a = s.mem.read a := by
  induction l generalizing i s with
  | nil => rfl
  | cons b rest ih =>
    rw [State.bufStoreAll, ih fun k h1 h2 => h k (by omega) (by simp only [List.length_cons]; omega)]
    exact Memory.read_write_other _ _ (h i (by omega) (by simp))

/-- A run of stored bytes reads back. -/
theorem State.bufByte_bufStoreAll {s : State} {buf : BufRef} {i j : Nat} {l : List Byte} (hw : s.mem.wf = true)
    (hl : i + l.length ≤ 2 ^ 32) (hj : j < l.length) : (s.bufStoreAll buf i l).bufByte buf (i + j) = l[j] := by
  induction l generalizing i j s with
  | nil => simp at hj
  | cons b rest ih =>
    rw [List.length_cons] at hl hj
    rw [State.bufStoreAll]
    cases j with
    | zero =>
      rw [Nat.add_zero]
      have h : ((s.bufStore buf i b).bufStoreAll buf (i + 1) rest).mem.read (bufAddr buf i) =
          (s.bufStore buf i b).mem.read (bufAddr buf i) :=
        State.read_bufStoreAll_other fun k h1 h2 e => by
          have := bufAddr_inj (by omega) (by omega) e
          omega
      exact h.trans (State.bufByte_bufStore hw buf i b)
    | succ j =>
      have := ih (s := s.bufStore buf i b) (i := i + 1) (j := j) (Memory.write_wf hw _ b) (by omega) (by omega)
      rw [show i + (j + 1) = i + 1 + j by omega, this]
      rfl

/-- Storing a run of bytes changes the memory alone. -/
theorem State.bufStoreAll_frame (s : State) (buf : BufRef) (i : Nat) (l : List Byte) :
    s.bufStoreAll buf i l = { s with mem := (s.bufStoreAll buf i l).mem } := by
  induction l generalizing i s with
  | nil => rfl
  | cons b rest ih => exact ih (s.bufStore buf i b) (i + 1)

/-- Storing a run of bytes keeps the canonical form. -/
theorem State.bufStoreAll_wf {s : State} (h : s.mem.wf = true) (buf : BufRef) (i : Nat) (l : List Byte) :
    (s.bufStoreAll buf i l).mem.wf = true := by
  induction l generalizing i s with
  | nil => exact h
  | cons b rest ih => exact ih (Memory.write_wf h _ b) (i + 1)

end Sys2Proof.Machine
end

