-- ==== Sys2Proof/Laws/Ops.lean ====
section
/-! SUPPORT. What the shared operations can do: one tick, many ticks, waiting, a delay, a pause, begin_transfer, one exchange. -/

namespace Sys2Proof.Machine

/-! ### The tick agent writes none of the foreground's registers (R8) -/

section DriverTick
variable (par : Params) (t : Word) (l : Level) (d : Driver)

theorem Driver.endOfSend_keeps :
    (d.endOfSend t).tau = d.tau ∧ (d.endOfSend t).tauSet = d.tauSet ∧ (d.endOfSend t).mode = d.mode ∧
      (d.endOfSend t).txsr = d.txsr := by
  unfold Driver.endOfSend
  split <;> simp [Driver.startPoll, Driver.pinDir]

theorem Driver.capture_keeps :
    (d.capture t l).tau = d.tau ∧ (d.capture t l).tauSet = d.tauSet ∧ (d.capture t l).mode = d.mode ∧
      (d.capture t l).txsr = d.txsr ∧ (d.capture t l).out = d.out ∧ (d.capture t l).dir = d.dir ∧
      (d.capture t l).bitix = d.bitix ∧ (d.capture t l).due = d.due := by
  by_cases h : d.pinRead l = d.last <;> simp [Driver.capture, h]

theorem Driver.deadline_cases : d.deadline par t = d ∨ d.deadline par t = { d with bus := .timeout } := by
  unfold Driver.deadline
  split <;> simp

theorem Driver.tickPoll_keeps :
    (d.tickPoll par t l).tau = d.tau ∧ (d.tickPoll par t l).tauSet = d.tauSet ∧
      (d.tickPoll par t l).mode = d.mode ∧ (d.tickPoll par t l).txsr = d.txsr ∧
      (d.tickPoll par t l).out = d.out ∧ (d.tickPoll par t l).dir = d.dir ∧
      (d.tickPoll par t l).bitix = d.bitix ∧ (d.tickPoll par t l).due = d.due := by
  have h := Driver.capture_keeps t l d
  rcases Driver.deadline_cases par t (d.capture t l) with e | e <;> simpa [Driver.tickPoll, e] using h

theorem Driver.tick_keeps :
    (d.tick par t l).tau = d.tau ∧ (d.tick par t l).tauSet = d.tauSet ∧ (d.tick par t l).mode = d.mode ∧
      (d.tick par t l).txsr = d.txsr := by
  unfold Driver.tick
  split
  · simp
  · simp
  · simp [Driver.tickBegin, Driver.startPulse, Driver.pinToggle]
  · unfold Driver.tickSending
    split
    · split
      · simpa [Driver.pinToggle] using Driver.endOfSend_keeps t d.pinToggle
      · simp [Driver.startPulse, Driver.pinToggle]
    · simp
  · have := Driver.tickPoll_keeps par t l d; simp [this]
  · have := Driver.tickPoll_keeps par t l d; simp [this]

@[simp] theorem Driver.tick_tau : (d.tick par t l).tau = d.tau := (Driver.tick_keeps par t l d).1
@[simp] theorem Driver.tick_tauSet : (d.tick par t l).tauSet = d.tauSet := (Driver.tick_keeps par t l d).2.1
@[simp] theorem Driver.tick_mode : (d.tick par t l).mode = d.mode := (Driver.tick_keeps par t l d).2.2.1
@[simp] theorem Driver.tick_txsr : (d.tick par t l).txsr = d.txsr := (Driver.tick_keeps par t l d).2.2.2

end DriverTick

/-! ### One tick -/

section Tick
variable (s : State)

@[simp] theorem Env.sampled_ticksLeft (e : Env) : e.sampled.ticksLeft = e.ticksLeft := by unfold Env.sampled; split <;> rfl
@[simp] theorem Env.sampled_rstIn (e : Env) : e.sampled.rstIn = e.rstIn := by unfold Env.sampled; split <;> rfl
@[simp] theorem Env.sampled_lag (e : Env) : e.sampled.lag = e.lag := by unfold Env.sampled; split <;> rfl
@[simp] theorem Env.sampled_inbox (e : Env) : e.sampled.inbox = e.inbox := by unfold Env.sampled; split <;> rfl
@[simp] theorem Env.sampled_sent (e : Env) : e.sampled.sent = e.sent := by unfold Env.sampled; split <;> rfl
@[simp] theorem Env.sampled_now (e : Env) : e.sampled.now = e.now := by unfold Env.sampled; split <;> rfl

@[simp] theorem State.tick_uid : s.tick.uid = s.uid := by unfold State.tick; split <;> rfl
@[simp] theorem State.tick_regmap : s.tick.regmap = s.regmap := by unfold State.tick; split <;> rfl
@[simp] theorem State.tick_par : s.tick.par = s.par := by unfold State.tick; split <;> rfl
@[simp] theorem State.tick_scr : s.tick.scr = s.scr := by unfold State.tick; split <;> rfl
@[simp] theorem State.tick_ans : s.tick.ans = s.ans := by unfold State.tick; split <;> rfl
@[simp] theorem State.tick_mem : s.tick.mem = s.mem := by unfold State.tick; split <;> rfl
@[simp] theorem State.tick_ticksLeft : s.tick.env.ticksLeft = s.env.ticksLeft.map (· - 1) := by
  unfold State.tick
  split
  · next h => rw [h]; rfl
  · rfl
@[simp] theorem State.tick_rstIn : s.tick.env.rstIn = s.env.rstIn := by
  unfold State.tick; split <;> simp; split <;> simp
@[simp] theorem State.tick_lag : s.tick.env.lag = s.env.lag := by
  unfold State.tick; split <;> simp; split <;> simp
@[simp] theorem State.tick_inbox : s.tick.env.inbox = s.env.inbox := by
  unfold State.tick; split <;> simp; split <;> simp
@[simp] theorem State.tick_sent : s.tick.env.sent = s.env.sent := by
  unfold State.tick; split <;> simp; split <;> simp
@[simp] theorem State.tick_tau : s.tick.drv.tau = s.drv.tau := by unfold State.tick; split <;> simp
@[simp] theorem State.tick_tauSet : s.tick.drv.tauSet = s.drv.tauSet := by unfold State.tick; split <;> simp
@[simp] theorem State.tick_mode : s.tick.drv.mode = s.drv.mode := by unfold State.tick; split <;> simp
@[simp] theorem State.tick_txsr : s.tick.drv.txsr = s.drv.txsr := by unfold State.tick; split <;> simp

variable {s}

theorem State.tick_drv (h : s.env.ticksLeft ≠ some 0) :
    s.tick.drv = s.drv.tick s.par (s.env.now + 1) s.env.lineLevel := by rw [State.tick, if_neg h]

theorem State.tick_now (h : s.env.ticksLeft ≠ some 0) : s.tick.env.now = s.env.now + 1 := by rw [State.tick, if_neg h]

/-- With the tick source stopped a tick changes nothing (R79). -/
theorem State.tick_stopped (h : s.env.ticksLeft = some 0) : s.tick = s := by rw [State.tick, if_pos h]

/-- With no cycle in progress a tick moves the counter alone (R131). -/
theorem State.tick_ready (h : s.env.ticksLeft ≠ some 0) (hr : s.drv.bus.ready = true) :
    s.tick = { s with env := { s.env with now := s.env.now + 1, ticksLeft := s.env.ticksLeft.map (· - 1) } } := by
  have hp : s.drv.bus.polling = false := by cases hb : s.drv.bus <;> simp_all [BusState.ready, BusState.polling]
  have hd : s.drv.tick s.par (s.env.now + 1) s.env.lineLevel = s.drv := by
    unfold Driver.tick
    cases hb : s.drv.bus <;> simp_all [BusState.ready]
  rw [State.tick, if_neg h]
  simp only [hp, hd]
  rfl

/-- A tick source that does not stop has not stopped. -/
theorem running {s : State} (h : s.env.ticksLeft = none) : s.env.ticksLeft ≠ some 0 := by rw [h]; simp

/-- A tick of a source that does not stop (R125, R129). -/
theorem State.tick_running {s : State} (h : s.env.ticksLeft = none) :
    s.tick = { s with
      drv := s.drv.tick s.par (s.env.now + 1) s.env.lineLevel
      env := { (if s.drv.bus.polling then s.env.sampled else s.env) with now := s.env.now + 1 } } := by
  have e : (if s.drv.bus.polling then s.env.sampled else s.env).ticksLeft = s.env.ticksLeft := by split <;> simp
  unfold State.tick
  rw [if_neg (running h)]
  simp only [h, Option.map_none]
  rw [h] at e
  generalize (if s.drv.bus.polling then s.env.sampled else s.env) = v at e
  cases v
  simp only at e
  rw [e]

/-- rst to come changes no tick. -/
theorem State.tick_setRstIn (s : State) (r : Option Nat) : (s.setRstIn r).tick = s.tick.setRstIn r := by
  by_cases h : s.env.ticksLeft = some 0
  · rw [State.tick_stopped h, State.tick_stopped (by exact h)]
  · have hl : (s.setRstIn r).env.lineLevel = s.env.lineLevel := by unfold Env.lineLevel; rfl
    have hs : (s.setRstIn r).env.sampled = { s.env.sampled with rstIn := r } := by
      unfold Env.sampled
      cases hli : s.env.lineIn <;> simp [hli]
    unfold State.tick
    rw [if_neg h, if_neg (by exact h), hl, hs]
    cases hp : s.drv.bus.polling <;> simp [State.setRstIn, hp]

/-- A tick of a source that will stop, but not yet. -/
theorem State.tick_left {s : State} {n : Nat} (h : s.env.ticksLeft = some (n + 1)) :
    s.tick = (s.setTicksLeft none).tick.setTicksLeft (some n) := by
  have hl : (s.setTicksLeft none).env.lineLevel = s.env.lineLevel := by unfold Env.lineLevel; rfl
  rw [State.tick_running (s := s.setTicksLeft none) rfl, hl]
  unfold State.tick
  rw [if_neg (by rw [h]; simp), h]
  cases hp : s.drv.bus.polling
  · simp [State.setTicksLeft, hp]
  · cases hli : s.env.lineIn <;> simp [State.setTicksLeft, hp, Env.sampled, hli]

end Tick

/-! ### Many ticks -/

section Ticks
variable (n : Nat) (s : State)

@[simp] theorem State.ticks_zero : State.ticks 0 s = s := rfl
@[simp] theorem State.ticks_succ : State.ticks (n + 1) s = State.ticks n s.tick := rfl

/-- A relation of every tick's state to its predecessor that composes holds across many ticks. -/
theorem State.ticks_induct {P : State → Prop} (h0 : P s) (hs : ∀ u, P u → P u.tick) : P (State.ticks n s) := by
  induction n generalizing s with
  | zero => exact h0
  | succ n ih => exact ih s.tick (hs s h0)

theorem State.ticks_add (m : Nat) : State.ticks (n + m) s = State.ticks m (State.ticks n s) := by
  induction n generalizing s with
  | zero => simp
  | succ n ih => rw [Nat.succ_add, State.ticks_succ, ih, State.ticks_succ]

@[simp] theorem State.ticks_uid : (State.ticks n s).uid = s.uid :=
  State.ticks_induct n s (P := fun u => u.uid = s.uid) rfl fun u h => by simp [h]
@[simp] theorem State.ticks_regmap : (State.ticks n s).regmap = s.regmap :=
  State.ticks_induct n s (P := fun u => u.regmap = s.regmap) rfl fun u h => by simp [h]
@[simp] theorem State.ticks_par : (State.ticks n s).par = s.par :=
  State.ticks_induct n s (P := fun u => u.par = s.par) rfl fun u h => by simp [h]
@[simp] theorem State.ticks_scr : (State.ticks n s).scr = s.scr :=
  State.ticks_induct n s (P := fun u => u.scr = s.scr) rfl fun u h => by simp [h]
@[simp] theorem State.ticks_ans : (State.ticks n s).ans = s.ans :=
  State.ticks_induct n s (P := fun u => u.ans = s.ans) rfl fun u h => by simp [h]
@[simp] theorem State.ticks_mem : (State.ticks n s).mem = s.mem :=
  State.ticks_induct n s (P := fun u => u.mem = s.mem) rfl fun u h => by simp [h]
@[simp] theorem State.ticks_ticksLeft : (State.ticks n s).env.ticksLeft = s.env.ticksLeft.map (· - n) := by
  induction n generalizing s with
  | zero => cases h : s.env.ticksLeft <;> simp [h]
  | succ n ih =>
    rw [State.ticks_succ, ih, State.tick_ticksLeft]
    cases s.env.ticksLeft
    · rfl
    · simp only [Option.map_some, Option.some.injEq]; omega
@[simp] theorem State.ticks_rstIn : (State.ticks n s).env.rstIn = s.env.rstIn :=
  State.ticks_induct n s (P := fun u => u.env.rstIn = s.env.rstIn) rfl fun u h => by simp [h]
theorem State.ticks_setRstIn (r : Option Nat) : State.ticks n (s.setRstIn r) = (State.ticks n s).setRstIn r := by
  induction n generalizing s with
  | zero => rfl
  | succ n ih => rw [State.ticks_succ, State.tick_setRstIn, ih, State.ticks_succ]
@[simp] theorem State.ticks_lag : (State.ticks n s).env.lag = s.env.lag :=
  State.ticks_induct n s (P := fun u => u.env.lag = s.env.lag) rfl fun u h => by simp [h]
@[simp] theorem State.ticks_inbox : (State.ticks n s).env.inbox = s.env.inbox :=
  State.ticks_induct n s (P := fun u => u.env.inbox = s.env.inbox) rfl fun u h => by simp [h]
@[simp] theorem State.ticks_sent : (State.ticks n s).env.sent = s.env.sent :=
  State.ticks_induct n s (P := fun u => u.env.sent = s.env.sent) rfl fun u h => by simp [h]
@[simp] theorem State.ticks_tau : (State.ticks n s).drv.tau = s.drv.tau :=
  State.ticks_induct n s (P := fun u => u.drv.tau = s.drv.tau) rfl fun u h => by simp [h]
@[simp] theorem State.ticks_tauSet : (State.ticks n s).drv.tauSet = s.drv.tauSet :=
  State.ticks_induct n s (P := fun u => u.drv.tauSet = s.drv.tauSet) rfl fun u h => by simp [h]
@[simp] theorem State.ticks_mode : (State.ticks n s).drv.mode = s.drv.mode :=
  State.ticks_induct n s (P := fun u => u.drv.mode = s.drv.mode) rfl fun u h => by simp [h]
@[simp] theorem State.ticks_txsr : (State.ticks n s).drv.txsr = s.drv.txsr :=
  State.ticks_induct n s (P := fun u => u.drv.txsr = s.drv.txsr) rfl fun u h => by simp [h]

variable {s}

theorem State.ticks_now (h : s.env.ticksLeft = none) : (State.ticks n s).env.now = s.env.now + BitVec.ofNat 32 n := by
  induction n generalizing s with
  | zero => simp
  | succ n ih =>
    rw [State.ticks_succ, ih (by simp [h]), State.tick_now (running h)]
    apply BitVec.eq_of_toNat_eq
    simp [BitVec.toNat_add]
    omega

/-- With no cycle in progress a tick of a running source moves the counter alone (R131). -/
theorem State.tick_ready_running (h : s.env.ticksLeft = none) (hr : s.drv.bus.ready = true) :
    s.tick = { s with env := { s.env with now := s.env.now + 1 } } := by
  have e : s.env.ticksLeft.map (· - 1) = s.env.ticksLeft := by rw [h]; rfl
  rw [State.tick_ready (running h) hr, e]

/-- With no cycle in progress ticks move the counter alone (R131). -/
theorem State.ticks_ready (h : s.env.ticksLeft = none) (hr : s.drv.bus.ready = true) :
    State.ticks n s = { s with env := { s.env with now := s.env.now + BitVec.ofNat 32 n } } := by
  induction n generalizing s with
  | zero => simp
  | succ n ih =>
    rw [State.ticks_succ, State.tick_ready_running h hr, ih (by simpa using h) (by simpa using hr)]
    simp only [BitVec.add_assoc]
    congr 3
    apply BitVec.eq_of_toNat_eq
    simp [BitVec.toNat_add]
    omega

/-- Ticks of a source that will stop, but not within them, are those of a source that does not. -/
theorem State.ticks_left (k : Nat) {n : Nat} {s : State} (h : s.env.ticksLeft = some n) (hk : k ≤ n) :
    State.ticks k s = (State.ticks k (s.setTicksLeft none)).setTicksLeft (some (n - k)) := by
  induction k generalizing s n with
  | zero =>
    show s = s.setTicksLeft (some n)
    rw [← h]
    rfl
  | succ k ih =>
    obtain ⟨m, rfl⟩ : ∃ m, n = m + 1 := ⟨n - 1, by omega⟩
    have e := State.tick_left h
    rw [State.ticks_succ, e, ih (n := m) rfl (by omega), State.ticks_succ]
    have e2 : ((s.setTicksLeft none).tick.setTicksLeft (some m)).setTicksLeft none = (s.setTicksLeft none).tick := by
      rw [State.setTicksLeft_setTicksLeft]
      exact State.setTicksLeft_self (by simp)
    rw [e2, show m + 1 - (k + 1) = m - k by omega]

end Ticks

/-! ### Runs of foreground steps -/

@[simp] theorem Run.andThen_done {α β : Type} (a : α) (s : State) (k : α → State → Run β) :
    (Run.done a s).andThen k = k a s := rfl
@[simp] theorem Run.andThen_cut {α β : Type} (s : State) (k : α → State → Run β) :
    (Run.cut s : Run α).andThen k = .cut s := rfl
@[simp] theorem Run.andThen_hung {α β : Type} (k : α → State → Run β) : (Run.hung : Run α).andThen k = .hung := rfl
@[simp] theorem Run.map_done {α β : Type} (f : α → β) (a : α) (s : State) : (Run.done a s).map f = .done (f a) s := rfl
@[simp] theorem Run.map_cut {α β : Type} (f : α → β) (s : State) : (Run.cut s : Run α).map f = .cut s := rfl
@[simp] theorem Run.map_hung {α β : Type} (f : α → β) : (Run.hung : Run α).map f = .hung := rfl

/-- What holds of a run's end: `P` of its result and state where it is done, `Q` of the state where rst cuts it off. -/
def Run.Sat {α : Type} (P : α → State → Prop) (Q : State → Prop) : Run α → Prop
  | .done a s => P a s
  | .cut s => Q s
  | .hung => True

theorem Run.Sat.andThen {α β : Type} {P : α → State → Prop} {P' : β → State → Prop} {Q : State → Prop} {r : Run α}
    {k : α → State → Run β} (h : r.Sat P Q) (hk : ∀ a s, P a s → (k a s).Sat P' Q) : (r.andThen k).Sat P' Q := by
  cases r with
  | done a s => exact hk a s h
  | cut s => exact h
  | hung => trivial

theorem Run.Sat.map {α β : Type} {P : α → State → Prop} {P' : β → State → Prop} {Q : State → Prop} {r : Run α} {f : α → β}
    (h : r.Sat P Q) (hf : ∀ a s, P a s → P' (f a) s) : (r.map f).Sat P' Q := by
  cases r with
  | done a s => exact hf a s h
  | cut s => exact h
  | hung => trivial

theorem Run.Sat.mono {α : Type} {P P' : α → State → Prop} {Q Q' : State → Prop} {r : Run α} (h : r.Sat P Q)
    (hP : ∀ a s, P a s → P' a s) (hQ : ∀ s, Q s → Q' s) : r.Sat P' Q' := by
  cases r with
  | done a s => exact hP a s h
  | cut s => exact hQ s h
  | hung => trivial

/-- The same of a run that does not hang. -/
def Run.Ends {α : Type} (P : α → State → Prop) (Q : State → Prop) (r : Run α) : Prop := r.Sat P Q ∧ r ≠ .hung

theorem Run.Ends.andThen {α β : Type} {P : α → State → Prop} {P' : β → State → Prop} {Q : State → Prop} {r : Run α}
    {k : α → State → Run β} (h : r.Ends P Q) (hk : ∀ a s, P a s → (k a s).Ends P' Q) : (r.andThen k).Ends P' Q := by
  cases r with
  | done a s => exact hk a s h.1
  | cut s => exact ⟨h.1, by simp⟩
  | hung => exact absurd rfl h.2

theorem Run.Ends.map {α β : Type} {P : α → State → Prop} {P' : β → State → Prop} {Q : State → Prop} {r : Run α} {f : α → β}
    (h : r.Ends P Q) (hf : ∀ a s, P a s → P' (f a) s) : (r.map f).Ends P' Q := by
  refine ⟨h.1.map hf, ?_⟩
  cases r with
  | done a s => simp
  | cut s => simp
  | hung => exact absurd rfl h.2

/-- An operation whose run ends answers a next state. -/
theorem Run.Ends.finish {α : Type} {P : α → State → Prop} {Q : State → Prop} {r : Run α} (h : r.Ends P Q)
    (answer : α → State → State) :
    (∃ a s, P a s ∧ Machine.finish answer r = .next (answer a s)) ∨ ∃ s, Q s ∧ Machine.finish answer r = .next s := by
  cases r with
  | done a s => exact .inl ⟨a, s, h.1, rfl⟩
  | cut s => exact .inr ⟨s, h.1, rfl⟩
  | hung => exact absurd rfl h.2

/-- With no rst to come a moment is nothing. -/
theorem State.moment_calm {α : Type} {s : State} (h : s.env.rstIn = none) (k : State → Run α) : s.moment k = k s := by
  unfold State.moment; rw [h]

/-- What a moment can do. -/
theorem State.moment_sat {α : Type} {s : State} {k : State → Run α} {P : α → State → Prop} {Q : State → Prop}
    (hQ : s.env.rstIn ≠ none → Q s.rstLands) (hk : ∀ r, (r = none ↔ s.env.rstIn = none) → (k (s.setRstIn r)).Sat P Q) : (s.moment k).Sat P Q := by
  unfold State.moment
  split
  · next h =>
    have e : s.setRstIn none = s := by unfold State.setRstIn; rw [← h]
    rw [← e]; exact hk none (by simp [← h])
  · next h => exact hQ (by simp [h])
  · next n h => exact hk (some n) (by simp [h])

theorem State.moment_not_hung {α : Type} {s : State} {k : State → Run α} (hk : ∀ r, k (s.setRstIn r) ≠ .hung) :
    s.moment k ≠ .hung := by
  unfold State.moment
  split
  · next h =>
    have e : s.setRstIn none = s := by unfold State.setRstIn; rw [← h]
    rw [← e]; exact hk none
  · simp
  · next n _ => exact hk (some n)

/-! ### Waiting (R7) -/

/-- Everything a wait can do, said by properties that ticks and the coming of rst keep: done where its condition holds, or cut
off by rst, or hung. -/
theorem State.spin_sat {p : State → Bool} {P Q : State → Prop} (ht : ∀ u, P u → P u.tick) (hr : ∀ u r, P u → (r = none ↔ u.env.rstIn = none) → P (u.setRstIn r))
    (hQ : ∀ u, P u → u.env.rstIn ≠ none → Q u.rstLands) (fuel : Nat) {s : State} (h : P s) :
    (State.spin p fuel s).Sat (fun _ t => P t ∧ p t = true) Q := by
  induction fuel generalizing s with
  | zero => trivial
  | succ fuel ih =>
    refine State.moment_sat (hQ s h) fun r hrn => ?_
    have hu := hr s r h hrn
    split
    · next hp => exact ⟨hu, hp⟩
    · split
      · unfold State.stuck
        split
        · trivial
        · next h => exact hQ _ hu (by rw [h]; simp)
      · exact ih (ht _ hu)

/-- A wait ends at the first tick at which its condition holds, if there is one within the fuel, ticks arrive and no rst
comes. -/
theorem State.spin_of_first {p : State → Bool} {fuel k : Nat} {s : State} (hs : s.Undisturbed) (hk : k < fuel)
    (hp : p (State.ticks k s) = true) (hj : ∀ j < k, p (State.ticks j s) = false) :
    State.spin p fuel s = .done () (State.ticks k s) := by
  induction fuel generalizing s k with
  | zero => omega
  | succ fuel ih =>
    unfold State.spin
    rw [State.moment_calm hs.2]
    cases k with
    | zero => rw [State.ticks_zero] at hp; rw [if_pos hp]; rfl
    | succ k =>
      have h0 := hj 0 (by omega)
      rw [State.ticks_zero] at h0
      rw [if_neg (by simp [h0]), if_neg (running hs.1)]
      exact ih ⟨by simp [hs.1], by simpa using hs.2⟩ (by omega) hp fun j hjk => hj (j + 1) (by omega)

/-- A wait is cut off by rst at its moment, if its condition has not held before and ticks arrive until then (R326). -/
theorem State.spin_rst {p : State → Bool} (hpr : ∀ u r, p (State.setRstIn r u) = p u) {fuel k : Nat} {s : State}
    (hs : s.env.ticksLeft = none) (hr : s.env.rstIn = some k) (hk : k < fuel)
    (hj : ∀ j < k, p (State.ticks j s) = false) : State.spin p fuel s = .cut (State.ticks k s).rstLands := by
  induction fuel generalizing s k with
  | zero => omega
  | succ fuel ih =>
    unfold State.spin State.moment
    rw [hr]
    cases k with
    | zero => rfl
    | succ k =>
      have h0 := hj 0 (by omega)
      rw [State.ticks_zero, ← hpr s (some k)] at h0
      have e := ih (s := (s.setRstIn (some k)).tick) (k := k) (by simp [hs]) (by simp) (by omega) fun j hjk => by
        rw [State.tick_setRstIn, State.ticks_setRstIn, hpr]; exact hj (j + 1) (by omega)
      rw [State.tick_setRstIn, State.ticks_setRstIn] at e
      simp only [h0, Bool.false_eq_true, if_false, if_neg (running (s := s.setRstIn (some k)) hs)]
      rw [State.tick_setRstIn]
      exact e

/-- A wait during which rst is due only after its condition has held ends as if rst were not due, and rst has come nearer. -/
theorem State.spin_before_rst {p : State → Bool} (hpr : ∀ u r, p (State.setRstIn r u) = p u) {fuel k m : Nat} {s : State}
    (hs : s.env.ticksLeft = none) (hr : s.env.rstIn = some m) (hkm : k < m) (hk : k < fuel)
    (hp : p (State.ticks k s) = true) (hj : ∀ j < k, p (State.ticks j s) = false) :
    State.spin p fuel s = .done () ((State.ticks k s).setRstIn (some (m - k - 1))) := by
  induction fuel generalizing s k m with
  | zero => omega
  | succ fuel ih =>
    unfold State.spin State.moment
    rw [hr]
    obtain ⟨m, rfl⟩ : ∃ i, m = i + 1 := ⟨m - 1, by omega⟩
    simp only
    cases k with
    | zero =>
      rw [State.ticks_zero] at hp
      rw [hpr, if_pos hp]
      rfl
    | succ k =>
      have h0 := hj 0 (by omega)
      rw [State.ticks_zero, ← hpr s (some m)] at h0
      have e := ih (s := (s.setRstIn (some m)).tick) (k := k) (m := m) (by simp [hs]) (by simp) (by omega) (by omega)
        (by rw [State.tick_setRstIn, State.ticks_setRstIn, hpr]; exact hp) fun j hjk => by
          rw [State.tick_setRstIn, State.ticks_setRstIn, hpr]; exact hj (j + 1) (by omega)
      rw [State.tick_setRstIn, State.ticks_setRstIn] at e
      simp only [h0, Bool.false_eq_true, if_false, if_neg (running (s := s.setRstIn (some m)) hs)]
      rw [State.tick_setRstIn]
      refine e.trans ?_
      rw [show m + 1 - (k + 1) - 1 = m - k - 1 by omega]
      rfl

/-- A wait whose condition holds after some ticks does not hang while ticks arrive. -/
theorem State.spin_not_hung {p : State → Bool} (hpr : ∀ u r, p (State.setRstIn r u) = p u) {fuel k : Nat} {s : State}
    (hs : s.env.ticksLeft = none) (hk : k < fuel) (hp : p (State.ticks k s) = true) : State.spin p fuel s ≠ .hung := by
  induction fuel generalizing s k with
  | zero => omega
  | succ fuel ih =>
    refine State.moment_not_hung fun r => ?_
    split
    · simp
    · next hf =>
      rw [if_neg (running (s := s.setRstIn r) hs)]
      cases k with
      | zero => rw [hpr] at hf; exact absurd hp hf
      | succ k =>
        refine ih (k := k) (by simp [hs]) (by omega) ?_
        rw [State.tick_setRstIn, State.ticks_setRstIn, hpr]
        exact hp

/-- A wait whose condition does not hold, for which no tick and no rst comes, never ends (R79). -/
theorem State.spin_stopped {p : State → Bool} {fuel : Nat} {s : State} (ht : s.env.ticksLeft = some 0)
    (hr : s.env.rstIn = none) (hp : p s = false) : State.spin p fuel s = .hung := by
  cases fuel with
  | zero => rfl
  | succ fuel =>
    unfold State.spin
    rw [State.moment_calm hr, if_neg (by simp [hp]), if_pos ht, State.stuck, hr]

/-- A wait during which the tick source stops before its condition holds never ends (R79). -/
theorem State.spin_stops {p : State → Bool} {fuel n : Nat} {s : State} (ht : s.env.ticksLeft = some n)
    (hr : s.env.rstIn = none) (hp : ∀ j ≤ n, p (State.ticks j s) = false) : State.spin p fuel s = .hung := by
  induction n generalizing s fuel with
  | zero => exact State.spin_stopped ht hr (hp 0 (by omega))
  | succ n ih =>
    cases fuel with
    | zero => rfl
    | succ fuel =>
      have h0 := hp 0 (by omega)
      rw [State.ticks_zero] at h0
      unfold State.spin
      rw [State.moment_calm hr, if_neg (by simp [h0]), if_neg (by rw [ht]; simp)]
      exact ih (by simp [ht]) (by simpa using hr) fun j hj => hp (j + 1) (by omega)

/-- Before `n` ticks have passed a delay of `n` goes on (R133). -/
theorem State.delay_goes_on {s : State} (hs : s.env.ticksLeft = none) (n : Word) (j : Nat) (hj : j < n.toNat) :
    decide (n ≤ (State.ticks j s).env.now - s.env.now) = false := by
  have hlt := n.isLt
  have : (BitVec.ofNat 32 j).toNat = j := by simp; omega
  simp only [State.ticks_now _ hs, BitVec.add_comm s.env.now, BitVec.add_sub_cancel, decide_eq_false_iff_not,
    BitVec.le_def, this]
  omega

/-- delay_us(n) lets exactly `n` ticks pass (R133, D33). -/
theorem State.delay_eq_ticks {s : State} (hs : s.Undisturbed) (n : Word) : s.delay n = .done () (State.ticks n.toNat s) := by
  have hlt := n.isLt
  unfold State.delay
  refine State.spin_of_first hs ?_ ?_ fun j hj => ?_
  · have : (2 : Nat) ^ 32 ≤ spinFuel := by decide
    omega
  · simp [State.ticks_now _ hs.1, BitVec.add_comm s.env.now]
  · exact State.delay_goes_on hs.1 n j hj

/-- Everything a delay can do. -/
theorem State.delay_sat {P Q : State → Prop} (ht : ∀ u, P u → P u.tick) (hr : ∀ u r, P u → (r = none ↔ u.env.rstIn = none) → P (u.setRstIn r))
    (hQ : ∀ u, P u → u.env.rstIn ≠ none → Q u.rstLands) (n : Word) {s : State} (h : P s) : (s.delay n).Sat (fun _ t => P t) Q := by
  unfold State.delay
  exact (State.spin_sat ht hr hQ spinFuel h).mono (fun _ _ h => h.1) fun _ h => h

/-- A delay does not hang while ticks arrive. -/
theorem State.delay_not_hung {s : State} (hs : s.env.ticksLeft = none) (n : Word) : s.delay n ≠ .hung := by
  have hlt := n.isLt
  have : (2 : Nat) ^ 32 ≤ spinFuel := by decide
  refine State.spin_not_hung (fun _ _ => rfl) hs (k := n.toNat) (by omega) ?_
  simp [State.ticks_now _ hs, BitVec.add_comm s.env.now]

theorem State.five_tau_toNat (tau : Byte) : (5 * tau.setWidth 32 : Word).toNat = 5 * tau.toNat := by
  have := tau.isLt
  simp [BitVec.toNat_mul]
  omega

/-- guard_delay() lets exactly 5 TAU ticks pass (R134). -/
theorem State.guard_eq_ticks {s : State} (hs : s.Undisturbed) :
    s.guard = .done () (State.ticks (5 * s.drv.tau.toNat) s) := by
  rw [State.guard, State.delay_eq_ticks hs, State.five_tau_toNat]

/-! ### Pauses and begin_transfer -/

/-- A pause is some number of ticks with one entry of `lag` used up (R77). -/
theorem State.pause_cases (s : State) :
    ∃ n, s.pause = State.ticks n { s with env := { s.env with lag := s.env.lag.tail } } := by
  unfold State.pause
  split
  · next h => exact ⟨0, by rw [h, List.tail_nil, ← h]; rfl⟩
  · next n rest h => exact ⟨n, by simp [h]⟩

/-- A pause with no cycle in progress moves the counter alone (R77, R131). -/
theorem State.pause_ready {s : State} (ht : s.env.ticksLeft = none) (hr : s.drv.bus.ready = true) :
    s.pause = { s with env := { s.env with
      now := s.env.now + BitVec.ofNat 32 ((s.env.lag.take 1).sum), lag := s.env.lag.tail } } := by
  unfold State.pause
  split
  · next h =>
    have e : s.env.now + BitVec.ofNat 32 (([] : List Nat).take 1).sum = s.env.now := by simp
    rw [h, e, List.tail_nil, ← h]
  · next n rest h => rw [State.ticks_ready n (by simpa using ht) (by simpa using hr)]; simp [h]

/-- begin_transfer with no cycle in progress (R122). -/
theorem State.beginTransfer_ready {s : State} (hr : s.drv.bus.ready = true) (w : Word) (m : Mode) :
    s.beginTransfer w m =
      { s with
        drv := { s.drv with dir := .output, txsr := w, mode := m, bus := .begin }
        env := { s.env with sent := (w.setWidth 17, m) :: s.env.sent } } := by
  simp [State.beginTransfer, hr, Driver.pinDir]

/-- begin_transfer in a cycle is ignored (R123). -/
theorem State.beginTransfer_busy {s : State} (hr : s.drv.bus.ready = false) (w : Word) (m : Mode) :
    s.beginTransfer w m = s := by simp [State.beginTransfer, hr]

/-- A pause keeps what ticks keep. -/
theorem State.pause_induct {P : State → Prop} {s : State} (h : P s) (hl : ∀ u l, P u → P { u with env := { u.env with lag := l } })
    (ht : ∀ u, P u → P u.tick) : P s.pause := by
  obtain ⟨n, e⟩ := State.pause_cases s
  rw [e]
  exact State.ticks_induct n _ (hl s _ h) ht

/-! ### One exchange (R190) -/

/-- Everything an exchange can do, said by properties that ticks, pauses, the coming of rst and begin_transfer keep: the bus
is in Idle or Timeout when the wait is over, and the guard delay passes. -/
theorem State.exchange_sat {c : Code} {p : Byte} {m : Mode} {P Q : State → Prop} {s : State} (h : P s)
    (ht : ∀ u, P u → P u.tick) (hr : ∀ u r, P u → (r = none ↔ u.env.rstIn = none) → P (u.setRstIn r))
    (hl : ∀ u l, P u → P { u with env := { u.env with lag := l } })
    (hb : ∀ u, P u → P (u.beginTransfer ((wireWord c p).setWidth 32) m)) (hQ : ∀ u, P u → u.env.rstIn ≠ none → Q u.rstLands) :
    (s.exchange c p m).Sat (fun b t => P t ∧ b.ready = true) Q := by
  have hpause := State.pause_induct h hl ht
  refine State.moment_sat (hQ _ hpause) fun r hrn => ?_
  refine (State.spin_sat ht hr hQ spinFuel (hb _ (hr _ r hpause hrn))).andThen fun _ u hu => ?_
  have hg : u.pause.guard.Sat (fun _ v => P v) Q := State.delay_sat ht hr hQ _ (State.pause_induct hu.1 hl ht)
  exact hg.map fun _ v hv => ⟨hv, hu.2⟩

/-- What an exchange with rst due can do: it is done with rst still due, or rst lands in it and leaves the registers reset; it
writes neither table, nor memory, nor the waiting events (R320, R326). -/
theorem State.exchange_rst {c : Code} {p : Byte} {m : Mode} {s : State} (h : s.env.rstIn ≠ none) :
    (s.exchange c p m).Sat
      (fun _ t => t.env.rstIn ≠ none ∧ t.regmap = s.regmap ∧ t.par = s.par ∧ t.mem = s.mem ∧ t.env.inbox = s.env.inbox)
      fun t => RegistersReset t ∧ t.regmap = s.regmap ∧ t.par = s.par ∧ t.mem = s.mem ∧ t.env.inbox = s.env.inbox := by
  have hx := State.exchange_sat (c := c) (p := p) (m := m) (s := s)
    (P := fun t => t.env.rstIn ≠ none ∧ t.regmap = s.regmap ∧ t.par = s.par ∧ t.mem = s.mem ∧ t.env.inbox = s.env.inbox)
    (Q := fun t => RegistersReset t ∧ t.regmap = s.regmap ∧ t.par = s.par ∧ t.mem = s.mem ∧ t.env.inbox = s.env.inbox)
    ⟨h, rfl, rfl, rfl, rfl⟩ (fun u hu => by simpa using hu) (fun u r hu hr => ⟨fun e => hu.1 (hr.1 e), hu.2⟩) (fun u l hu => hu)
    (fun u hu => by unfold State.beginTransfer; split <;> exact hu)
    (fun u hu _ => ⟨⟨rfl, rfl, rfl, rfl, rfl, rfl, rfl, rfl, rfl, rfl, by simp, rfl, rfl, rfl⟩, hu.2⟩)
  exact hx.mono (fun _ _ ht => ht.1) fun _ ht => ht

end Sys2Proof.Machine
end

