-- ==== Sys2Proof/Laws/Invariant.lean ====
section
/-! SUPPORT. Each shared operation keeps the invariant of Safety.lean, part by part. -/

namespace Sys2Proof.Machine

/-- The part of the invariant that the driver and the counter carry. -/
abbrev Driver.Inv (d : Driver) (now : Word) : Prop :=
  d.TauInv ∧ d.DirInv ∧ d.OutInv ∧ d.PulseInv now ∧ d.PollInv

theorem State.inv_iff (s : State) :
    s.Inv ↔ s.drv.Inv s.env.now ∧ RegMapInv s.regmap ∧ s.scr.Inv ∧ s.mem.wf = true := by
  constructor
  · rintro ⟨h1, h2, h3, h4, h5, h6, h7, h8⟩
    exact ⟨⟨h1, h2, h3, h4, h5⟩, h6, h7, h8⟩
  · rintro ⟨⟨h1, h2, h3, h4, h5⟩, h6, h7, h8⟩
    exact ⟨h1, h2, h3, h4, h5, h6, h7, h8⟩

/-! ### Pulses -/

theorem pulseWidth_toNat (tau : Byte) (b : Bool) :
    (pulseWidth tau b).toNat = if b then 3 * tau.toNat else tau.toNat := by
  have := tau.isLt
  unfold pulseWidth
  cases b <;> simp [BitVec.toNat_mul] <;> omega

/-- A pulse that starts now ends 1 to 459 ticks from now, TAU being in range (R136). -/
theorem pulse_in_range {tau : Byte} (h2 : 2 ≤ tau.toNat) (h153 : tau.toNat ≤ 153) (t : Word) (b : Bool) :
    1 ≤ (t + pulseWidth tau b - t).toNat ∧ (t + pulseWidth tau b - t).toNat ≤ longestPulse := by
  have := pulseWidth_toNat tau b
  rw [BitVec.add_comm, BitVec.add_sub_cancel, this]
  unfold longestPulse
  cases b <;> simp <;> omega

/-- One tick nearer to a deadline not yet reached. -/
theorem due_step {now due : Word} (h1 : 1 ≤ (due - now).toNat) (hne : now + 1 ≠ due) :
    1 ≤ (due - (now + 1)).toNat ∧ (due - (now + 1)).toNat < (due - now).toNat := by
  have hne' : (now + 1).toNat ≠ due.toNat := fun h => hne (BitVec.eq_of_toNat_eq h)
  have hn := now.isLt
  have hd := due.isLt
  have e1 : (1 : Word).toNat = 1 := rfl
  simp only [BitVec.toNat_sub, BitVec.toNat_add, e1] at *
  omega

/-! ### The tick agent -/

theorem Driver.tickBegin_inv {d : Driver} {now : Word} (h : d.Inv now) (hb : d.bus = .begin) :
    (d.tickBegin (now + 1)).Inv (now + 1) := by
  obtain ⟨⟨ht, hs⟩, ⟨hd, _⟩, ⟨_, ho⟩, ⟨_, _⟩, hn, _, _, _⟩ := h
  have hset := hs (by simp [hb, BusState.ready])
  have hr := ht hset
  have hp := pulse_in_range hr.1 hr.2 (now + 1) (d.txsr.getLsbD (16 : BitVec 5).toNat)
  refine ⟨⟨ht, fun _ => hset⟩, ⟨fun _ => hd (.inl hb), fun hc => ?_⟩, ⟨fun _ => ?_, fun hc => ?_⟩, ⟨by
    show (16 : BitVec 5).toNat ≤ 16
    decide, fun _ => hp⟩, hn, ?_, ?_, ?_⟩
  · simp [Driver.tickBegin, BusState.polling] at hc
  · have := ho (by simp [hb])
    simp [Driver.tickBegin, Driver.startPulse, Driver.pinToggle, this, Config.idleLevel]
  · simp [Driver.tickBegin] at hc
  all_goals (intro hc; simp [Driver.tickBegin] at hc)

theorem Driver.startPulse_inv {d : Driver} {now : Word} (h : d.Inv now) (hb : d.bus = .sending) (hne : d.bitix ≠ 0) :
    (d.pinToggle.startPulse (now + 1) (d.bitix - 1)).Inv (now + 1) := by
  obtain ⟨⟨ht, hs⟩, ⟨hd, _⟩, ⟨ho, _⟩, ⟨hi, _⟩, hn, _, _, _⟩ := h
  have hset := hs (by simp [hb, BusState.ready])
  have hr := ht hset
  have hp := pulse_in_range hr.1 hr.2 (now + 1) (d.txsr.getLsbD (d.bitix - 1).toNat)
  have hpos : 1 ≤ d.bitix.toNat := by
    rcases Nat.eq_zero_or_pos d.bitix.toNat with h0 | h0
    · exact absurd (BitVec.eq_of_toNat_eq (by simpa using h0)) hne
    · exact h0
  have hsub : (d.bitix - 1).toNat = d.bitix.toNat - 1 := by rw [BitVec.toNat_sub]; simp; omega
  refine ⟨⟨ht, fun _ => hset⟩, ⟨fun _ => hd (.inr hb), fun hc => ?_⟩, ⟨fun _ => ?_, fun hc => ?_⟩,
    ⟨?_, fun _ => hp⟩, hn, ?_, ?_, ?_⟩
  · simp [Driver.startPulse, Driver.pinToggle, hb, BusState.polling] at hc
  · show (!d.out) = ((d.bitix - 1).getLsbD 0 == Config.idleLevel)
    rw [ho hb]
    have : (d.bitix - 1).getLsbD 0 = !d.bitix.getLsbD 0 := by
      generalize d.bitix = x
      revert x
      decide
    rw [this]
    simp [Config.idleLevel]
  · exact absurd hb hc
  · show (d.bitix - 1).toNat ≤ 16
    omega
  all_goals (intro hc; simp [Driver.startPulse, Driver.pinToggle, hb] at hc)

theorem Driver.endOfSend_inv {d : Driver} {now : Word} (h : d.Inv now) (hb : d.bus = .sending) (h0 : d.bitix = 0) :
    (d.pinToggle.endOfSend (now + 1)).Inv (now + 1) := by
  obtain ⟨⟨ht, hs⟩, ⟨hd, _⟩, ⟨ho, _⟩, ⟨hi, _⟩, hn, _, _, _⟩ := h
  have hset := hs (by simp [hb, BusState.ready])
  have hout : (!d.out) = Config.idleLevel := by rw [ho hb, h0]; decide
  cases hm : d.mode <;>
    simp [Driver.endOfSend, Driver.startPoll, Driver.pinDir, Driver.pinToggle, hm, hset, hout, hn,
      Driver.Inv, Driver.TauInv, Driver.DirInv, Driver.OutInv, Driver.PulseInv, Driver.PollInv, BusState.ready, BusState.polling,
      ht hset, hi]

theorem Driver.tickSending_inv {d : Driver} {now : Word} (h : d.Inv now) (hb : d.bus = .sending) :
    (d.tickSending (now + 1)).Inv (now + 1) := by
  unfold Driver.tickSending
  split
  · split
    · next h0 => exact Driver.endOfSend_inv h hb h0
    · next h0 => exact Driver.startPulse_inv h hb h0
  · next hne =>
    obtain ⟨h1, h2, h3, ⟨hi, hp⟩, h5⟩ := h
    have := due_step (hp hb).1 hne
    exact ⟨h1, h2, h3, ⟨hi, fun _ => ⟨this.1, by have := (hp hb).2; omega⟩⟩, h5⟩

theorem Driver.capture_inv {d : Driver} {now t : Word} (h : d.Inv now) (hb : d.bus.polling = true) (l : Level) :
    (d.capture t l).Inv now ∧ ((d.capture t l).bus.polling = true → (d.capture t l).bus = d.bus) := by
  unfold Driver.capture
  by_cases hl : d.pinRead l = d.last
  · simp only [hl, if_pos]
    exact ⟨h, fun _ => trivial⟩
  · simp only [hl, if_neg, not_false_eq_true]
    obtain ⟨⟨ht, hs⟩, ⟨hd1, hd2⟩, ⟨ho1, ho2⟩, ⟨hi, hp⟩, hn, hq1, hq2, hq3⟩ := h
    cases hbus : d.bus <;> rw [hbus] at hb <;> simp [BusState.polling] at hb
    · obtain ⟨hm, hne⟩ := hq1 hbus
      have hset := hs (by simp [hbus, BusState.ready])
      have hout := ho2 (by simp [hbus])
      simp [hm, hne, Mode.cap, Config.capInt, Driver.Inv, Driver.TauInv, Driver.DirInv, Driver.OutInv, Driver.PulseInv,
        Driver.PollInv, BusState.ready, BusState.polling, hset, ht hset, hout, hi]
    · obtain ⟨hm, h1, h18⟩ := hq2 hbus
      have hset := hs (by simp [hbus, BusState.ready])
      have hout := ho2 (by simp [hbus])
      have hdir := hd2 (by simp [hbus, BusState.polling])
      have hadd : (d.nedge + 1).toNat = d.nedge.toNat + 1 := by simp [BitVec.toNat_add]; omega
      by_cases hcap : d.nedge + 1 = d.mode.cap
      · rw [if_pos hcap]
        simp [hm, Driver.Inv, Driver.TauInv, Driver.DirInv, Driver.OutInv, Driver.PulseInv,
          Driver.PollInv, BusState.ready, BusState.polling, hset, ht hset, hout, hi]
        omega
      · rw [if_neg hcap]
        have hlt : d.nedge.toNat + 1 ≠ 19 := fun e => hcap <| by
          rw [hm]
          exact BitVec.eq_of_toNat_eq (by rw [hadd, e]; rfl)
        simp [hm, hdir, Driver.Inv, Driver.TauInv, Driver.DirInv, Driver.OutInv, Driver.PulseInv,
          Driver.PollInv, BusState.ready, BusState.polling, hset, ht hset, hout, hi]
        omega

theorem Driver.timeout_inv {d : Driver} {now : Word} (h : d.Inv now) (hb : d.bus.polling = true) :
    ({ d with bus := .timeout } : Driver).Inv now := by
  obtain ⟨⟨ht, hs⟩, ⟨hd1, hd2⟩, ⟨ho1, ho2⟩, ⟨hi, hp⟩, hn, hq1, hq2, hq3⟩ := h
  cases hbus : d.bus <;> rw [hbus] at hb <;> simp [BusState.polling] at hb
  · have hm := (hq1 hbus).1
    have hset := hs (by simp [hbus, BusState.ready])
    have hout := ho2 (by simp [hbus])
    simp [Driver.Inv, Driver.TauInv, Driver.DirInv, Driver.OutInv, Driver.PulseInv, Driver.PollInv, BusState.ready,
      BusState.polling, hset, ht hset, hout, hi, hm, hn]
  · have hm := (hq2 hbus).1
    have hset := hs (by simp [hbus, BusState.ready])
    have hout := ho2 (by simp [hbus])
    simp [Driver.Inv, Driver.TauInv, Driver.DirInv, Driver.OutInv, Driver.PulseInv, Driver.PollInv, BusState.ready,
      BusState.polling, hset, ht hset, hout, hi, hm, hn]

/-- Outside a send the invariant does not speak of the counter. -/
theorem Driver.inv_now {d : Driver} {now now' : Word} (h : d.Inv now) (hb : d.bus ≠ .sending) : d.Inv now' := by
  obtain ⟨h1, h2, h3, ⟨hi, _⟩, h5⟩ := h
  exact ⟨h1, h2, h3, ⟨hi, fun hc => absurd hc hb⟩, h5⟩

theorem Driver.tickPoll_inv {d : Driver} {now t : Word} (h : d.Inv now) (hb : d.bus.polling = true) (par : Params)
    (l : Level) : (d.tickPoll par t l).Inv now := by
  obtain ⟨hc, hbus⟩ := Driver.capture_inv (t := t) h hb l
  unfold Driver.tickPoll Driver.deadline
  split
  · next hd =>
    have hp : (d.capture t l).bus.polling = true := by
      rw [Bool.and_eq_true] at hd
      exact hd.1
    exact Driver.timeout_inv hc hp
  · exact hc

theorem Driver.tickPoll_bus_ne_sending {d : Driver} (hb : d.bus.polling = true) (par : Params) (t : Word) (l : Level) :
    (d.tickPoll par t l).bus ≠ .sending := by
  have hne : d.bus ≠ .sending := fun e => by simp [e, BusState.polling] at hb
  have hc : (d.capture t l).bus ≠ .sending := by
    unfold Driver.capture
    by_cases hl : d.pinRead l = d.last
    · simpa [hl] using hne
    · simp only [hl, if_neg, not_false_eq_true]
      split <;> simp_all
  rcases Driver.deadline_cases par t (d.capture t l) with e | e
  · simpa [Driver.tickPoll, e] using hc
  · simp [Driver.tickPoll, e]

/-- A step of the tick agent keeps the driver's invariant. -/
theorem Driver.tick_inv {d : Driver} {now : Word} (h : d.Inv now) (par : Params) (l : Level) :
    (d.tick par (now + 1) l).Inv (now + 1) := by
  unfold Driver.tick
  cases hb : d.bus
  · exact Driver.inv_now h (by simp [hb])
  · exact Driver.tickBegin_inv h hb
  · exact Driver.tickSending_inv h hb
  · have hp : d.bus.polling = true := by simp [hb, BusState.polling]
    exact Driver.inv_now (Driver.tickPoll_inv h hp par l) (Driver.tickPoll_bus_ne_sending hp par _ l)
  · have hp : d.bus.polling = true := by simp [hb, BusState.polling]
    exact Driver.inv_now (Driver.tickPoll_inv h hp par l) (Driver.tickPoll_bus_ne_sending hp par _ l)
  · exact Driver.inv_now h (by simp [hb])

/-! ### States -/

/-- A tick keeps the invariant. -/
theorem State.tick_inv {s : State} (h : s.Inv) : s.tick.Inv := by
  rw [State.inv_iff] at h ⊢
  obtain ⟨hd, hr, hs, hm⟩ := h
  refine ⟨?_, by simpa using hr, by simpa using hs, by simpa using hm⟩
  by_cases ht : s.env.ticksLeft = some 0
  · rw [State.tick_stopped ht]; exact hd
  · rw [State.tick_drv ht, State.tick_now ht]
    exact Driver.tick_inv hd s.par s.env.lineLevel

theorem State.ticks_inv (n : Nat) {s : State} (h : s.Inv) : (State.ticks n s).Inv :=
  State.ticks_induct n s h fun _ hu => State.tick_inv hu

theorem State.pause_inv {s : State} (h : s.Inv) : s.pause.Inv := by
  obtain ⟨n, e⟩ := State.pause_cases s
  rw [e]
  exact State.ticks_inv n h

theorem State.beginTransfer_inv {s : State} (h : s.Inv) (ht : s.drv.tauSet = true) (w : Word) (m : Mode) :
    (s.beginTransfer w m).Inv := by
  cases hr : s.drv.bus.ready
  · rwa [State.beginTransfer_busy hr]
  · rw [State.beginTransfer_ready hr]
    obtain ⟨⟨hq, _⟩, _, ⟨_, ho⟩, ⟨hi, _⟩, ⟨hn, _⟩, hrest⟩ := h
    have hout : s.drv.out = Config.idleLevel := ho fun e => by simp [e, BusState.ready] at hr
    exact ⟨⟨hq, fun _ => ht⟩, ⟨fun _ => rfl, by simp [BusState.polling]⟩, ⟨by simp, fun _ => hout⟩, ⟨hi, by simp⟩,
      ⟨hn, by simp⟩, hrest⟩

theorem State.lineIdle_inv {s : State} (h : s.Inv) : s.lineIdle.Inv := by
  unfold State.lineIdle
  split
  · next hr =>
    obtain ⟨h1, ⟨_, hd⟩, _, h4, h5, hrest⟩ := h
    refine ⟨h1, ⟨fun _ => rfl, fun hp => ?_⟩, ⟨fun hc => ?_, fun _ => rfl⟩, h4, h5, hrest⟩
    · have hp' : s.drv.bus.polling = true := hp
      cases hb : s.drv.bus <;> simp_all [BusState.ready, BusState.polling]
    · have hc' : s.drv.bus = .sending := hc
      simp [hc', BusState.ready] at hr
  · exact h

theorem effectiveTau_range (par : Params) (v : Word) :
    2 ≤ (effectiveTau par v).toNat ∧ (effectiveTau par v).toNat ≤ 153 := by
  have key (n : Nat) : 2 ≤ (BitVec.ofNat 8 (n % 152 + 2)).toNat ∧ (BitVec.ofNat 8 (n % 152 + 2)).toNat ≤ 153 := by
    simp; omega
  unfold effectiveTau tauSmall inTauRange Config.tauSpan Config.tauMin
  split
  · exact key _
  · split <;> exact key _

theorem State.setTau_inv {s : State} (h : s.Inv) (v : Word) : (s.setTau v).Inv := by
  obtain ⟨_, h2, h3, h4, h5, hrest⟩ := h
  exact ⟨⟨fun _ => effectiveTau_range s.par v, fun _ => rfl⟩, h2, h3, h4, h5, hrest⟩

theorem State.bufStore_inv {s : State} (h : s.Inv) (buf : BufRef) (i : Nat) (b : Byte) : (s.bufStore buf i b).Inv := by
  obtain ⟨h1, h2, h3, h4, h5, h6, h7, h8⟩ := h
  exact ⟨h1, h2, h3, h4, h5, h6, h7, Memory.write_wf h8 _ b⟩

theorem State.bufStoreAll_inv {s : State} (h : s.Inv) (buf : BufRef) (i : Nat) (l : List Byte) :
    (s.bufStoreAll buf i l).Inv := by
  induction l generalizing i s with
  | nil => exact h
  | cons b rest ih => exact ih (State.bufStore_inv h buf i b) (i + 1)

/-- The rst port establishes the driver's part and keeps the rest. -/
theorem State.applyReset_inv {s : State} (h : s.Inv) : s.applyReset.Inv := by
  obtain ⟨_, _, _, _, _, h6, _, h8⟩ := h
  exact ⟨(by decide : Driver.reset.TauInv), (by decide : Driver.reset.DirInv), (by decide : Driver.reset.OutInv),
    ⟨by simp [State.applyReset, Driver.reset], fun hc => by simp [State.applyReset, Driver.reset] at hc⟩,
    (by decide : Driver.reset.PollInv), h6, (by decide : Scratch.reset.Inv), h8⟩

/-- So does rst landing inside an operation. -/
theorem State.rstLands_inv {s : State} (h : s.Inv) : s.rstLands.Inv := State.applyReset_inv h

/-- The invariant together with what R323 asks before TAU is used; ticks, pauses, rst to come and begin_transfer keep it. -/
abbrev State.Armed (s : State) : Prop := s.Inv ∧ s.drv.tauSet = true

theorem State.tick_armed (u : State) (h : u.Armed) : u.tick.Armed := ⟨State.tick_inv h.1, by simpa using h.2⟩

theorem State.beginTransfer_armed (w : Word) (m : Mode) (u : State) (h : u.Armed) : (u.beginTransfer w m).Armed := by
  refine ⟨State.beginTransfer_inv h.1 h.2 w m, ?_⟩
  unfold State.beginTransfer
  split
  · exact h.2
  · exact h.2

/-- A delay keeps the invariant and TAU's being set, or ends in a state rst leaves. -/
theorem State.delay_armed (n : Word) {s : State} (h : s.Armed) : (s.delay n).Sat (fun _ t => t.Armed) State.Inv :=
  State.delay_sat State.tick_armed (fun _ _ hu _ => hu) (fun _ hu _ => State.rstLands_inv hu.1) n h

/-- An exchange keeps the invariant and TAU's being set, and is done in Idle or Timeout; or ends in a state rst leaves. -/
theorem State.exchange_armed {c : Code} {p : Byte} {m : Mode} {s : State} (h : s.Armed) :
    (s.exchange c p m).Sat (fun b t => t.Armed ∧ b.ready = true) State.Inv :=
  State.exchange_sat h State.tick_armed (fun _ _ hu _ => hu) (fun _ _ hu => hu) (State.beginTransfer_armed _ m)
    fun _ hu _ => State.rstLands_inv hu.1

end Sys2Proof.Machine
end

