-- ==== Sys2Proof/Laws/Send.lean ====
section
/-! SUPPORT. What a send comes to: one pulse, the pulses from a given bit on, a word from Begin, and a SendOnly exchange. -/

namespace Sys2Proof.Machine

theorem pulseWidth_ticks (tau : Byte) (b : Bool) : (pulseWidth tau b).toNat = replyWidth tau.toNat b := by
  have := tau.isLt
  unfold pulseWidth replyWidth
  cases b <;> simp [BitVec.toNat_mul] <;> omega

theorem replyWidth_le (unit : Nat) (b : Bool) : replyWidth unit b ≤ 3 * unit := by
  unfold replyWidth; split <;> omega

theorem replyWidth_pos {unit : Nat} (h : 1 ≤ unit) (b : Bool) : 1 ≤ replyWidth unit b := by
  unfold replyWidth; split <;> omega

/-- The ticks the pulses of bits `ix`, ..., 0 take (R136, R137). -/
def pulseTicks (unit : Nat) (word : Word) : Nat → Nat
  | 0 => replyWidth unit (word.getLsbD 0)
  | ix + 1 => replyWidth unit (word.getLsbD (ix + 1)) + pulseTicks unit word ix

theorem pulseTicks_le (unit : Nat) (word : Word) (ix : Nat) : pulseTicks unit word ix ≤ 3 * unit * (ix + 1) := by
  induction ix with
  | zero => simpa [pulseTicks] using replyWidth_le unit _
  | succ ix ih =>
    have := replyWidth_le unit (word.getLsbD (ix + 1))
    rw [pulseTicks, Nat.mul_add (3 * unit) (ix + 1) 1]
    omega

/-- The number of ones among bits 0..`ix`. -/
theorem pulseTicks_ones (unit : Nat) (word : Word) (ix : Nat) :
    pulseTicks unit word ix = unit * (ix + 1 + 2 * (List.range (ix + 1)).countP fun i => word.getLsbD i) := by
  induction ix with
  | zero =>
    have e : (List.range (0 + 1)).countP (fun i => word.getLsbD i) = if word.getLsbD 0 then 1 else 0 := by
      simp [List.range_succ]
    rw [e, pulseTicks, replyWidth]
    split <;> omega
  | succ ix ih =>
    rw [List.range_succ, List.countP_append, pulseTicks, ih]
    cases h : word.getLsbD (ix + 1) <;> simp [replyWidth, h] <;> ring

/-- The seventeen pulses of a word take `sendTicks` ticks (R137). -/
theorem pulseTicks_word (tau : Byte) (word : Word) : pulseTicks tau.toNat word 16 = sendTicks tau (word.setWidth 17) := by
  rw [pulseTicks_ones]
  unfold sendTicks popcount
  congr 3
  apply List.countP_congr
  intro i hi
  have : i < 17 := by simpa using hi
  simp [this]

/-- A tick in Sending (R127). -/
theorem State.tick_sending {s : State} (ht : s.env.ticksLeft = none) (hb : s.drv.bus = .sending) :
    s.tick = { s with
      drv := s.drv.tickSending (s.env.now + 1), env := { s.env with now := s.env.now + 1 } } := by
  rw [State.tick_running ht, Driver.tick, hb]
  rfl

/-- Within a pulse ticks move the counter alone (R127). -/
theorem State.ticks_in_pulse {s : State} (ht : s.env.ticksLeft = none) (hb : s.drv.bus = .sending) (n : Nat)
    (hn : n < (s.drv.due - s.env.now).toNat) :
    State.ticks n s = { s with env := { s.env with now := s.env.now + BitVec.ofNat 32 n } } := by
  induction n generalizing s with
  | zero => simp
  | succ n ih =>
    have hlt := (s.drv.due - s.env.now).isLt
    have hne : s.env.now + 1 ≠ s.drv.due := fun e => by
      rw [← e, BitVec.add_comm, BitVec.add_sub_cancel] at hn
      simp at hn
    have h1 : s.tick = { s with env := { s.env with now := s.env.now + 1 } } := by
      rw [State.tick_sending ht hb, Driver.tickSending, if_neg hne]
    have hd : (s.drv.due - (s.env.now + 1)).toNat = (s.drv.due - s.env.now).toNat - 1 := by
      have e1 : (1 : Word).toNat = 1 := rfl
      have h2 := s.drv.due.isLt
      have h3 := s.env.now.isLt
      have hn' := hn
      rw [BitVec.toNat_sub] at hn' ⊢
      rw [BitVec.toNat_sub, BitVec.toNat_add, e1]
      omega
    rw [State.ticks_succ, h1, ih (by simpa using ht) (by simpa using hb) (by simp only [hd]; omega)]
    simp only [BitVec.add_assoc]
    congr 3
    apply BitVec.eq_of_toNat_eq
    simp [BitVec.toNat_add]
    omega

/-- The driver at the end of a pulse (R127). -/
def Driver.pulseEnd (d : Driver) : Driver :=
  if d.bitix = 0 then d.pinToggle.endOfSend d.due else d.pinToggle.startPulse d.due (d.bitix - 1)

/-- A pulse, whole: the counter stands at DUE, where the line has been toggled (R127). -/
theorem State.ticks_pulse {s : State} (ht : s.env.ticksLeft = none) (hb : s.drv.bus = .sending)
    (hd : 1 ≤ (s.drv.due - s.env.now).toNat) :
    State.ticks (s.drv.due - s.env.now).toNat s =
      { s with drv := s.drv.pulseEnd, env := { s.env with now := s.drv.due } } := by
  obtain ⟨m, hm⟩ : ∃ m, (s.drv.due - s.env.now).toNat = m + 1 := ⟨_, (Nat.succ_pred_eq_of_pos hd).symm⟩
  have hnow : s.env.now + BitVec.ofNat 32 m + 1 = s.drv.due := by
    have e : BitVec.ofNat 32 m + 1 = s.drv.due - s.env.now := by
      apply BitVec.eq_of_toNat_eq
      have := (s.drv.due - s.env.now).isLt
      rw [hm, BitVec.toNat_add, BitVec.toNat_ofNat]
      have e1 : (1 : Word).toNat = 1 := rfl
      rw [e1]
      omega
    rw [BitVec.add_assoc, e, BitVec.add_comm, BitVec.sub_add_cancel]
  rw [hm, State.ticks_add m s 1, State.ticks_in_pulse ht hb m (by omega)]
  rw [State.ticks_succ, State.ticks_zero, State.tick_sending (by exact ht) (by exact hb)]
  simp only [hnow, Driver.tickSending, Driver.pulseEnd, if_true]

/-- The driver when the last bit has been sent, bits `ix`, ..., 0 having been left at `d` (R127, R128). -/
def Driver.sent (t : Word) (ix : Nat) (d : Driver) : Driver :=
  { d with out := d.out ^^ decide (ix % 2 = 0), bitix := 0, due := t }

/-- The pulses of bits `ix`, ..., 0: STATE is Sending until the last of their ticks, which ends the send (R127, R128). -/
theorem State.ticks_pulses (ix : Nat) (hix : ix ≤ 16) {s : State} (ht : s.env.ticksLeft = none) (hb : s.drv.bus = .sending)
    (htau : 1 ≤ s.drv.tau.toNat) (hbit : s.drv.bitix = BitVec.ofNat 5 ix)
    (hdue : s.drv.due = s.env.now + pulseWidth s.drv.tau (s.drv.txsr.getLsbD ix)) :
    State.ticks (pulseTicks s.drv.tau.toNat s.drv.txsr ix) s =
        { s with
          drv := (s.drv.sent (s.env.now + BitVec.ofNat 32 (pulseTicks s.drv.tau.toNat s.drv.txsr ix)) ix).endOfSend
            (s.env.now + BitVec.ofNat 32 (pulseTicks s.drv.tau.toNat s.drv.txsr ix))
          env := { s.env with now := s.env.now + BitVec.ofNat 32 (pulseTicks s.drv.tau.toNat s.drv.txsr ix) } } ∧
      ∀ j < pulseTicks s.drv.tau.toNat s.drv.txsr ix, (State.ticks j s).drv.bus = .sending := by
  induction ix generalizing s with
  | zero =>
    have hw : (s.drv.due - s.env.now).toNat = pulseTicks s.drv.tau.toNat s.drv.txsr 0 := by
      rw [hdue, BitVec.add_comm, BitVec.add_sub_cancel, pulseWidth_ticks]; rfl
    have hpos : 1 ≤ (s.drv.due - s.env.now).toNat := by rw [hw]; exact replyWidth_pos htau _
    have hd : s.drv.due = s.env.now + BitVec.ofNat 32 (pulseTicks s.drv.tau.toNat s.drv.txsr 0) := by
      rw [← hw, BitVec.ofNat_toNat, BitVec.setWidth_eq, BitVec.add_comm, BitVec.sub_add_cancel]
    refine ⟨?_, fun j hj => ?_⟩
    · rw [← hd, ← hw, State.ticks_pulse ht hb hpos]
      have hbit0 : s.drv.bitix = 0 := hbit
      have h1 : s.drv.pinToggle = s.drv.sent s.drv.due 0 := by
        unfold Driver.pinToggle Driver.sent
        rw [← hbit0]
        simp
      rw [Driver.pulseEnd, if_pos hbit0, h1]
    · rw [State.ticks_in_pulse ht hb j (by omega)]; exact hb
  | succ ix ih =>
    have hw : (s.drv.due - s.env.now).toNat = replyWidth s.drv.tau.toNat (s.drv.txsr.getLsbD (ix + 1)) := by
      rw [hdue, BitVec.add_comm, BitVec.add_sub_cancel, pulseWidth_ticks]
    have hpos : 1 ≤ (s.drv.due - s.env.now).toNat := by rw [hw]; exact replyWidth_pos htau _
    have hne : s.drv.bitix ≠ 0 := fun e => by
      rw [hbit] at e
      have := congrArg BitVec.toNat e
      simp at this
      omega
    have hsub : s.drv.bitix - 1 = BitVec.ofNat 5 ix := by
      rw [hbit]
      apply BitVec.eq_of_toNat_eq
      rw [BitVec.toNat_sub]
      simp
      omega
    have hp := State.ticks_pulse ht hb hpos
    have hix' : (BitVec.ofNat 5 ix).toNat = ix := by simp; omega
    have hend : s.drv.pulseEnd = { s.drv with
        out := !s.drv.out, bitix := BitVec.ofNat 5 ix
        due := s.drv.due + pulseWidth s.drv.tau (s.drv.txsr.getLsbD ix) } := by
      rw [Driver.pulseEnd, if_neg hne, hsub, Driver.startPulse, hix']
      rfl
    rw [hend] at hp
    obtain ⟨h1, h2⟩ := ih (by omega) (s := { s with
      drv := { s.drv with
        out := !s.drv.out, bitix := BitVec.ofNat 5 ix
        due := s.drv.due + pulseWidth s.drv.tau (s.drv.txsr.getLsbD ix) }
      env := { s.env with now := s.drv.due } }) ht hb htau rfl rfl
    rw [hw] at hp
    have hsum : pulseTicks s.drv.tau.toNat s.drv.txsr (ix + 1) =
        replyWidth s.drv.tau.toNat (s.drv.txsr.getLsbD (ix + 1)) + pulseTicks s.drv.tau.toNat s.drv.txsr ix := rfl
    have hnow : s.env.now + BitVec.ofNat 32 (pulseTicks s.drv.tau.toNat s.drv.txsr (ix + 1)) =
        s.drv.due + BitVec.ofNat 32 (pulseTicks s.drv.tau.toNat s.drv.txsr ix) := by
      rw [hsum, BitVec.ofNat_add, ← BitVec.add_assoc, ← hw, BitVec.ofNat_toNat, BitVec.setWidth_eq,
        BitVec.add_comm s.env.now, BitVec.sub_add_cancel]
    refine ⟨?_, fun j hj => ?_⟩
    · rw [hnow, hsum, State.ticks_add, hp, h1]
      have hout : ((!s.drv.out) ^^ decide (ix % 2 = 0)) = (s.drv.out ^^ decide ((ix + 1) % 2 = 0)) := by
        have : decide ((ix + 1) % 2 = 0) = !decide (ix % 2 = 0) := by
          by_cases h : ix % 2 = 0 <;> simp [h] <;> omega
        rw [this]
        cases s.drv.out <;> cases decide (ix % 2 = 0) <;> rfl
      simp only [Driver.sent, hout]
    · by_cases hj' : j < (s.drv.due - s.env.now).toNat
      · rw [State.ticks_in_pulse ht hb j hj']; exact hb
      · have hjsplit : j = replyWidth s.drv.tau.toNat (s.drv.txsr.getLsbD (ix + 1)) +
            (j - replyWidth s.drv.tau.toNat (s.drv.txsr.getLsbD (ix + 1))) := by omega
        rw [hjsplit, State.ticks_add, hp]
        exact h2 _ (by show _ < pulseTicks s.drv.tau.toNat s.drv.txsr ix; omega)

/-- The driver when a word has been sent from Begin: back at the level the send began with (R102, R128). -/
def Driver.wordSent (t : Word) (d : Driver) : Driver :=
  ({ d with bus := .sending, bitix := 0, due := t } : Driver).endOfSend t

/-- A word from Begin: one tick to the first level change, then the word's ticks; STATE is Begin, then Sending, until the last
of them ends the send (R126 to R128, R137). -/
theorem State.ticks_word {s : State} (ht : s.env.ticksLeft = none) (hb : s.drv.bus = .begin) (htau : 1 ≤ s.drv.tau.toNat) :
    let n := 1 + sendTicks s.drv.tau (s.drv.txsr.setWidth 17)
    State.ticks n s =
        { s with
          drv := s.drv.wordSent (s.env.now + BitVec.ofNat 32 n)
          env := { s.env with now := s.env.now + BitVec.ofNat 32 n } } ∧
      ∀ j < n, (State.ticks j s).drv.bus = .begin ∨ (State.ticks j s).drv.bus = .sending := by
  intro n
  have h1 : s.tick = { s with drv := s.drv.tickBegin (s.env.now + 1), env := { s.env with now := s.env.now + 1 } } := by
    rw [State.tick_running ht, Driver.tick, hb]
    rfl
  obtain ⟨hp, hj⟩ := State.ticks_pulses 16 (by omega) (s := { s with
    drv := s.drv.tickBegin (s.env.now + 1), env := { s.env with now := s.env.now + 1 } }) ht rfl htau rfl rfl
  have hw : pulseTicks s.drv.tau.toNat s.drv.txsr 16 = sendTicks s.drv.tau (s.drv.txsr.setWidth 17) :=
    pulseTicks_word s.drv.tau s.drv.txsr
  have hn : s.env.now + BitVec.ofNat 32 n = s.env.now + 1 + BitVec.ofNat 32 (pulseTicks s.drv.tau.toNat s.drv.txsr 16) := by
    show s.env.now + BitVec.ofNat 32 (1 + _) = _
    rw [← hw, BitVec.ofNat_add, BitVec.add_assoc]
    rfl
  refine ⟨?_, fun j hjn => ?_⟩
  · show State.ticks (1 + _) s = _
    rw [hn, ← hw, State.ticks_add, State.ticks_succ, State.ticks_zero, h1]
    refine hp.trans ?_
    have hd : ((s.drv.tickBegin (s.env.now + 1)).sent
        (s.env.now + 1 + BitVec.ofNat 32 (pulseTicks s.drv.tau.toNat s.drv.txsr 16)) 16) =
        { s.drv with bus := .sending, bitix := 0
                     due := s.env.now + 1 + BitVec.ofNat 32 (pulseTicks s.drv.tau.toNat s.drv.txsr 16) } := by
      simp [Driver.sent, Driver.tickBegin, Driver.startPulse, Driver.pinToggle]
    unfold Driver.wordSent
    rw [← hd]
    rfl
  · cases j with
    | zero => exact .inl hb
    | succ j =>
      rw [State.ticks_succ, h1]
      exact .inr (hj j (by show j < pulseTicks s.drv.tau.toNat s.drv.txsr 16; omega))

/-- `spinFuel` is more than any number of ticks below 2^33. -/
theorem lt_spinFuel {n : Nat} (h : n < 2 ^ 33) : n < spinFuel := by
  have : (2 : Nat) ^ 33 ≤ spinFuel := by decide
  omega

theorem sendTicks_le (tau : Byte) (w : WireWord) : sendTicks tau w ≤ 51 * tau.toNat := by
  have : popcount w ≤ 17 := by
    unfold popcount
    exact List.countP_le_length.trans (by simp)
  unfold sendTicks
  calc tau.toNat * (17 + 2 * popcount w) ≤ tau.toNat * 51 := Nat.mul_le_mul_left _ (by omega)
    _ = 51 * tau.toNat := Nat.mul_comm _ _

theorem sendTicks_lt (tau : Byte) (w : WireWord) : sendTicks tau w < 2 ^ 14 := by
  have := sendTicks_le tau w
  have := tau.isLt
  omega

/-- The word an exchange arms the driver with is in TXSR[16:0] whole. -/
@[simp] theorem armed_word (w : WireWord) : ((w.setWidth 32 : Word).setWidth 17 : WireWord) = w := by
  apply BitVec.eq_of_toNat_eq
  simp

/-- A SendOnly exchange with no cycle in progress: its answer is Idle, and the end state is this one (R190, R191). -/
theorem State.exchange_sendOnly {s : State} (c : Code) (p : Byte) (hs : s.Undisturbed)
    (hr : s.drv.bus.ready = true) (htau : 1 ≤ s.drv.tau.toNat) :
    ∃ t, s.exchange c p .sendOnly = .done .idle { s with
      drv := { s.drv with
        bus := .idle, mode := .sendOnly, txsr := (wireWord c p).setWidth 32, dir := .output, bitix := 0, due := t }
      env := { s.env with
        now := s.env.now + BitVec.ofNat 32 (lagTicks s + 1 + sendTicks s.drv.tau (wireWord c p) + 5 * s.drv.tau.toNat)
        lag := s.env.lag.drop 2
        sent := (wireWord c p, .sendOnly) :: s.env.sent } } := by
  have ht := hs.1
  have hpause := State.pause_ready ht hr
  obtain ⟨hw, hj⟩ := State.ticks_word (s := s.pause.beginTransfer ((wireWord c p).setWidth 32) .sendOnly)
    (by rw [hpause, State.beginTransfer_ready (by exact hr)]; exact ht)
    (by rw [hpause, State.beginTransfer_ready (by exact hr)])
    (by rw [hpause, State.beginTransfer_ready (by exact hr)]; exact htau)
  rw [hpause, State.beginTransfer_ready (by exact hr)] at hw hj
  simp only [armed_word] at hw hj
  have hlt := sendTicks_lt s.drv.tau (wireWord c p)
  refine ⟨s.env.now + BitVec.ofNat 32 (s.env.lag.take 1).sum +
    BitVec.ofNat 32 (1 + sendTicks s.drv.tau (wireWord c p)), ?_⟩
  unfold State.exchange
  rw [hpause, State.moment_calm (by exact hs.2), State.beginTransfer_ready (by exact hr), State.awaitReady]
  simp only [armed_word]
  rw [State.spin_of_first (k := 1 + sendTicks s.drv.tau (wireWord c p)) (by exact hs) (lt_spinFuel (by omega))
    (by rw [hw]; rfl) fun j hjk => by rcases hj j hjk with e | e <;> rw [e] <;> rfl]
  rw [hw]
  simp only [Run.andThen_done]
  rw [State.pause_ready (by exact ht) (by rfl), State.guard_eq_ticks (by exact hs), State.ticks_ready _ (by exact ht) (by rfl)]
  have hl : lagTicks s = (s.env.lag.take 1).sum + (s.env.lag.tail.take 1).sum := by
    unfold lagTicks
    rcases s.env.lag with _ | ⟨a, _ | ⟨b, r⟩⟩ <;> simp
  have ht2 : s.env.lag.tail.tail = s.env.lag.drop 2 := by
    rcases s.env.lag with _ | ⟨a, _ | ⟨b, r⟩⟩ <;> simp
  have hnow : s.env.now + BitVec.ofNat 32 (s.env.lag.take 1).sum + BitVec.ofNat 32 (1 + sendTicks s.drv.tau (wireWord c p)) +
      BitVec.ofNat 32 (s.env.lag.tail.take 1).sum + BitVec.ofNat 32 (5 * s.drv.tau.toNat) =
      s.env.now + BitVec.ofNat 32 (lagTicks s + 1 + sendTicks s.drv.tau (wireWord c p) + 5 * s.drv.tau.toNat) := by
    rw [hl]
    simp only [BitVec.add_assoc, ← BitVec.ofNat_add]
    congr 2
    omega
  rw [← hnow, ← ht2]
  rfl

end Sys2Proof.Machine
end

