-- ==== Sys2Proof/Laws/Poll.lean ====
section
/-! SUPPORT. What a poll comes to: a quiet tick, an edge, a timeout, the end of every poll; and that every wait of the foreground
ends while ticks arrive. -/

namespace Sys2Proof.Machine

/-- The ticks since the poll began (R130). -/
def State.elapsed (s : State) : Nat := (s.env.now - s.drv.timeline[0]).toNat

/-- The budget of the poll in progress (R130). -/
def State.budget (s : State) : Nat := (pollBudget s.par s.drv.mode s.drv.tau).toNat

theorem State.budget_pos (s : State) : 1 ≤ s.budget := by
  have key (raw : Word) : 1 ≤ (if raw = 0 then (1 : Word) else raw).toNat := by
    split
    · decide
    · next h =>
      rcases Nat.eq_zero_or_pos raw.toNat with e | e
      · exact absurd (BitVec.eq_of_toNat_eq e) h
      · exact e
  exact key _

/-- Between two ticks the time since the poll's start goes up by one (R7, R29). -/
theorem elapsed_succ {now t0 : Word} (h : (now - t0).toNat + 1 < 2 ^ 32) : (now + 1 - t0).toNat = (now - t0).toNat + 1 := by
  have e1 : (1 : Word).toNat = 1 := rfl
  have h1 := now.isLt
  have h2 := t0.isLt
  rw [BitVec.toNat_sub] at h ⊢
  rw [BitVec.toNat_sub, BitVec.toNat_add, e1]
  omega

/-- A tick in a poll (R129, R130). -/
theorem State.tick_polling {s : State} (ht : s.env.ticksLeft = none) (hp : s.drv.bus.polling = true) :
    s.tick = { s with
      drv := s.drv.tickPoll s.par (s.env.now + 1) s.env.lineLevel
      env := { s.env.sampled with now := s.env.now + 1 } } := by
  rw [State.tick_running ht, Driver.tick]
  cases hb : s.drv.bus <;> rw [hb] at hp <;> simp [BusState.polling] at hp <;> rfl

/-- In a poll the pin reads the line (R30, R128). -/
theorem State.pinRead_polling {s : State} (h : s.Inv) (hp : s.drv.bus.polling = true) (l : Level) : s.drv.pinRead l = l := by
  unfold Driver.pinRead
  rw [h.2.1.2 hp]

/-- A tick of a poll at which the line is at its last level and the budget is not spent moves the counter alone (R129). -/
theorem State.tick_quiet {s : State} {rest : List Level} (h : s.Inv) (ht : s.env.ticksLeft = none)
    (hp : s.drv.bus.polling = true) (hl : s.env.lineIn = s.drv.last :: rest) (hb : s.elapsed + 1 < s.budget) :
    s.tick = { s with env := { s.env with now := s.env.now + 1, lineIn := rest } } := by
  have hlev : s.env.lineLevel = s.drv.last := by unfold Env.lineLevel; rw [hl]
  have hlt : s.budget < 2 ^ 32 := (pollBudget s.par s.drv.mode s.drv.tau).isLt
  have he : (s.env.now + 1 - s.drv.timeline[0]).toNat = s.elapsed + 1 :=
    elapsed_succ (by unfold State.elapsed at hb; omega)
  have hns : ¬ pollBudget s.par s.drv.mode s.drv.tau ≤ s.env.now + 1 - s.drv.timeline[0] := by
    rw [BitVec.le_def, he]
    unfold State.budget at hb
    omega
  have hs : s.env.sampled = { s.env with lineIn := rest } := by unfold Env.sampled; rw [hl]
  rw [State.tick_polling ht hp, hlev, hs]
  have hd : s.drv.tickPoll s.par (s.env.now + 1) s.drv.last = s.drv := by
    unfold Driver.tickPoll Driver.capture
    simp only [State.pinRead_polling h hp, if_true]
    unfold Driver.deadline
    rw [if_neg (by simp [hp]; simpa using hns)]
  rw [hd]

/-- Quiet ticks (R129). -/
theorem State.ticks_quiet (n : Nat) {s : State} {rest : List Level} (h : s.Inv) (ht : s.env.ticksLeft = none)
    (hp : s.drv.bus.polling = true) (hl : s.env.lineIn = List.replicate n s.drv.last ++ rest)
    (hb : s.elapsed + n < s.budget) :
    State.ticks n s = { s with env := { s.env with now := s.env.now + BitVec.ofNat 32 n, lineIn := rest } } := by
  induction n generalizing s with
  | zero => rw [State.ticks_zero]; simp at hl; simp [← hl]
  | succ n ih =>
    have h1 := State.tick_quiet h ht hp (rest := List.replicate n s.drv.last ++ rest)
      (by rw [hl]; rfl) (by omega)
    have hi := State.tick_inv h
    have hlt : s.budget < 2 ^ 32 := (pollBudget s.par s.drv.mode s.drv.tau).isLt
    have he : (s.env.now + 1 - s.drv.timeline[0]).toNat = s.elapsed + 1 :=
      elapsed_succ (by unfold State.elapsed at hb; omega)
    rw [State.ticks_succ]
    rw [h1] at hi ⊢
    rw [ih hi ht hp rfl (by
      have e : State.elapsed { s with env := { s.env with
          now := s.env.now + 1, lineIn := List.replicate n s.drv.last ++ rest } } = s.elapsed + 1 := he
      rw [e]
      show s.elapsed + 1 + n < s.budget
      omega)]
    simp only [BitVec.add_assoc]
    congr 3
    apply BitVec.eq_of_toNat_eq
    simp [BitVec.toNat_add]
    omega

/-- Edge capture leaves STATE or ends the poll in Idle (R129). -/
theorem Driver.capture_bus (t : Word) (l : Level) (d : Driver) :
    (d.capture t l).bus = .idle ∨ (d.capture t l).bus = d.bus := by
  by_cases h : d.pinRead l = d.last
  · right; simp [Driver.capture, h]
  · by_cases hc : d.nedge + 1 = d.mode.cap
    · left; unfold Driver.capture; rw [if_neg h, if_pos hc]
    · right; unfold Driver.capture; rw [if_neg h, if_neg hc]

/-- What a tick of a poll can do: end it, or go on in the same poll with the start of the poll and the budget as they were and
the budget not spent (R129, R130). -/
theorem State.tick_poll_cases {s : State} (h : s.Inv) (ht : s.env.ticksLeft = none) (hp : s.drv.bus.polling = true) :
    s.tick.drv.bus.ready = true ∨
      (s.tick.drv.bus = s.drv.bus ∧ s.tick.drv.timeline[0] = s.drv.timeline[0] ∧ s.tick.budget = s.budget ∧
        s.tick.elapsed < s.budget) := by
  have hbud : s.tick.budget = s.budget := by unfold State.budget; simp
  have hnow : s.tick.env.now = s.env.now + 1 := State.tick_now (running ht)
  have hcap := Driver.capture_inv (t := s.env.now + 1) (by rw [State.inv_iff] at h; exact h.1) hp s.env.lineLevel
  have hdrv : s.tick.drv = (s.drv.capture (s.env.now + 1) s.env.lineLevel).deadline s.par (s.env.now + 1) := by
    rw [State.tick_polling ht hp]; rfl
  have hkeep := Driver.capture_keeps (s.env.now + 1) s.env.lineLevel s.drv
  have ht0 : (s.drv.capture (s.env.now + 1) s.env.lineLevel).timeline[0] = s.drv.timeline[0] := by
    unfold Driver.capture
    by_cases hl : s.drv.pinRead s.env.lineLevel = s.drv.last
    · simp [hl]
    · have hne : s.drv.nedge.toNat ≠ 0 := by
        obtain ⟨_, _, _, _, ⟨_, h1, h2, _⟩, _⟩ := h
        cases hb : s.drv.bus <;> rw [hb] at hp <;> simp [BusState.polling] at hp
        · rw [(h1 hb).2]; decide
        · have := (h2 hb).2.1; omega
      simp [hl, hne]
  by_cases hcp : (s.drv.capture (s.env.now + 1) s.env.lineLevel).bus.polling = true
  · by_cases hd : pollBudget s.par s.drv.mode s.drv.tau ≤ s.env.now + 1 - s.drv.timeline[0]
    · left
      rw [hdrv, Driver.deadline, if_pos (by rw [hcp, hkeep.1, hkeep.2.2.1, ht0]; simpa using hd)]
      rfl
    · right
      have e : s.tick.drv = s.drv.capture (s.env.now + 1) s.env.lineLevel := by
        rw [hdrv, Driver.deadline, if_neg (by rw [hcp, hkeep.1, hkeep.2.2.1, ht0]; simpa using hd)]
      refine ⟨by rw [e]; exact hcap.2 hcp, by simp only [e]; exact ht0, hbud, ?_⟩
      unfold State.elapsed State.budget
      rw [hnow]
      simp only [e, ht0]
      rw [BitVec.le_def] at hd
      exact Nat.lt_of_not_le hd
  · left
    have e : s.tick.drv = s.drv.capture (s.env.now + 1) s.env.lineLevel := by
      rw [hdrv, Driver.deadline, if_neg (by rw [Bool.and_eq_true]; exact fun hc => hcp hc.1)]
    rcases Driver.capture_bus (s.env.now + 1) s.env.lineLevel s.drv with hb | hb
    · rw [e, hb]; rfl
    · rw [hb] at hcp; exact absurd hp hcp

/-- A poll ends within what is left of its budget, and STATE is the poll's until then (R79, R130). -/
theorem State.poll_ends (left : Nat) {s : State} (h : s.Inv) (ht : s.env.ticksLeft = none) (hp : s.drv.bus.polling = true)
    (hb : s.elapsed + left = s.budget) (hl : 1 ≤ left) :
    ∃ k ≤ left, (State.ticks k s).drv.bus.ready = true ∧ ∀ j < k, (State.ticks j s).drv.bus = s.drv.bus := by
  induction left generalizing s with
  | zero => omega
  | succ left ih =>
    rcases State.tick_poll_cases h ht hp with hr | ⟨e1, e2, e3, e4⟩
    · refine ⟨1, by omega, by simpa using hr, fun j hj => ?_⟩
      obtain rfl : j = 0 := by omega
      rfl
    · have hlt : s.budget < 2 ^ 32 := (pollBudget s.par s.drv.mode s.drv.tau).isLt
      have he : s.tick.elapsed = s.elapsed + 1 := by
        unfold State.elapsed
        rw [e2, State.tick_now (running ht)]
        exact elapsed_succ (by unfold State.elapsed at hb; omega)
      obtain ⟨k, hk, hkr, hkj⟩ := ih (State.tick_inv h) (by simpa using ht) (by rw [e1]; exact hp)
        (by rw [he, e3]; omega) (by omega)
      refine ⟨k + 1, by omega, hkr, fun j hj => ?_⟩
      cases j with
      | zero => rfl
      | succ j => rw [State.ticks_succ, hkj j (by omega), e1]

/-- Every poll ends, wherever it stands (R79). -/
theorem State.poll_ends_anywhere {s : State} (h : s.Inv) (ht : s.env.ticksLeft = none) (hp : s.drv.bus.polling = true) :
    ∃ k ≤ 2 ^ 32, (State.ticks k s).drv.bus.ready = true ∧ ∀ j < k, (State.ticks j s).drv.bus = s.drv.bus := by
  rcases State.tick_poll_cases h ht hp with hr | ⟨e1, _, e3, e4⟩
  · refine ⟨1, by omega, by simpa using hr, fun j hj => ?_⟩
    obtain rfl : j = 0 := by omega
    rfl
  · have hlt : s.budget < 2 ^ 32 := (pollBudget s.par s.drv.mode s.drv.tau).isLt
    obtain ⟨k, hk, hkr, hkj⟩ := State.poll_ends (s.budget - s.tick.elapsed) (State.tick_inv h) (by simpa using ht)
      (by rw [e1]; exact hp) (by rw [e3]; omega) (by omega)
    refine ⟨k + 1, by omega, hkr, fun j hj => ?_⟩
    cases j with
    | zero => rfl
    | succ j => rw [State.ticks_succ, hkj j (by omega), e1]

/-- The end of a send leaves Idle, or the poll state of the mode (R128). -/
theorem Driver.endOfSend_bus (t : Word) (d : Driver) :
    (d.endOfSend t).bus.ready = true ∨ (d.endOfSend t).bus.polling = true := by
  unfold Driver.endOfSend
  cases d.mode
  · exact .inl rfl
  · exact .inr rfl
  · exact .inr rfl

/-- A send ends, wherever it stands (R79, R137). -/
theorem State.send_ends {s : State} (h : s.Inv) (ht : s.env.ticksLeft = none) (hb : s.drv.bus = .sending) :
    ∃ k ≤ 2 ^ 15, ((State.ticks k s).drv.bus.ready = true ∨ (State.ticks k s).drv.bus.polling = true) ∧
      ∀ j < k, (State.ticks j s).drv.bus = .sending := by
  obtain ⟨⟨htau, hset⟩, _, _, ⟨hix, hp⟩, _⟩ := h
  obtain ⟨h1, h459⟩ := hp hb
  have htr := htau (hset (by rw [hb]; rfl))
  unfold longestPulse at h459
  have hpulse := State.ticks_pulse ht hb h1
  have hearly : ∀ j < (s.drv.due - s.env.now).toNat, (State.ticks j s).drv.bus = .sending := fun j hj => by
    rw [State.ticks_in_pulse ht hb j hj]; exact hb
  by_cases h0 : s.drv.bitix = 0
  · refine ⟨_, by omega, ?_, hearly⟩
    rw [hpulse]
    show s.drv.pulseEnd.bus.ready = true ∨ s.drv.pulseEnd.bus.polling = true
    rw [Driver.pulseEnd, if_pos h0]
    exact Driver.endOfSend_bus _ _
  · have hpos : s.drv.bitix.toNat ≠ 0 := fun e => h0 (BitVec.eq_of_toNat_eq e)
    have hsub : s.drv.bitix - 1 = BitVec.ofNat 5 (s.drv.bitix.toNat - 1) := by
      apply BitVec.eq_of_toNat_eq
      rw [BitVec.toNat_sub]
      simp
      omega
    have hsn : (BitVec.ofNat 5 (s.drv.bitix.toNat - 1)).toNat = s.drv.bitix.toNat - 1 := by simp; omega
    have hend : s.drv.pulseEnd = s.drv.pinToggle.startPulse s.drv.due (BitVec.ofNat 5 (s.drv.bitix.toNat - 1)) := by
      rw [Driver.pulseEnd, if_neg h0, hsub]
    rw [hend] at hpulse
    obtain ⟨h2, h3⟩ := State.ticks_pulses (s.drv.bitix.toNat - 1) (by omega) (s := { s with
        drv := s.drv.pinToggle.startPulse s.drv.due (BitVec.ofNat 5 (s.drv.bitix.toNat - 1))
        env := { s.env with now := s.drv.due } })
      ht hb (by show 1 ≤ s.drv.tau.toNat; omega) rfl (by
        show s.drv.due + pulseWidth s.drv.tau (s.drv.txsr.getLsbD (BitVec.ofNat 5 (s.drv.bitix.toNat - 1)).toNat) = _
        rw [hsn]
        rfl)
    have hle := pulseTicks_le s.drv.tau.toNat s.drv.txsr (s.drv.bitix.toNat - 1)
    have hmul : 3 * s.drv.tau.toNat * (s.drv.bitix.toNat - 1 + 1) ≤ 3 * 153 * 17 :=
      Nat.mul_le_mul (by omega) (by omega)
    refine ⟨(s.drv.due - s.env.now).toNat + pulseTicks s.drv.tau.toNat s.drv.txsr (s.drv.bitix.toNat - 1), by omega, ?_,
      fun j hj => ?_⟩
    · rw [State.ticks_add, hpulse]
      have e := congrArg (fun u => u.drv.bus) h2
      have e' : (State.ticks (pulseTicks s.drv.tau.toNat s.drv.txsr (s.drv.bitix.toNat - 1)) { s with
        drv := s.drv.pinToggle.startPulse s.drv.due (BitVec.ofNat 5 (s.drv.bitix.toNat - 1))
        env := { s.env with now := s.drv.due } }).drv.bus = _ := e
      rw [e']
      exact Driver.endOfSend_bus _ _
    · by_cases hj' : j < (s.drv.due - s.env.now).toNat
      · exact hearly j hj'
      · obtain ⟨i, rfl⟩ := Nat.exists_eq_add_of_le (Nat.le_of_not_lt hj')
        rw [State.ticks_add, hpulse]
        exact h3 i (by show i < pulseTicks s.drv.tau.toNat s.drv.txsr (s.drv.bitix.toNat - 1); omega)

/-- Every cycle ends, wherever it stands (R79). -/
theorem State.cycle_ends {s : State} (h : s.Inv) (ht : s.env.ticksLeft = none) :
    ∃ k ≤ 2 ^ 33, (State.ticks k s).drv.bus.ready = true ∧ ∀ j < k, (State.ticks j s).drv.bus.ready = false := by
  have hpoll : ∀ u : State, u.Inv → u.env.ticksLeft = none → u.drv.bus.polling = true →
      ∃ k ≤ 2 ^ 32, (State.ticks k u).drv.bus.ready = true ∧ ∀ j < k, (State.ticks j u).drv.bus.ready = false := by
    intro u hu hut hup
    obtain ⟨k, hk, hr, hj⟩ := State.poll_ends_anywhere hu hut hup
    refine ⟨k, hk, hr, fun j hjk => ?_⟩
    rw [hj j hjk]
    cases hb : u.drv.bus <;> rw [hb] at hup <;> simp [BusState.polling] at hup <;> rfl
  have hsend : ∀ u : State, u.Inv → u.env.ticksLeft = none → u.drv.bus = .sending →
      ∃ k ≤ 2 ^ 15 + 2 ^ 32, (State.ticks k u).drv.bus.ready = true ∧
        ∀ j < k, (State.ticks j u).drv.bus.ready = false := by
    intro u hu hut hub
    obtain ⟨k, hk, hr, hj⟩ := State.send_ends hu hut hub
    rcases hr with hr | hr
    · exact ⟨k, by omega, hr, fun j hjk => by rw [hj j hjk]; rfl⟩
    · obtain ⟨i, hi, hir, hij⟩ := hpoll _ (State.ticks_inv k hu) (by simpa using hut) hr
      refine ⟨k + i, by omega, by rw [State.ticks_add]; exact hir, fun j hjk => ?_⟩
      by_cases hjk' : j < k
      · rw [hj j hjk']; rfl
      · obtain ⟨l, rfl⟩ := Nat.exists_eq_add_of_le (Nat.le_of_not_lt hjk')
        rw [State.ticks_add]
        exact hij l (by omega)
  cases hb : s.drv.bus
  · exact ⟨0, by omega, by rw [State.ticks_zero, hb]; rfl, fun j hj => by omega⟩
  · have h1 : s.tick.drv.bus = .sending := by
      rw [State.tick_drv (running ht)]
      unfold Driver.tick
      rw [hb]
      rfl
    obtain ⟨k, hk, hr, hj⟩ := hsend s.tick (State.tick_inv h) (by simpa using ht) h1
    refine ⟨k + 1, by omega, hr, fun j hjk => ?_⟩
    cases j with
    | zero => rw [State.ticks_zero, hb]; rfl
    | succ j => exact hj j (by omega)
  · obtain ⟨k, hk, hr, hj⟩ := hsend s h ht hb
    exact ⟨k, by omega, hr, hj⟩
  · obtain ⟨k, hk, hr, hj⟩ := hpoll s h ht (by rw [hb]; rfl)
    exact ⟨k, by omega, hr, hj⟩
  · obtain ⟨k, hk, hr, hj⟩ := hpoll s h ht (by rw [hb]; rfl)
    exact ⟨k, by omega, hr, hj⟩
  · exact ⟨0, by omega, by rw [State.ticks_zero, hb]; rfl, fun j hj => by omega⟩

/-- Undisturbed, the foreground's wait ends at the first tick in Idle or Timeout, whatever the driver was doing (R79, R190). -/
theorem State.awaitReady_first {s : State} (h : s.Inv) (hs : s.Undisturbed) :
    ∃ k, s.awaitReady = .done () (State.ticks k s) ∧ (State.ticks k s).drv.bus.ready = true ∧
      ∀ j < k, (State.ticks j s).drv.bus.ready = false := by
  obtain ⟨k, hk, hr, hj⟩ := State.cycle_ends h hs.1
  have hf : (2 : Nat) ^ 33 < spinFuel := by decide
  exact ⟨k, State.spin_of_first hs (by omega) hr hj, hr, hj⟩

theorem State.awaitReady_not_hung {s : State} (h : s.Inv) (hs : s.env.ticksLeft = none) : s.awaitReady ≠ .hung := by
  obtain ⟨k, hk, hr, _⟩ := State.cycle_ends h hs
  have hf : (2 : Nat) ^ 33 < spinFuel := by decide
  exact State.spin_not_hung (fun _ _ => rfl) hs (k := k) (by omega) hr

/-- The machine may run any operation, and ticks go on arriving; rst may come inside it. -/
abbrev State.Going (s : State) : Prop := s.Armed ∧ s.env.ticksLeft = none

theorem State.tick_going (u : State) (h : u.Going) : u.tick.Going := ⟨State.tick_armed u h.1, by simp [h.2]⟩

theorem State.beginTransfer_going (w : Word) (m : Mode) (u : State) (h : u.Going) : (u.beginTransfer w m).Going := by
  refine ⟨State.beginTransfer_armed w m u h.1, ?_⟩
  unfold State.beginTransfer
  split
  · exact h.2
  · exact h.2

theorem State.pause_going {s : State} (h : s.Going) : s.pause.Going :=
  State.pause_induct h (fun _ _ hu => hu) State.tick_going

/-- While ticks arrive an exchange ends, whatever the line shows and whether or not a cycle is in progress, or rst cuts it off;
and if no rst was due none is due after it (R79, R190, R326). -/
theorem State.exchange_ends {s : State} (h : s.Going) (c : Code) (p : Byte) (m : Mode) :
    (s.exchange c p m).Ends (fun b t => t.Going ∧ (s.env.rstIn = none → t.env.rstIn = none) ∧ b.ready = true)
      fun t => t.Inv ∧ t.env.ticksLeft = none ∧ s.env.rstIn ≠ none := by
  refine ⟨?_, ?_⟩
  · have hx := State.exchange_sat (c := c) (p := p) (m := m) (s := s)
      (P := fun t => t.Going ∧ (s.env.rstIn = none → t.env.rstIn = none))
      (Q := fun t => t.Inv ∧ t.env.ticksLeft = none ∧ s.env.rstIn ≠ none) ⟨h, id⟩
      (fun u hu => ⟨State.tick_going u hu.1, by simpa using hu.2⟩)
      (fun u r hu hr => ⟨hu.1, fun hn => hr.2 (hu.2 hn)⟩) (fun u l hu => hu)
      (fun u hu => ⟨State.beginTransfer_going _ m u hu.1, by unfold State.beginTransfer; split <;> exact hu.2⟩)
      (fun u hu hn => ⟨State.rstLands_inv hu.1.1.1, hu.1.2, fun e => hn (hu.2 e)⟩)
    exact hx.mono (fun b t ht => ⟨ht.1.1, ht.1.2, ht.2⟩) fun _ ht => ht
  · refine State.moment_not_hung fun r => ?_
    have hb := State.beginTransfer_going ((wireWord c p).setWidth 32) m (s.pause.setRstIn r) (State.pause_going h)
    have hw := State.awaitReady_not_hung hb.1.1 hb.2
    have hg : (State.awaitReady ((s.pause.setRstIn r).beginTransfer ((wireWord c p).setWidth 32) m)).Sat
        (fun _ u => u.Going ∧ u.drv.bus.ready = true) fun _ => True :=
      State.spin_sat State.tick_going (fun _ _ hu _ => hu) (fun _ _ _ => trivial) spinFuel hb
    cases hr : State.awaitReady ((s.pause.setRstIn r).beginTransfer ((wireWord c p).setWidth 32) m) with
    | done a u =>
      rw [hr] at hg
      have hd := State.delay_not_hung (State.pause_going hg.1).2 (5 * u.pause.drv.tau.setWidth 32)
      rw [Run.andThen_done, State.guard]
      cases hx : State.delay (5 * u.pause.drv.tau.setWidth 32) u.pause with
      | done _ _ => simp
      | cut _ => simp
      | hung => exact absurd hx hd
    | cut u => simp
    | hung => exact absurd hr hw

end Sys2Proof.Machine
end

