-- ==== Sys2Proof/Laws/Metered.lean ====
section
/-! SUPPORT. How many ticks a run of foreground steps takes, and what it comes to when the tick source stops before them (R79). -/

namespace Sys2Proof.Machine

/-- With the source going on the run is done after `m` ticks; with fewer to come it hangs, with as many or more it is done in
the same state but for the ticks still to come. -/
def Metered {α : Type} (f : State → Run α) (s : State) : Prop :=
  ∃ (m : Nat) (a : α) (t : State), f (s.setTicksLeft none) = .done a t ∧ t.env.now = s.env.now + BitVec.ofNat 32 m ∧
    (∀ n, n < m → f (s.setTicksLeft (some n)) = .hung) ∧
    ∀ n, m ≤ n → f (s.setTicksLeft (some n)) = .done a (t.setTicksLeft (some (n - m)))

/-- Steps that take no tick and are not changed by the ticks still to come. -/
theorem Metered.pure {α : Type} {f : State → Run α} {s t : State} {a : α} (h : f (s.setTicksLeft none) = .done a t)
    (hn : t.env.now = s.env.now) (hl : ∀ n, f (s.setTicksLeft (some n)) = .done a (t.setTicksLeft (some n))) : Metered f s :=
  ⟨0, a, t, h, by simp [hn], by simp, fun n _ => hl n⟩

/-- One run after another takes the ticks of both. -/
theorem Metered.andThen {α β : Type} {f : State → Run α} {k : α → State → Run β} {s : State} (hf : Metered f s)
    (hk : ∀ a t, f (s.setTicksLeft none) = .done a t → t.env.ticksLeft = none ∧ Metered (k a) t) :
    Metered (fun u => (f u).andThen k) s := by
  obtain ⟨m, a, t, h, hnow, hlt, hge⟩ := hf
  obtain ⟨ht, m', b, v, h', hnow', hlt', hge'⟩ := hk a t h
  rw [State.setTicksLeft_self ht] at h'
  refine ⟨m + m', b, v, by simp only [h, Run.andThen_done, h'], ?_, fun n hn => ?_, fun n hn => ?_⟩
  · rw [hnow', hnow, BitVec.ofNat_add, BitVec.add_assoc]
  · by_cases hm : n < m
    · simp only [hlt n hm, Run.andThen_hung]
    · simp only [hge n (by omega), Run.andThen_done]
      exact hlt' (n - m) (by omega)
  · simp only [hge n (by omega), Run.andThen_done]
    rw [hge' (n - m) (by omega), Nat.sub_sub]

/-- A result made of a run's takes no tick. -/
theorem Metered.map {α β : Type} {f : State → Run α} {g : α → β} {s : State} (hf : Metered f s) :
    Metered (fun u => (f u).map g) s := by
  obtain ⟨m, a, t, h, hnow, hlt, hge⟩ := hf
  exact ⟨m, g a, t, by simp [h], hnow, fun n hn => by simp [hlt n hn], fun n hn => by simp [hge n hn]⟩

/-- An operation made of such a run ends after its ticks or hangs. -/
theorem Metered.finish {α : Type} {f : State → Run α} {s : State} (hf : Metered f s) (answer : α → State → State)
    (ha : ∀ a u, (answer a u).env.now = u.env.now)
    (hl : ∀ a u r, answer a (State.setTicksLeft r u) = (answer a u).setTicksLeft r) :
    ∃ (m : Nat) (t : State), Machine.finish answer (f (s.setTicksLeft none)) = .next t ∧
      t.env.now = s.env.now + BitVec.ofNat 32 m ∧
      (∀ n, n < m → Machine.finish answer (f (s.setTicksLeft (some n))) = .fault .spinNeverEnds) ∧
      ∀ n, m ≤ n → Machine.finish answer (f (s.setTicksLeft (some n))) = .next (t.setTicksLeft (some (n - m))) := by
  obtain ⟨m, a, t, h, hnow, hlt, hge⟩ := hf
  exact ⟨m, answer a t, by rw [h]; rfl, by rw [ha, hnow], fun n hn => by rw [hlt n hn]; rfl,
    fun n hn => by rw [hge n hn, ← hl]; rfl⟩

/-- A wait that ends at its `k`-th tick takes `k` ticks. -/
theorem State.spin_metered {p : State → Bool} (hp : ∀ u r, p (State.setTicksLeft r u) = p u) {fuel k : Nat} {s : State}
    (hr : s.env.rstIn = none) (hk : k < fuel) (h : p (State.ticks k (s.setTicksLeft none)) = true)
    (hj : ∀ j < k, p (State.ticks j (s.setTicksLeft none)) = false) :
    State.spin p fuel (s.setTicksLeft none) = .done () (State.ticks k (s.setTicksLeft none)) ∧
      (∀ n, n < k → State.spin p fuel (s.setTicksLeft (some n)) = .hung) ∧
      ∀ n, k ≤ n →
        State.spin p fuel (s.setTicksLeft (some n)) = .done () ((State.ticks k (s.setTicksLeft none)).setTicksLeft (some (n - k))) := by
  have hl (n j : Nat) (hjn : j ≤ n) : State.ticks j (s.setTicksLeft (some n)) =
      (State.ticks j (s.setTicksLeft none)).setTicksLeft (some (n - j)) := State.ticks_left j rfl hjn
  refine ⟨State.spin_of_first ⟨rfl, hr⟩ hk h hj, fun n hn => State.spin_stops (n := n) rfl hr fun j hjn => ?_, fun n hn => ?_⟩
  · rw [hl n j hjn, hp]; exact hj j (by omega)
  · induction fuel generalizing s k n with
    | zero => omega
    | succ fuel ih =>
      unfold State.spin
      rw [State.moment_calm (by exact hr)]
      cases k with
      | zero =>
        rw [State.ticks_zero, hp] at h
        rw [if_pos (by rw [hp]; exact h)]
        rfl
      | succ k =>
        obtain ⟨n, rfl⟩ : ∃ i, n = i + 1 := ⟨n - 1, by omega⟩
        have h0 := hj 0 (by omega)
        rw [State.ticks_zero, hp] at h0
        rw [if_neg (by rw [hp]; simp [h0]), if_neg (by simp [State.setTicksLeft])]
        have e : (s.setTicksLeft (some (n + 1))).tick = (s.setTicksLeft none).tick.setTicksLeft (some n) := State.tick_left rfl
        have en : (s.setTicksLeft none).tick.setTicksLeft none = (s.setTicksLeft none).tick :=
          State.setTicksLeft_self (by simp)
        rw [e]
        have hi := ih (s := (s.setTicksLeft none).tick) (k := k) (by simpa using hr) (by omega) (by rw [en]; exact h)
          (fun j hjk => by rw [en]; exact hj (j + 1) (by omega))
          (fun n' j hjn => State.ticks_left j rfl hjn) n (by omega)
        rw [hi, en, Nat.add_sub_add_right]
        rfl

/-- Once no tick comes any more a guard delay hangs (R79, R134). -/
theorem State.guard_stuck {s : State} (ht : s.env.ticksLeft = some 0) (hr : s.env.rstIn = none) (htau : 1 ≤ s.drv.tau.toNat) :
    s.guard = .hung := by
  refine State.spin_stopped ht hr ?_
  have h5 := State.five_tau_toNat s.drv.tau
  have h0 : (0#32).toNat = 0 := rfl
  simp only [BitVec.sub_self, decide_eq_false_iff_not, BitVec.le_def]
  omega

/-- A guard delay takes 5 TAU ticks (R134). -/
theorem State.guard_metered {s : State} (hr : s.env.rstIn = none) :
    (s.setTicksLeft none).guard = .done () (State.ticks (5 * s.drv.tau.toNat) (s.setTicksLeft none)) ∧
      (∀ n, n < 5 * s.drv.tau.toNat → (s.setTicksLeft (some n)).guard = .hung) ∧
      ∀ n, 5 * s.drv.tau.toNat ≤ n → (s.setTicksLeft (some n)).guard =
        .done () ((State.ticks (5 * s.drv.tau.toNat) (s.setTicksLeft none)).setTicksLeft (some (n - 5 * s.drv.tau.toNat))) := by
  have h5 := State.five_tau_toNat s.drv.tau
  have htau := s.drv.tau.isLt
  have hf : (2 : Nat) ^ 33 < spinFuel := by decide
  refine State.spin_metered (p := fun v => decide (5 * s.drv.tau.setWidth 32 ≤ v.env.now - s.env.now)) (fun _ _ => rfl) hr
    (by omega) ?_ fun j hj => ?_
  · rw [decide_eq_true_iff, State.ticks_now _ rfl, State.setTicksLeft_env, BitVec.add_comm s.env.now, BitVec.add_sub_cancel,
      ← h5, BitVec.ofNat_toNat, BitVec.setWidth_eq]
    exact BitVec.le_refl _
  · exact State.delay_goes_on (s := s.setTicksLeft none) rfl _ j (by rw [h5]; exact hj)

/-- Once no tick comes any more the rest of an exchange hangs: its wait, or, if that is over, its guard delay (R79). -/
theorem State.exchange_stuck {s : State} (ht : s.env.ticksLeft = some 0) (hr : s.env.rstIn = none) (htau : 1 ≤ s.drv.tau.toNat) :
    (s.awaitReady.andThen fun _ u => u.pause.guard.map fun _ => u.drv.bus) = .hung := by
  have hw : s.awaitReady = .hung ∨ s.awaitReady = .done () s := by
    cases h : s.drv.bus.ready
    · exact .inl (State.spin_stopped ht hr h)
    · right
      have e : spinFuel = spinFuel - 1 + 1 := by decide
      unfold State.awaitReady
      rw [e, State.spin, State.moment_calm hr, if_pos h]
  rcases hw with h | h
  · rw [h, Run.andThen_hung]
  · obtain ⟨n, e⟩ := State.pause_cases s
    rw [h, Run.andThen_done, State.guard_stuck (by rw [e]; simp [ht]) (by rw [e]; simpa using hr) (by rw [e]; simpa using htau),
      Run.map_hung]

/-- A pause takes its ticks; with fewer to come it leaves a source that has stopped. -/
theorem State.pause_left (s : State) :
    ∃ l, (s.setTicksLeft none).pause.env.now = s.env.now + BitVec.ofNat 32 l ∧
      (∀ n, n < l → (s.setTicksLeft (some n)).pause.env.ticksLeft = some 0) ∧
      ∀ n, l ≤ n → (s.setTicksLeft (some n)).pause = (s.setTicksLeft none).pause.setTicksLeft (some (n - l)) := by
  unfold State.pause
  cases h : s.env.lag with
  | nil => exact ⟨0, by simp [h], by simp, fun n _ => by simp [h]⟩
  | cons l rest =>
    have h' (r : Option Nat) : (s.setTicksLeft r).env.lag = l :: rest := h
    refine ⟨l, ?_, fun n hn => ?_, fun n hn => ?_⟩ <;> simp only [h']
    · exact State.ticks_now l rfl
    · rw [State.ticks_ticksLeft]
      simp only [State.setTicksLeft_env, Option.map_some, Option.some.injEq]
      omega
    · exact State.ticks_left l rfl hn

/-- An exchange takes some ticks: with fewer to come it hangs, with as many or more it ends in the same state (R79, R190). -/
theorem State.exchange_metered {s : State} (h : s.Armed) (hr : s.env.rstIn = none) (c : Code) (p : Byte) (m : Mode) :
    Metered (fun u => u.exchange c p m) s := by
  obtain ⟨l, hl, hlt, hge⟩ := State.pause_left s
  generalize hw : ((wireWord c p).setWidth 32 : Word) = w
  have hg0 : (s.setTicksLeft none).pause.Going := State.pause_going (s := s.setTicksLeft none) ⟨h, rfl⟩
  have hr0 (r : Option Nat) : (s.setTicksLeft r).pause.env.rstIn = none := by
    obtain ⟨n, e⟩ := State.pause_cases (s.setTicksLeft r)
    rw [e]
    simpa using hr
  have htau (r : Option Nat) : (s.setTicksLeft r).pause.drv.tau = s.drv.tau := by
    obtain ⟨n, e⟩ := State.pause_cases (s.setTicksLeft r)
    rw [e]
    simp
  have htau1 : 1 ≤ s.drv.tau.toNat := by have := (h.1.1.1 h.2).1; omega
  have hbt (u : State) (r : Option Nat) : (u.setTicksLeft r).beginTransfer w m = (u.beginTransfer w m).setTicksLeft r := by
    unfold State.beginTransfer
    by_cases hb : u.drv.bus.ready = true
    · rw [if_pos hb, if_pos (by exact hb)]; rfl
    · rw [if_neg hb, if_neg (by exact hb)]
  have hbe (u : State) : (u.beginTransfer w m).env.rstIn = u.env.rstIn ∧ (u.beginTransfer w m).env.ticksLeft = u.env.ticksLeft ∧
      (u.beginTransfer w m).drv.tau = u.drv.tau ∧ (u.beginTransfer w m).env.now = u.env.now := by
    unfold State.beginTransfer; split <;> exact ⟨rfl, rfl, rfl, rfl⟩
  have hx (r : Option Nat) : (s.setTicksLeft r).exchange c p m =
      ((s.setTicksLeft r).pause.beginTransfer w m).awaitReady.andThen fun _ u => u.pause.guard.map fun _ => u.drv.bus := by
    unfold State.exchange
    rw [State.moment_calm (hr0 r), hw]
  generalize hb0 : (s.setTicksLeft none).pause.beginTransfer w m = b0 at *
  have hgb : b0.Going := by rw [← hb0]; exact State.beginTransfer_going w m _ hg0
  have hrb : b0.env.rstIn = none := by rw [← hb0, (hbe _).1, hr0]
  have htb : b0.drv.tau = s.drv.tau := by rw [← hb0, (hbe _).2.2.1, htau]
  have hnb : b0.env.now = s.env.now + BitVec.ofNat 32 l := by rw [← hb0, (hbe _).2.2.2, hl]
  have hself : b0.setTicksLeft none = b0 := State.setTicksLeft_self hgb.2
  obtain ⟨k, hk, hkr, hkj⟩ := State.cycle_ends hgb.1.1 hgb.2
  have hf : (2 : Nat) ^ 33 < spinFuel := by decide
  obtain ⟨w1, w2, w3⟩ := State.spin_metered (p := fun u => u.drv.bus.ready) (fun _ _ => rfl) (fuel := spinFuel) (k := k) (s := b0)
    hrb (by omega) (by rw [hself]; exact hkr) (fun j hj => by rw [hself]; exact hkj j hj)
  rw [hself] at w1 w3
  generalize hu : State.ticks k b0 = u at *
  have hru : u.env.rstIn = none := by rw [← hu, State.ticks_rstIn, hrb]
  have htu : u.env.ticksLeft = none := by rw [← hu, State.ticks_ticksLeft, hgb.2]; rfl
  have htauu : u.drv.tau = s.drv.tau := by rw [← hu, State.ticks_tau, htb]
  have hnu : u.env.now = b0.env.now + BitVec.ofNat 32 k := by rw [← hu, State.ticks_now k hgb.2]
  obtain ⟨l', hl', hlt', hge'⟩ := State.pause_left u
  rw [State.setTicksLeft_self htu] at hl' hge'
  have hpu (r : Option Nat) : (u.setTicksLeft r).pause.env.rstIn = none ∧ (u.setTicksLeft r).pause.drv.tau = s.drv.tau := by
    obtain ⟨n, e⟩ := State.pause_cases (u.setTicksLeft r)
    rw [e]
    exact ⟨by simpa using hru, by simpa using htauu⟩
  have hpt : u.pause.env.ticksLeft = none := by
    obtain ⟨n, e⟩ := State.pause_cases u
    rw [e]
    simp [htu]
  obtain ⟨hpr, hptau⟩ := hpu none
  rw [State.setTicksLeft_self htu] at hpr hptau
  obtain ⟨g1, g2, g3⟩ := State.guard_metered hpr
  rw [State.setTicksLeft_self hpt, hptau] at g1 g3
  rw [hptau] at g2
  refine ⟨l + k + l' + 5 * s.drv.tau.toNat, u.drv.bus, State.ticks (5 * s.drv.tau.toNat) u.pause, ?_, ?_, fun n hn => ?_,
    fun n hn => ?_⟩
  · simp only [hx, hb0, State.awaitReady, w1, Run.andThen_done, g1, Run.map_done]
  · rw [State.ticks_now _ hpt, hl', hnu, hnb]
    simp only [BitVec.ofNat_add, BitVec.add_assoc]
  · simp only [hx]
    by_cases h1 : n < l
    · exact State.exchange_stuck (by rw [(hbe _).2.1]; exact hlt n h1) (by rw [(hbe _).1]; exact hr0 _)
        (by rw [(hbe _).2.2.1, htau]; exact htau1)
    · rw [hge n (by omega), hbt, hb0, State.awaitReady]
      by_cases h2 : n - l < k
      · rw [w2 _ h2, Run.andThen_hung]
      · rw [w3 _ (by omega), Run.andThen_done]
        by_cases h3 : n - l - k < l'
        · rw [State.guard_stuck (hlt' _ h3) (hpu _).1 (by rw [(hpu _).2]; exact htau1), Run.map_hung]
        · rw [hge' _ (by omega), g2 _ (by omega), Run.map_hung]
  · simp only [hx]
    rw [hge n (by omega), hbt, hb0, State.awaitReady, w3 _ (by omega), Run.andThen_done, hge' _ (by omega), g3 _ (by omega),
      Run.map_done]
    simp only [Nat.sub_sub]
    rfl

end Sys2Proof.Machine
end

