-- ==== Sys2Proof/Laws/PerInstr.lean ====
section
/-! SUPPORT. The family Selector: the request the encoder gives an instruction has the fixed bits of the instruction's row of
spec/opcode_table.json, numbered as the table numbers them (30_encoding.md R92, R99, R100, R106). -/

namespace Sys2Proof.Laws

set_option Elab.async false

/-- The bits of a request as the table numbers them: OP, or the logical word. -/
def Selector.bits : Request → Nat
  | .host op _ _ _ _ => op.toNat
  | .wire w => w.toNat

/-- The columns match and mask of the instruction's row. -/
def Selector.row : Instr → Nat × Nat
  | .setTau _ => (0x01, 0xFF)
  | .getTau => (0x02, 0xFF)
  | .beginTransfer _ _ => (0x03, 0xFF)
  | .currentState => (0x04, 0xFF)
  | .delayUs _ => (0x05, 0xFF)
  | .guardDelay => (0x06, 0xFF)
  | .busLineIdle => (0x07, 0xFF)
  | .encode _ _ => (0x10, 0xFF)
  | .decode _ _ => (0x11, 0xFF)
  | .checkParity _ => (0x12, 0xFF)
  | .checkInversionMajority _ => (0x13, 0xFF)
  | .sendOnly _ _ => (0x20, 0xFF)
  | .sendPollInterrupt _ _ => (0x21, 0xFF)
  | .sendPollPacket _ _ => (0x22, 0xFF)
  | .writeAddrSpace _ _ _ => (0x23, 0xFF)
  | .readAddrSpace _ _ _ => (0x24, 0xFF)
  | .readAddrReverse _ _ _ => (0x25, 0xFF)
  | .readRegisters _ _ => (0x26, 0xFF)
  | .writeRegisters _ _ => (0x27, 0xFF)
  | .reverseByteOrder _ _ => (0x28, 0xFF)
  | .searchId => (0x30, 0xFF)
  | .writeData _ => (0x08000, 0x1E000)
  | .extendedRegAddr _ => (0x0A000, 0x1E000)
  | .writeRegAddr _ => (0x0C000, 0x1E000)
  | .readRegAddr _ => (0x0E000, 0x1E000)
  | .busReset => (0x10000, 0x1FFE0)
  | .discoverStart => (0x11000, 0x1FFE0)
  | .enterBranch0 => (0x11080, 0x1FFE0)
  | .enterBranch1 => (0x110A0, 0x1FFE0)
  | .probeBranch0 => (0x110C0, 0x1FFE0)
  | .probeBranch1 => (0x110E0, 0x1FFE0)

/-- The encoder's request, under the row's mask, is the row's match. -/
def Selector.Statement (i : Instr) : Prop := Selector.bits (encode i) &&& (Selector.row i).2 = (Selector.row i).1

theorem Selector.setTau (a : Word) : Selector.Statement (.setTau a) := by
  simp [Selector.Statement, Selector.bits, Selector.row, Sys2Proof.encode, hostRequest]
theorem Selector.getTau : Selector.Statement .getTau := by
  simp [Selector.Statement, Selector.bits, Selector.row, Sys2Proof.encode, hostRequest]
theorem Selector.beginTransfer (a : Word) (b : Word) : Selector.Statement (.beginTransfer a b) := by
  simp [Selector.Statement, Selector.bits, Selector.row, Sys2Proof.encode, hostRequest]
theorem Selector.currentState : Selector.Statement .currentState := by
  simp [Selector.Statement, Selector.bits, Selector.row, Sys2Proof.encode, hostRequest]
theorem Selector.delayUs (a : Word) : Selector.Statement (.delayUs a) := by
  simp [Selector.Statement, Selector.bits, Selector.row, Sys2Proof.encode, hostRequest]
theorem Selector.guardDelay : Selector.Statement .guardDelay := by
  simp [Selector.Statement, Selector.bits, Selector.row, Sys2Proof.encode, hostRequest]
theorem Selector.busLineIdle : Selector.Statement .busLineIdle := by
  simp [Selector.Statement, Selector.bits, Selector.row, Sys2Proof.encode, hostRequest]
theorem Selector.encode (a : Code) (b : Byte) : Selector.Statement (.encode a b) := by
  simp [Selector.Statement, Selector.bits, Selector.row, Sys2Proof.encode, hostRequest]
theorem Selector.decode (a : Word) (b : BufRef) : Selector.Statement (.decode a b) := by
  simp [Selector.Statement, Selector.bits, Selector.row, Sys2Proof.encode, hostRequest]
theorem Selector.checkParity (a : WireWord) : Selector.Statement (.checkParity a) := by
  simp [Selector.Statement, Selector.bits, Selector.row, Sys2Proof.encode, hostRequest]
theorem Selector.checkInversionMajority (a : WireWord) : Selector.Statement (.checkInversionMajority a) := by
  simp [Selector.Statement, Selector.bits, Selector.row, Sys2Proof.encode, hostRequest]
theorem Selector.sendOnly (a : Code) (b : Byte) : Selector.Statement (.sendOnly a b) := by
  simp [Selector.Statement, Selector.bits, Selector.row, Sys2Proof.encode, hostRequest]
theorem Selector.sendPollInterrupt (a : Code) (b : Byte) : Selector.Statement (.sendPollInterrupt a b) := by
  simp [Selector.Statement, Selector.bits, Selector.row, Sys2Proof.encode, hostRequest]
theorem Selector.sendPollPacket (a : Code) (b : Byte) : Selector.Statement (.sendPollPacket a b) := by
  simp [Selector.Statement, Selector.bits, Selector.row, Sys2Proof.encode, hostRequest]
theorem Selector.writeAddrSpace (a : Addr) (b : Word) (c : BufRef) : Selector.Statement (.writeAddrSpace a b c) := by
  simp [Selector.Statement, Selector.bits, Selector.row, Sys2Proof.encode, hostRequest]
theorem Selector.readAddrSpace (a : Addr) (b : Word) (c : BufRef) : Selector.Statement (.readAddrSpace a b c) := by
  simp [Selector.Statement, Selector.bits, Selector.row, Sys2Proof.encode, hostRequest]
theorem Selector.readAddrReverse (a : Addr) (b : Word) (c : BufRef) : Selector.Statement (.readAddrReverse a b c) := by
  simp [Selector.Statement, Selector.bits, Selector.row, Sys2Proof.encode, hostRequest]
theorem Selector.readRegisters (a : Word) (b : BufRef) : Selector.Statement (.readRegisters a b) := by
  simp [Selector.Statement, Selector.bits, Selector.row, Sys2Proof.encode, hostRequest]
theorem Selector.writeRegisters (a : Word) (b : BufRef) : Selector.Statement (.writeRegisters a b) := by
  simp [Selector.Statement, Selector.bits, Selector.row, Sys2Proof.encode, hostRequest]
theorem Selector.reverseByteOrder (a : Word) (b : BufRef) : Selector.Statement (.reverseByteOrder a b) := by
  simp [Selector.Statement, Selector.bits, Selector.row, Sys2Proof.encode, hostRequest]
theorem Selector.searchId : Selector.Statement .searchId := by
  simp [Selector.Statement, Selector.bits, Selector.row, Sys2Proof.encode, hostRequest]
theorem Selector.writeData (a : Byte) : Selector.Statement (.writeData a) := by
  revert a
  unfold Selector.Statement
  decide +kernel
theorem Selector.extendedRegAddr (a : Byte) : Selector.Statement (.extendedRegAddr a) := by
  revert a
  unfold Selector.Statement
  decide +kernel
theorem Selector.writeRegAddr (a : Byte) : Selector.Statement (.writeRegAddr a) := by
  revert a
  unfold Selector.Statement
  decide +kernel
theorem Selector.readRegAddr (a : Byte) : Selector.Statement (.readRegAddr a) := by
  revert a
  unfold Selector.Statement
  decide +kernel
theorem Selector.busReset : Selector.Statement .busReset := by
  unfold Selector.Statement
  decide +kernel
theorem Selector.discoverStart : Selector.Statement .discoverStart := by
  unfold Selector.Statement
  decide +kernel
theorem Selector.enterBranch0 : Selector.Statement .enterBranch0 := by
  unfold Selector.Statement
  decide +kernel
theorem Selector.enterBranch1 : Selector.Statement .enterBranch1 := by
  unfold Selector.Statement
  decide +kernel
theorem Selector.probeBranch0 : Selector.Statement .probeBranch0 := by
  unfold Selector.Statement
  decide +kernel
theorem Selector.probeBranch1 : Selector.Statement .probeBranch1 := by
  unfold Selector.Statement
  decide +kernel

end Sys2Proof.Laws
end

