-- ==== Sys2Proof/Tests/Slice0.lean ====
section
/-! SUPPORT. Tests: ill-formed terms, decoding from words written out by hand, single instructions with the values of
spec/95_test_vectors.md, and witnesses that the hypotheses of each obligation can be met together. -/

open Sys2Proof Sys2Proof.Machine

namespace Sys2Proof.Tests

set_option Elab.async false

/-! ### States and helpers -/

/-- Poll budgets of a few ticks, and one that a reply of unit 1 fits in. -/
def params : Params := ⟨List.replicate 154 2, List.replicate 154 48, 0, 0⟩

/-- A table of twenty rows that holds the four given ones, at places of our own (R210 gives none). -/
def table : List RegEntry :=
  [Config.errorCode, Config.authChallenge, Config.macData, Config.nvmLockOffset] ++ List.replicate 16 ⟨0, 0⟩

/-- After reset and set_tau(2), at a given tick, the line to show the given levels. -/
def ready (now : Word) (line : List Level) : State :=
  { State.reset with
    regmap := table, par := params
    drv := { Driver.reset with tau := 2, tauSet := true }
    env := { Env.reset with now := now, lineIn := line } }

/-- The same with a cycle begun. -/
def begun (word : Word) (m : Mode) (line : List Level) : State := (ready 99 line).beginTransfer word m

/-- A send whose pulse of bit `ix` ends at the next tick. -/
def due (ix : BitVec 5) (m : Mode) : State :=
  { ready 99 [] with drv := { (ready 99 []).drv with
      bus := .sending, mode := m, txsr := 0x10000, bitix := ix, due := 100, dir := .output, out := ix.getLsbD 0 == true } }

/-- The same one tick earlier. -/
def early : State := { due 16 .sendOnly with env := { (due 16 .sendOnly).env with now := 98 } }

/-- A poll that began at tick 60, with `n` entries in the timeline, at tick `now`. -/
def polling (b : BusState) (m : Mode) (n : BitVec 5) (now : Word) (line : List Level) : State :=
  { ready now line with drv := { (ready 0 []).drv with
      bus := b, mode := m, nedge := n, dir := .input, timeline := (Vector.replicate 19 0).set 0 60 } }

/-- A request put in front. -/
def asked (x : Input) (s : State) : State := s.setInbox [x]

/-- Whether an outcome is a next state with a property. -/
def nextIs (o : Host.Outcome State Fault Refusal) (f : State → Bool) : Bool :=
  match o with
  | .next s => f s
  | .fault _ => false
  | .refused _ => false

/-- Whether an outcome is a fault. -/
def faults (o : Host.Outcome State Fault Refusal) : Bool :=
  match o with
  | .next _ => false
  | .fault _ => true
  | .refused _ => false

theorem exists_next {o : Host.Outcome State Fault Refusal} {f : State → Bool} (h : nextIs o f = true) :
    ∃ t, o = .next t ∧ f t = true := by
  cases o with
  | next s => exact ⟨s, rfl, h⟩
  | fault _ => simp [nextIs] at h
  | refused _ => simp [nextIs] at h

/-- A buffer of `n` bytes at address 0x100. -/
def buf (n : Word) : BufRef := ⟨0x100, n⟩

/-! ### Ill-formed terms (R93, R206, R287) -/

theorem test_illformed_mode : (Instr.beginTransfer 0x10000 3).wellFormed = false := by decide
theorem test_illformed_decode : (Instr.decode 18 (buf 71)).wellFormed = false := by decide
theorem test_illformed_write : (Instr.writeAddrSpace 0x1304 2 (buf 1)).wellFormed = false := by decide
theorem test_illformed_read : (Instr.readAddrSpace 0x1304 2 (buf 1)).wellFormed = false := by decide
theorem test_illformed_reverse : (Instr.readAddrReverse 0x1304 2 (buf 1)).wellFormed = false := by decide
theorem test_illformed_byte_order : (Instr.reverseByteOrder 2 (buf 1)).wellFormed = false := by decide
theorem test_illformed_read_id : (Instr.readRegisters 20 (buf 1)).wellFormed = false := by decide
theorem test_illformed_write_id : (Instr.writeRegisters 20 (buf 1)).wellFormed = false := by decide

/-! ### Decoding, words written out from the encodings of R92, R94, R99, R100 and 95_test_vectors.md 2.2 -/

theorem test_decode_driver :
    decodeTableWord 8 0b00000001 = some (.setTau 0) ∧ decodeTableWord 8 0b00000010 = some .getTau ∧
    decodeTableWord 8 0b00000011 = some (.beginTransfer 0 0) ∧ decodeTableWord 8 0b00000100 = some .currentState ∧
    decodeTableWord 8 0b00000101 = some (.delayUs 0) ∧ decodeTableWord 8 0b00000110 = some .guardDelay ∧
    decodeTableWord 8 0b00000111 = some .busLineIdle := by decide

theorem test_decode_codec :
    decodeTableWord 8 0b00010000 = some (.encode 0 0) ∧ decodeTableWord 8 0b00010001 = some (.decode 0 noBuf) ∧
    decodeTableWord 8 0b00010010 = some (.checkParity 0) ∧
    decodeTableWord 8 0b00010011 = some (.checkInversionMajority 0) := by decide

theorem test_decode_transport :
    decodeTableWord 8 0b00100000 = some (.sendOnly 0 0) ∧ decodeTableWord 8 0b00100001 = some (.sendPollInterrupt 0 0) ∧
    decodeTableWord 8 0b00100010 = some (.sendPollPacket 0 0) ∧
    decodeTableWord 8 0b00100011 = some (.writeAddrSpace 0 0 noBuf) ∧
    decodeTableWord 8 0b00100100 = some (.readAddrSpace 0 0 noBuf) ∧
    decodeTableWord 8 0b00100101 = some (.readAddrReverse 0 0 noBuf) ∧
    decodeTableWord 8 0b00100110 = some (.readRegisters 0 noBuf) ∧
    decodeTableWord 8 0b00100111 = some (.writeRegisters 0 noBuf) ∧
    decodeTableWord 8 0b00101000 = some (.reverseByteOrder 0 noBuf) := by decide

theorem test_decode_search : decodeTableWord 8 0b00110000 = some .searchId := by decide

theorem test_decode_scalars :
    decode (.host 0x03 0x110F8 1 0 noBuf) = .ok (.beginTransfer 0x110F8 1) ∧
    decode (.host 0x10 0x14 0x1A5 0 noBuf) = .ok (.encode 0x4 0xA5) ∧
    decode (.host 0x23 0x1304 2 0 (buf 2)) = .ok (.writeAddrSpace 0x1304 2 (buf 2)) ∧
    decode (.host 0x11 18 0 0 (buf 72)) = .ok (.decode 18 (buf 72)) ∧
    decode (.host 0x26 3 0 0 (buf 2)) = .ok (.readRegisters 3 (buf 2)) := by decide

/-- Wire order: BCF nBCF D9 D8, D7..D0, P3..P0, INV. -/
theorem test_decode_register_words :
    decodeTableWord 24 0b0_1_00_10100101_1100_0 = some (.writeData 0xA5) ∧
    decodeTableWord 24 0b0_1_01_00010011_1101_0 = some (.extendedRegAddr 0x13) ∧
    decodeTableWord 24 0b0_1_10_00000100_0111_0 = some (.writeRegAddr 0x04) ∧
    decodeTableWord 24 0b0_1_11_00000010_1001_0 = some (.readRegAddr 0x02) := by decide

theorem test_decode_bus_words :
    decodeTableWord 24 0b1_0_00_00000000_0000_0 = some .busReset ∧
    decodeTableWord 24 0b1_0_00_10000000_1100_0 = some .discoverStart ∧
    decodeTableWord 24 0b1_0_00_10000100_1010_0 = some .enterBranch0 ∧
    decodeTableWord 24 0b1_0_00_10000101_1001_0 = some .enterBranch1 ∧
    decodeTableWord 24 0b1_0_00_10000110_1111_0 = some .probeBranch0 ∧
    decodeTableWord 24 0b1_0_00_10000111_1100_0 = some .probeBranch1 := by decide

theorem test_encode_words :
    encode (.writeData 0xA5) = .wire 0x094B8 ∧ encode (.extendedRegAddr 0x13) = .wire 0x0A27A ∧
    encode (.writeRegAddr 0x04) = .wire 0x0C08E ∧ encode (.readRegAddr 0x02) = .wire 0x0E052 ∧
    encode .probeBranch0 = .wire 0x110DE := by decide

theorem test_decode_rejects :
    decode (.host 0x08 0 0 0 noBuf) = .error (.unknownOp 0x08) ∧ decode (.host 0x31 0 0 0 noBuf) = .error (.unknownOp 0x31) ∧
    decode (.wire 0x06000) = .error (.unnamedWireWord 0x06000) ∧
    decode (.wire 0x11020) = .error (.unnamedWireWord 0x11020) := by decide

/-! ### Single instructions, values from 95_test_vectors.md -/

/-- Table 2.1. -/
theorem test_set_tau :
    ([2, 3, 153, 154, 155, 200, 305, 306, 1000, 4294967295].map fun v => effectiveTau params v) =
      [2, 3, 153, 2, 3, 48, 153, 2, 86 + 2, 119] := by decide

theorem test_set_tau_answers :
    nextIs (exec (.setTau 200) (ready 0 [])) (fun t => t.drv.tau == 48 && t.ans.res0 == 48) = true := by decide +kernel

theorem test_get_tau : nextIs (exec .getTau (ready 0 [])) (fun t => t.ans.res0 == 2) = true := by decide +kernel

/-- R122; the bits above 16 of the word are kept (2.6, last row). -/
theorem test_begin_transfer :
    nextIs (exec (.beginTransfer 0xFFFF0000 0) (ready 99 [])) (fun t =>
      t.drv.bus == .begin && t.drv.txsr == 0xFFFF0000 && t.drv.dir == .output && t.drv.out) = true := by decide +kernel

/-- 2.6, first row: level changes at 100 and 106, BITIX and DUE after them, the end at 138. -/
theorem test_send_ticks :
    (State.ticks 1 (begun 0x10000 .sendOnly [])).drv.due = 106 ∧
    (State.ticks 7 (begun 0x10000 .sendOnly [])).drv.bitix = 15 ∧
    (State.ticks 7 (begun 0x10000 .sendOnly [])).drv.due = 108 ∧
    (State.ticks 38 (begun 0x10000 .sendOnly [])).drv.bus = .sending ∧
    (State.ticks 39 (begun 0x10000 .sendOnly [])).drv.bus = .idle := by decide +kernel

/-- 2.6, fourth row: every 6 ticks, 202 the last. -/
theorem test_send_longest : (levelChanges 110 (begun 0x1FFFF .sendOnly [])).getLast? = some 202 := by decide +kernel

theorem test_current_state :
    nextIs (exec .currentState (begun 0 .sendOnly [])) (fun t => t.ans.res0 == 1) = true := by decide +kernel

/-- 2.8. -/
theorem test_delay_us : nextIs (exec (.delayUs 10) (ready 166 [])) (fun t => t.env.now == 176) = true := by
  decide +kernel

/-- 2.8: the counter wraps. -/
theorem test_guard_delay : nextIs (exec .guardDelay (ready 0xFFFFFFFA [])) (fun t => t.env.now == 4) = true := by
  decide +kernel

/-- R135. -/
theorem test_bus_line_idle :
    nextIs (exec .busLineIdle (ready 0 [])) (fun t => t.drv.out && t.drv.dir == .output) = true := by decide +kernel

/-- Table 2.2. -/
theorem test_encode :
    wireWord 0x4 0xA5 = 0x094B8 ∧ wireWord 0x4 0x5A = 0x0F4A1 ∧ wireWord 0x5 0x13 = 0x0A27A ∧
    wireWord 0x5 0x7E = 0x0D023 ∧ wireWord 0x8 0x86 = 0x110DE ∧ wireWord 0x3 0xFF = 0x0001F ∧
    wireWord 0xF 0xFF = 0x18001 ∧ wireWord 0xF 0xF0 = 0x1FE10 := by decide +kernel

theorem test_encode_answers :
    nextIs (exec (.encode 0x4 0x5A) (ready 0 [])) (fun t => t.ans.res0 == 0x0F4A1) = true := by decide +kernel

/-- Table 2.3: jitter, an inverted word, all intervals equal, ties and one above. -/
theorem test_decoded_words :
    decodedWord [5, 3, 7, 2, 3, 6, 2, 7, 3, 2, 6, 2, 7, 6, 5, 3, 2, 2] = some 0x094B8 ∧
    decodedWord [5, 3, 9, 9, 9, 9, 3, 9, 3, 3, 9, 3, 9, 3, 3, 3, 3, 9] = some 0x08B5F ∧
    decodedWord [7, 2, 2, 2, 2, 2, 2, 2, 2, 2, 2, 2, 2, 2, 2, 2, 2, 2] = some 0 ∧
    decodedWord [3, 10, 30, 10, 10, 10, 10, 10, 10, 10, 10, 10, 10, 10, 10, 10, 10, 20] = some 0x08000 ∧
    decodedWord [3, 10, 30, 10, 10, 10, 10, 10, 10, 10, 10, 10, 10, 10, 10, 10, 10, 21] = some 0x0FFFF ∧
    decodedWord [7, 2, 6, 2, 2, 6, 2, 6, 2, 2, 6, 2, 6, 6, 6, 2, 2] = none := by decide +kernel

/-- 2.3, fifth row (BusReset at unit 2), its intervals in the buffer. -/
theorem test_decode_buffer :
    nextIs (exec (.decode 18 (buf 72)) ((ready 0 []).bufStoreAll (buf 72) 0
        (([7, 6] ++ List.replicate 16 2).flatMap fun b => [b, 0, 0, 0])))
      (fun t => t.ans.res0 == 0 && t.ans.res1 == 0x800) = true := by decide +kernel

/-- Table 2.4. -/
theorem test_check_parity :
    ([0x094B8, 0x0EB47, 0x094BA, 0x094BC, 0x094B0, 0x094A8, 0x09438, 0x0D4B8, 0x014B8, 0x194B8].map fun l => failingGroup l) =
      [none, some 0, some 0, some 1, some 2, some 3, some 1, some 1, some 0, none] := by decide +kernel

theorem test_check_parity_answers :
    nextIs (exec (.checkParity 0x094B0) (ready 0 [])) (fun t => t.ans.res0 == 3) = true := by decide +kernel

/-- Table 2.5. -/
theorem test_check_inversion_majority :
    ([0x18001, 0x18000, 0x07FFE, 0x0A27A, 0x0F4A1, 0x0F4A3, 0x000FF, 0x0007F].map fun r => majorityAgrees r) =
      [true, true, false, true, true, false, false, true] := by decide +kernel

theorem test_check_inversion_answers :
    nextIs (exec (.checkInversionMajority 0x0F4A1) (ready 0 [])) (fun t => t.ans.res0 == 1) = true := by decide +kernel

/-- 2.9, first row. -/
theorem test_send_only :
    nextIs (exec (.sendOnly 0x8 0x00) (ready 0 [])) (fun t =>
      t.ans.res0 == 1 && t.env.now == 49 && t.drv.bus == .idle && t.drv.dir == .output) = true := by decide +kernel

/-- 2.9, fourth row: the line changes at tick 67; here the budget of 40 is that of the default TO_INT(2). -/
theorem test_send_poll_interrupt :
    nextIs (exec (.sendPollInterrupt 0x8 0x87)
        { ready 0 (edgeLevels 4) with par := { params with toInt := [0, 0, 40] } })
      (fun t => t.ans.res0 == 1 && t.env.now == 77 && t.drv.bus == .idle && t.drv.dir == .input) = true := by decide +kernel

/-- 2.9, third row. -/
theorem test_send_poll_interrupt_timeout :
    nextIs (exec (.sendPollInterrupt 0x8 0x87)
        { ready 0 (restLevels 40) with par := { params with toInt := [0, 0, 40] } })
      (fun t => t.ans.res0 == 0 && t.env.now == 113 && t.drv.bus == .timeout && t.drv.dir == .input) = true := by
  decide +kernel

/-- 2.9, sixth row: reply 0x0D023 of unit 2 from tick 66. -/
theorem test_send_poll_packet :
    nextIs (exec (.sendPollPacket 0x7 0x02)
        { ready 0 (replyLevels 0x0D023 2 7) with par := { params with toPkt := [0, 0, 200] } })
      (fun t => t.ans.res0 == 5 && t.ans.res1 == 0x7E && t.env.now == 134) = true := by decide +kernel

/-- 2.9, seventh row: D0 flipped on the wire. -/
theorem test_send_poll_packet_parity :
    nextIs (exec (.sendPollPacket 0x7 0x02)
        { ready 0 (replyLevels 0x0D003 2 7) with par := { params with toPkt := [0, 0, 200] } })
      (fun t => t.ans.res0 == 0xFE && t.ans.res1 == 0 && t.env.now == 130) = true := by decide +kernel

/-- 2.10, third row. -/
theorem test_write_addr_space :
    nextIs (exec (.writeAddrSpace 0x1304 2 (buf 2)) ((ready 0 []).bufStoreAll (buf 2) 0 [0xA5, 0x5A])) (fun t =>
      t.ans.res0 == 2 && t.env.sent.reverse.map (fun p => p.1) == [0x0A27A, 0x0C08E, 0x094B8, 0x0F4A1]) = true := by
  decide +kernel

/-- The replies of 2.10, rows five and six, of unit 1. -/
def twoReplies : List Level := replyLevels 0x0A68E 1 1 ++ replyLevels 0x0A25C 1 1

/-- 2.10, fifth row. -/
theorem test_read_addr_space :
    nextIs (exec (.readAddrSpace 0x0f00 2 (buf 2)) (ready 0 twoReplies)) (fun t =>
      t.ans.res0 == 2 && t.bufBytes (buf 2) 2 == [0x34, 0x12] &&
        t.env.sent.reverse.map (fun p => p.1) == [0x0A1EA, 0x0E018, 0x0A1EA, 0x0E03E]) = true := by decide +kernel

/-- 2.10, sixth row. -/
theorem test_read_addr_reverse :
    nextIs (exec (.readAddrReverse 0x0f00 2 (buf 2)) (ready 0 twoReplies)) (fun t =>
      t.ans.res0 == 2 && t.bufBytes (buf 2) 2 == [0x12, 0x34]) = true := by decide +kernel

/-- 2.10, seventh row: the second byte never answered. -/
theorem test_read_addr_reverse_short :
    nextIs (exec (.readAddrReverse 0x0f00 2 (buf 2)) (ready 0 (replyLevels 0x0A68E 1 1 ++ restLevels 96))) (fun t =>
      t.ans.res0 == 0xFFFFFFFF && t.bufBytes (buf 2) 2 == [0x34, 0] && t.scr.retry == 1 &&
        t.env.sent.length == 6) = true := by decide +kernel

/-- 2.10: as read_addr_space(0x0a02, 1); program 2's reply. -/
theorem test_read_registers :
    nextIs (exec (.readRegisters 0 (buf 1)) (ready 0 (replyLevels 0x0A004 1 3))) (fun t =>
      t.ans.res0 == 1 && t.env.sent.reverse.map (fun p => p.1) == [0x0A140, 0x0E052]) = true := by decide +kernel

/-- 2.10: MacData, ten bytes. -/
theorem test_write_registers :
    nextIs (exec (.writeRegisters 2 (buf 10)) (ready 0 [])) (fun t =>
      t.ans.res0 == 10 && t.env.sent.length == 12 && t.env.sent.getLast? == some (0x0A2D0, .sendOnly)) = true := by
  decide +kernel

/-- 2.10, odd and even lengths. -/
theorem test_reverse_byte_order :
    nextIs (exec (.reverseByteOrder 3 (buf 3)) ((ready 0 []).bufStoreAll (buf 4) 0 [1, 2, 3, 4])) (fun t =>
      t.bufBytes (buf 4) 4 == [3, 2, 1, 4]) = true := by decide +kernel

/-- 2.11, first row. -/
theorem test_search_nobody :
    nextIs (exec .searchId (ready 0 (restLevels 12))) (fun t =>
      t.ans.res0 == 0 && t.uid == Vector.replicate 10 0 &&
        t.env.sent.reverse.map (fun p => p.1) ==
          [0x11018, 0x110F8, 0x110DE, 0x110F8, 0x110DE, 0x110F8, 0x110DE]) = true := by decide +kernel

/-- 2.11, last row: a 1, a 0, then nothing. -/
theorem test_search_breaks_off :
    nextIs (exec .searchId (ready 0 (obedientLevels 2 1 [true, false] ++ restLevels 12))) (fun t =>
      t.ans.res0 == 0 && t.uid.getD 9 0 == 0x80 && t.scr.offset == 2 && t.env.sent.length == 12) = true := by
  decide +kernel

/-- R99, R100: the words on the line. -/
theorem test_wire_words :
    ([Instr.writeData 0x5A, .extendedRegAddr 0x13, .writeRegAddr 0x04, .busReset, .discoverStart, .enterBranch0,
      .enterBranch1].all fun i => nextIs (exec i (ready 0 [])) fun t => t.ans.res0 == 1) = true ∧
    nextIs (exec (.writeData 0x5A) (ready 0 [])) (fun t => t.env.sent == [(0x0F4A1, .sendOnly)]) = true := by
  decide +kernel

theorem test_probe_words :
    nextIs (exec .probeBranch0 (ready 0 (edgeLevels 2))) (fun t =>
      t.ans.res0 == 1 && t.env.sent == [(0x110DE, .pollInterrupt)]) = true ∧
    nextIs (exec .probeBranch1 (ready 0 (restLevels 2))) (fun t => t.ans.res0 == 0) = true := by decide +kernel

theorem test_read_reg_addr_word :
    nextIs (exec (.readRegAddr 0x04) (ready 0 (replyLevels 0x0A0AE 1 2))) (fun t =>
      t.ans == ⟨5, 5⟩ && t.env.sent == [(0x0E094, .pollPacket)]) = true := by decide +kernel

/-- 2.7: the edge comes first at the deadline. -/
theorem test_poll_edge_at_deadline :
    (polling .pollInterrupt .pollInterrupt 1 61 [false]).tick.drv.bus = .idle ∧
    (polling .pollInterrupt .pollInterrupt 1 61 [true]).tick.drv.bus = .timeout := by decide +kernel

/-- R79: the tick source stops after 9 of a delay's 10 ticks, and after 10. -/
theorem test_ticks_stop_in_a_delay :
    faults (exec (.delayUs 10) ((ready 0 []).setTicksLeft (some 9))) = true ∧
    nextIs (exec (.delayUs 10) ((ready 0 []).setTicksLeft (some 10))) (fun t => t.env.now == 10) = true := by decide +kernel

/-- R326, R320: rst while a probe waits for an answer. -/
theorem test_rst_in_a_poll :
    nextIs (exec (.sendPollInterrupt 0x8 0x87) ((ready 0 (restLevels 2)).setRstIn (some 65))) (fun t =>
      t.drv == Driver.reset && t.ans == ⟨0, 0⟩ && t.env.sent.length == 1 && t.env.lineIn.length == 1) = true := by decide +kernel

/-- U11, log 2: what send_poll_packet reads after a SendOnly cycle is a free value in every entry. -/
theorem test_stale_entries_are_free (k : Nat) : (ready 0 []).stamp k = Config.freeStamp k := by
  unfold State.stamp
  rw [if_neg (by exact Nat.not_lt_zero k)]
  exact congrArg Config.freeStamp (Nat.zero_add k)

/-! ### Witnesses: the hypotheses of each obligation can be met together -/

theorem witness_Ready : (ready 0 []).Ready := by decide +kernel
theorem witness_Live_in_cycle : (begun 0x10000 .pollPacket []).Live := by decide +kernel

theorem witness_ResetPortLeavesTheTable : (asked .rst (begun 0 .sendOnly [])).env.inbox = .rst :: [] := rfl

theorem witness_EveryStepKeepsInvariant :
    (asked .tick (due 3 .sendOnly)).Inv ∧ ∃ t, step (asked .tick (due 3 .sendOnly)) = .next t :=
  ⟨by decide +kernel, _, rfl⟩

theorem witness_DecodeOfEncode :
    (Instr.beginTransfer 0xFFFFFFFF 2).wellFormed = true ∧ (Instr.decode 18 (buf 72)).wellFormed = true ∧
    (Instr.readAddrSpace 0xFFFF 2 (buf 2)).wellFormed = true ∧ (Instr.readRegisters 19 (buf 0)).wellFormed = true := by decide

theorem witness_EncodeOfDecodedWireWord :
    decode (.wire 0x094B8) = .ok (.writeData 0xA5) ∧ (0x094B8 : WireWord).getLsbD 0 = false ∧
      failingGroup 0x094B8 = none := by decide +kernel

theorem witness_StepRunsTheDecodedInstruction :
    (asked (.request (.host 0x05 10 0 0 noBuf)) (ready 0 [])).env.inbox = .request (.host 0x05 10 0 0 noBuf) :: [] ∧
      decode (.host 0x05 10 0 0 noBuf) = .ok (.delayUs 10) := ⟨rfl, by decide⟩

theorem witness_UnknownOperationsAreRefused :
    ([0x00, 0x08, 0x0F, 0x14, 0x1F, 0x29, 0x2F, 0x31, 0xFF].all fun op : Byte =>
      decide (op.toNat ∉ [0x01, 0x02, 0x03, 0x04, 0x05, 0x06, 0x07, 0x10, 0x11, 0x12, 0x13, 0x20, 0x21, 0x22, 0x23, 0x24,
        0x25, 0x26, 0x27, 0x28, 0x30])) = true ∧
    (asked (.request (.host 0x08 0 0 0 noBuf)) (ready 0 [])).env.inbox = .request (.host 0x08 0 0 0 noBuf) :: [] :=
  ⟨by decide, rfl⟩

theorem witness_TimePassesByTicks :
    (ready 0 []).env.inbox = [] ∧ (ready 0 []).env.ticksLeft ≠ some 0 ∧ (ready 0 []).drv.bus = .idle ∧
    ((ready 0 []).setTicksLeft (some 1)).env.ticksLeft ≠ some 0 ∧
    (polling .timeout .pollPacket 1 0 []).env.inbox = [] ∧ (polling .timeout .pollPacket 1 0 []).env.ticksLeft ≠ some 0 ∧
    (polling .timeout .pollPacket 1 0 []).drv.bus = .timeout := by decide +kernel

theorem witness_BeginTickStartsTheWord :
    (begun 0x10000 .sendOnly []).env.ticksLeft ≠ some 0 ∧ (begun 0x10000 .sendOnly []).drv.bus = .begin := by decide +kernel

theorem witness_SendingTick_before : early.drv.bus = .sending ∧ early.env.ticksLeft ≠ some 0 ∧ early.env.now + 1 ≠ early.drv.due := by
  decide +kernel

/-- At DUE, for bits 16 and 1. -/
theorem witness_SendingTick_bit :
    ∀ ix ∈ [(16 : BitVec 5), 1], (due ix .sendOnly).drv.bus = .sending ∧ (due ix .sendOnly).env.ticksLeft ≠ some 0 ∧
      (due ix .sendOnly).env.now + 1 = (due ix .sendOnly).drv.due ∧ (due ix .sendOnly).drv.bitix ≠ 0 := by decide +kernel

/-- At DUE, after the last bit, in each mode. -/
theorem witness_SendingTick_end :
    ∀ m ∈ [Mode.sendOnly, .pollInterrupt, .pollPacket], (due 0 m).drv.bus = .sending ∧ (due 0 m).env.ticksLeft ≠ some 0 ∧
      (due 0 m).env.now + 1 = (due 0 m).drv.due ∧ (due 0 m).drv.bitix = 0 ∧ (due 0 m).drv.mode = m := by decide +kernel

/-- Each outcome of a poll tick: full, spent without an edge, spent with an edge that does not fill the timeline, neither; in
both modes, at the boundary of the budget. -/
theorem witness_PollTick :
    (∀ c ∈ [(BusState.pollInterrupt, Mode.pollInterrupt, (1 : BitVec 5), (61 : Word), false, BusState.idle),
        (.pollInterrupt, .pollInterrupt, 1, 61, true, .timeout), (.pollInterrupt, .pollInterrupt, 1, 60, true, .pollInterrupt),
        (.pollPacket, .pollPacket, 18, 107, false, .idle), (.pollPacket, .pollPacket, 17, 107, false, .timeout),
        (.pollPacket, .pollPacket, 17, 106, false, .pollPacket), (.pollPacket, .pollPacket, 18, 107, true, .timeout)],
      let s := polling c.1 c.2.1 c.2.2.1 c.2.2.2.1 [c.2.2.2.2.1]
      s.Inv ∧ s.env.ticksLeft ≠ some 0 ∧ s.drv.bus.polling = true ∧ s.env.lineLevel = c.2.2.2.2.1 ∧
        s.env.lineIn = c.2.2.2.2.1 :: [] ∧ s.tick.drv.bus = c.2.2.2.2.2) := by decide +kernel

theorem witness_TimeoutComesFromPollsOnly :
    (polling .pollInterrupt .pollInterrupt 1 61 [true]).tick.drv.bus = .timeout ∧
    (polling .pollPacket .pollPacket 5 107 [true]).tick.drv.bus = .timeout ∧
    (polling .timeout .pollPacket 5 107 []).tick.drv.bus = .timeout := by decide +kernel

theorem witness_LevelChangesOfASend :
    ∀ m ∈ [Mode.sendOnly, .pollInterrupt, .pollPacket], (begun 0xFFFF0000 m []).Live ∧ (begun 0xFFFF0000 m []).drv.bus = .begin := by
  decide +kernel

theorem witness_CycleEndsInBoundedTime :
    ∀ m ∈ [Mode.sendOnly, .pollInterrupt, .pollPacket], (begun 0x1FFFF m []).Live ∧ (begun 0x1FFFF m []).drv.bus = .begin := by
  decide +kernel

/-- The clause's lowest and highest values. -/
theorem witness_SetTauWrapsIntoRange :
    2 ≤ (2 : Word).toNat ∧ (effectiveTau params 2).toNat = 2 ∧ (effectiveTau params 0xFFFFFFFF).toNat = 119 := by decide

theorem witness_GetTauAnswersTau : (ready 0 []).drv.tauSet = true ∧ State.reset.drv.tauSet = false := ⟨rfl, rfl⟩

theorem witness_BeginTransferArmsTheDriver :
    (ready 0 []).drv.tauSet = true ∧ (ready 0 []).drv.bus = .idle ∧
    (polling .timeout .pollPacket 1 0 []).drv.tauSet = true ∧ (polling .timeout .pollPacket 1 0 []).drv.bus = .timeout ∧
    (∀ p ∈ [((0 : Word), Mode.sendOnly), (1, .pollInterrupt), (2, .pollPacket)],
      p.1 = 0 ∧ p.2 = .sendOnly ∨ p.1 = 1 ∧ p.2 = .pollInterrupt ∨ p.1 = 2 ∧ p.2 = .pollPacket) := by decide +kernel

theorem witness_BeginTransferIgnored :
    (begun 0 .sendOnly []).drv.tauSet = true ∧ (begun 0 .sendOnly []).drv.bus ≠ .idle ∧
    (begun 0 .sendOnly []).drv.bus ≠ .timeout ∧ 3 ≤ (3 : Word).toNat ∧ 3 ≤ (0xFFFFFFFF : Word).toNat := by decide +kernel

theorem witness_DelayLetsTicksPass :
    (begun 0 .sendOnly []).Undisturbed ∧ (ready 0 []).Undisturbed ∧ (ready 0 []).drv.bus = .idle ∧
    nextIs (exec (.delayUs 0) (ready 7 [])) (fun t => t.env.now == 7) = true ∧
    nextIs (exec (.delayUs 1) (ready 7 [])) (fun t => t.env.now == 8) = true := by decide +kernel

theorem witness_GuardDelayLetsFiveTauPass :
    (ready 0 []).drv.tauSet = true ∧ (ready 0 []).Undisturbed ∧ (ready 0 []).drv.bus = .idle := by decide +kernel

theorem witness_BusLineIdleDrivesRest :
    (ready 0 []).drv.bus = .idle ∧ (polling .timeout .pollPacket 1 0 []).drv.bus = .timeout ∧
    (begun 0 .sendOnly []).drv.bus ≠ .idle ∧ (begun 0 .sendOnly []).drv.bus ≠ .timeout := by decide +kernel

theorem witness_UseOfTauBeforeSetTauIsRefused :
    State.reset.drv.tauSet = false ∧ usesTau .guardDelay = true ∧ usesTau .getTau = false := ⟨rfl, rfl, rfl⟩

/-- A send of BusReset at TAU = 2 takes 1 + 38 + 10 ticks, a guard delay 10. -/
theorem witness_StoppedTicksHangTheSpin :
    let s := ready 0 []
    s.env.rstIn = none ∧ 48 < (49 : Word).toNat ∧ 9 < 5 * s.drv.tau.toNat ∧ s.Inv ∧ s.drv.tauSet = true ∧
      s.drv.bus.ready = true ∧ leastTicks s .busReset = 49 ∧ leastTicks s (.writeAddrSpace 0 0 noBuf) ≠ 0 ∧
      leastTicks s (.readRegisters 0 (buf 1)) ≠ 0 ∧
      faults (exec .busReset (s.setTicksLeft (some 48))) = true ∧
      nextIs (exec .busReset (s.setTicksLeft (some 49))) (fun t => t.env.ticksLeft == some 0) = true := by decide +kernel

/-- The last moment of that send, and one more; the last tick of a delay, and one more. -/
theorem witness_RstInsideAWaitEndsTheOperation :
    let s := (ready 0 []).setRstIn (some 51)
    s.env.ticksLeft = none ∧ s.env.rstIn = some 51 ∧ 51 ≤ (51 : Word).toNat ∧ (50 : Word).toNat < 51 ∧ s.Inv ∧
      s.drv.tauSet = true ∧ s.drv.bus.ready = true ∧
      51 = sendTicks s.drv.tau (wireWord 0x8 0x00) + 5 * s.drv.tau.toNat + 3 ∧
      sendTicks s.drv.tau (wireWord 0x8 0x00) + 5 * s.drv.tau.toNat + 3 < 52 := by decide +kernel

theorem witness_RstLeavesTheTableWhereverItLands :
    ((ready 0 []).setRstIn (some 3)).env.rstIn ≠ none ∧
    ∃ t, exec (.delayUs 5) ((ready 0 []).setRstIn (some 3)) = .next t ∧ decide (t.env.rstIn = none) = true :=
  ⟨by decide, exists_next (f := fun t => decide (t.env.rstIn = none)) (by decide +kernel)⟩

/-- Seven covered ones, not inverted, and eight, inverted (2.2). -/
theorem witness_EncodeAnswersTheWireWord :
    popcount ((0x0A27A : WireWord).extractLsb' 1 14) = 7 ∧ wireWord 0x5 0x13 = 0x0A27A ∧
    popcount ((0x08B5E : WireWord).extractLsb' 1 14) = 8 ∧ wireWord 0x4 0x5A = 0x0F4A1 := by decide +kernel

theorem witness_EncodedWordsAreBalanced : invFlag (wireWord 0x4 0x5A) = true := by decide +kernel

theorem witness_DecodeAnswersCodeAndPayload :
    (17 : Word).toNat < 18 ∧ 18 ≤ (18 : Word).toNat ∧ 72 ≤ (buf 72).size.toNat := by decide

theorem witness_ShortBuffersDoNothing :
    (ready 0 []).drv.tauSet = true ∧ (buf 0).size.toNat < (1 : Word).toNat ∧
    18 ≤ (18 : Word).toNat ∧ (buf 71).size.toNat < 72 ∧ ¬ (buf 71).size.toNat < (18 : Word).toNat := by decide

/-- Every answer of check_parity (2.4). -/
theorem witness_CheckParityReportsTheLowestGroup :
    ([0x094B8, 0x094BA, 0x094BC, 0x094B0, 0x094A8].map fun l => failingGroup l) = [none, some 0, some 1, some 2, some 3] := by
  decide +kernel

theorem witness_CodecRoundTrip :
    1 ≤ 1 ∧ 3 * 1 < 2 ^ 32 ∧ 1 ≤ 1431655765 ∧ 3 * 1431655765 < 2 ^ 32 := by decide

/-- The first and the last position (2.4: INV, nBCF). -/
theorem witness_SingleFlipsAreReported :
    failingGroup (unInvert (0x094B9 : WireWord)) = lowestGroup[0]? ∧
    failingGroup (unInvert (0x014B8 : WireWord)) = lowestGroup[15]? := by decide +kernel

theorem witness_StatusValuesAreComplete :
    ∃ t, exec (.sendPollPacket 0x7 0x02) (ready 0 (restLevels 48)) = .next t ∧ (t.ans.res0 == 0xFF) = true :=
  exists_next (f := fun t => t.ans.res0 == 0xFF) (by decide +kernel)

/-- A reply that ends with the budget's last tick: 3 + 1 × (17 + 2 × 14) is 48 at 14 ones; here 8 ones and latency 15. -/
theorem witness_RepliesAreReceived :
    (ready 0 (replyLevels (wireWord 0x5 0x34) 1 15 ++ [false])).Ready ∧ 1 ≤ 1 ∧ 1 ≤ 15 ∧
    replyTicks (wireWord 0x5 0x34) 1 15 = pktTicks (ready 0 (replyLevels (wireWord 0x5 0x34) 1 15 ++ [false])) := by
  decide +kernel

theorem witness_ExchangeInACycleWaitsForIt :
    (begun 0x10000 .sendOnly []).Live ∧ (begun 0x10000 .sendOnly []).drv.bus.ready = false ∧
    (begun 0x10000 .sendOnly []).env.lag = [] := by decide +kernel

theorem witness_WriteAddrSpaceSendsTheBytes :
    (ready 0 []).Ready ∧ (2 : Word).toNat ≤ (buf 2).size.toNat ∧ (0 : Word).toNat ≤ (buf 0).size.toNat := by decide +kernel

theorem witness_ReadAddrSpaceCountsAndStores :
    (ready 0 []).Ready ∧ (2 : Word).toNat ≤ (buf 2).size.toNat ∧ (0 : Word).toNat ≤ (buf 0).size.toNat := by decide +kernel

/-- Poll budgets that fit the answers below. -/
def roomy (line : List Level) : State := { ready 0 line with par := { params with toPkt := [0, 0, 150] } }

theorem witness_Ready_roomy (line : List Level) : (roomy line).Ready ∧ pktTicks (roomy line) = 150 :=
  (by decide +kernel : (roomy []).Ready ∧ pktTicks (roomy []) = 150)

/-- Two answers that differ in code, data, unit and latency, the second at the second asking. -/
def answers : List ByteAnswer := [⟨false, ⟨0x5, 0x00, 1, 3⟩⟩, ⟨true, ⟨0x1, 0x7E, 2, 2⟩⟩]

theorem witness_AnsweredReadsFillTheBuffer :
    (roomy (answers.flatMap (ByteAnswer.levels 150) ++ [false])).Ready ∧ answers.length ≤ (buf 2).size.toNat ∧
    (∀ a ∈ answers, a.reply.Good 150) := ⟨(witness_Ready_roomy _).1, by decide, by decide +kernel⟩

/-- R201: a byte answered at the second asking is stored and counted. -/
theorem test_read_answered_late :
    nextIs (exec (.readAddrSpace 0x0f00 2 (buf 2)) (roomy (answers.flatMap (ByteAnswer.levels 150)))) (fun t =>
      t.ans.res0 == 2 && t.bufBytes (buf 2) 2 == [0x00, 0x7E] && t.env.sent.length == 6 && t.scr.retry == 1) = true := by
  decide +kernel

/-- The same two answers, or none, and a third byte that nobody answers. -/
theorem witness_UnansweredReadIsRetriedOnce :
    (roomy (answers.flatMap (ByteAnswer.levels 150) ++ (restLevels (2 * 150) ++ [false]))).Ready ∧
    answers.length < (3 : Word).toNat ∧ (3 : Word).toNat ≤ (buf 3).size.toNat ∧
    ([] : List ByteAnswer).length < (1 : Word).toNat := ⟨(witness_Ready_roomy _).1, by decide⟩

/-- After the two answers: WriteData 0xA5, a good word without the flag; and ERA 0x7E with D0 flipped, which fails the parity
check (2.9, seventh row). -/
theorem witness_ReplyWithoutFlagEndsTheRead :
    (unInvert (0x094B8 : WireWord)).getLsbD 13 = false ∧ replyTicks 0x094B8 1 3 ≤ 150 ∧
    failingGroup (unInvert (0x0D003 : WireWord)) ≠ none ∧ replyTicks 0x0D003 1 3 ≤ 150 := by decide +kernel

/-- The line such a read needs leaves the state ready, whether the bad word comes late or not. -/
theorem witness_ReplyWithoutFlagEndsTheRead_ready (w : WireWord) (late : Bool) :
    (roomy (answers.flatMap (ByteAnswer.levels 150) ++ (lateLevels 150 late ++ (replyLevels w 1 3 ++ [false])))).Ready ∧
      pktTicks (roomy (answers.flatMap (ByteAnswer.levels 150) ++
        (lateLevels 150 late ++ (replyLevels w 1 3 ++ [false])))) = 150 :=
  witness_Ready_roomy (answers.flatMap (ByteAnswer.levels 150) ++ (lateLevels 150 late ++ (replyLevels w 1 3 ++ [false])))

/-- The clause about 0xFE: its word fails the check, and BCF and nBCF differ. -/
theorem witness_ReplyFailsIntegrity :
    failingGroup (unInvert (0x0D003 : WireWord)) ≠ none ∧
    (0x0D003 : WireWord).getLsbD 16 ≠ (0x0D003 : WireWord).getLsbD 15 := by decide +kernel

/-- R201, R285: not retried, and the byte before it kept. -/
theorem test_read_integrity_failure :
    nextIs (exec (.readAddrSpace 0x0f00 2 (buf 2)) (ready 0 (replyLevels 0x0A68E 1 1 ++ replyLevels 0x0D003 1 1))) (fun t =>
      t.ans.res0 == 1 && t.bufBytes (buf 2) 2 == [0x34, 0] && t.scr.status == 0xFE && t.scr.retry == 0 &&
        t.env.sent.length == 4) = true := by decide +kernel

/-- A read that is answered and one that is not (2.10). -/
theorem witness_ReadAddrReverseReverses :
    (ready 0 twoReplies).Ready ∧ (2 : Word).toNat ≤ (buf 2).size.toNat ∧
    nextIs (exec (.readAddrSpace 0x0f00 2 (buf 2)) (ready 0 twoReplies)) (fun u => u.ans.res0 == 2) = true ∧
    nextIs (exec (.readAddrSpace 0x0f00 2 (buf 2)) (ready 0 (restLevels 96))) (fun u => u.ans.res0 != 2) = true := by
  decide +kernel

/-- A row with the shortest buffer that holds it, one byte less, and an id past the table. -/
theorem witness_NamedRegisters :
    (ready 0 []).Ready ∧ (ready 0 []).regmap[(2 : Word).toNat]? = some Config.macData ∧
    Config.macData.len ≤ (buf 10).size.toNat ∧ (buf 9).size.toNat < Config.macData.len ∧
    (ready 0 []).regmap[(20 : Word).toNat]? = none := by decide +kernel

theorem witness_ReverseByteOrderIsAnInvolution :
    (ready 0 []).mem.wf = true ∧ (4 : Word).toNat ≤ (buf 4).size.toNat ∧ (3 : Word).toNat ≤ (buf 3).size.toNat ∧
    (0 : Word).toNat ≤ (buf 0).size.toNat := by decide

/-- An identifier of forty ones and forty zeros, answered at the budget's last tick. -/
theorem witness_SearchFindsTheIdentifier :
    let bits := List.replicate 40 true ++ List.replicate 40 false
    let s := ready 0 (obedientLevels 2 2 bits ++ [false])
    s.Ready ∧ bits.length = 80 ∧ 1 ≤ 2 ∧ 2 ≤ intTicks s ∧ s.env.lineIn = obedientLevels (intTicks s) 2 bits ++ [false] := by
  decide +kernel

/-- Nobody; a device that stops after two bits (2.11, last row); one that stops before the last. -/
theorem witness_SearchFailsWithNobody :
    ∀ bits ∈ [[], [true, false], List.replicate 79 true],
      let s := ready 0 (obedientLevels 2 2 bits ++ (restLevels 12 ++ [false]))
      s.Ready ∧ bits.length < 80 ∧ 2 ≤ intTicks s ∧
        s.env.lineIn = obedientLevels (intTicks s) 2 bits ++ (restLevels (6 * intTicks s) ++ [false]) := by decide +kernel

theorem witness_RegisterMapIsReadOnly : ∃ t, step (ready 0 []) = .next t := ⟨_, rfl⟩

theorem witness_EveryInstructionCompletes :
    ((begun 0 .pollInterrupt []).setRstIn (some 7)).Inv ∧ ((begun 0 .pollInterrupt []).setRstIn (some 7)).drv.tauSet = true ∧
    ((begun 0 .pollInterrupt []).setRstIn (some 7)).env.ticksLeft = none := by decide +kernel

theorem witness_OnlySetTauWritesTau :
    (∀ v, Instr.getTau ≠ .setTau v) ∧ (ready 0 []).env.rstIn = none ∧ ∃ t, exec .getTau (ready 0 []) = .next t :=
  ⟨by simp, rfl, _, rfl⟩

theorem witness_OnlySearchWritesUid :
    Instr.currentState ≠ .searchId ∧ (ready 0 []).env.rstIn = none ∧ ∃ t, exec .currentState (ready 0 []) = .next t :=
  ⟨by decide, rfl, _, rfl⟩

theorem witness_OnlyReadsAndReversalWriteBuffers :
    (∀ a n b, Instr.currentState ≠ .readAddrSpace a n b) ∧ (∀ a n b, Instr.currentState ≠ .readAddrReverse a n b) ∧
    (∀ d b, Instr.currentState ≠ .readRegisters d b) ∧ (∀ n b, Instr.currentState ≠ .reverseByteOrder n b) ∧
    ∃ t, exec .currentState (ready 0 []) = .next t :=
  ⟨by simp, by simp, by simp, by simp, _, rfl⟩

theorem witness_OnlyWaitsLetTimePass :
    usesTau .currentState = false ∧ (∀ n, Instr.currentState ≠ .delayUs n) ∧
    ∃ t, exec .currentState (ready 0 []) = .next t := ⟨rfl, by simp, _, rfl⟩

end Sys2Proof.Tests
end

/-! PROOFS, 10_state.md. A property that the shared operations keep is kept by every instruction and every step; from that
the invariant (O3), the tables (O54), TAU (O55), UID[] (O56), and the time where nothing waits (O58). -/

namespace Sys2Proof.Machine

/-! ### Properties that foreground steps keep -/

/-- `P` is kept by what an instruction does at once, other than its own writes to TAU, UID[] and the buffers: answers,
free values drawn, begin_transfer with TAU set, bus_line_idle. -/
structure KeptAtOnce (P : State → Prop) : Prop where
  answer   : ∀ u a, P u → P { u with ans := a }
  freeCtr  : ∀ u n, P u → P { u with env := { u.env with freeCtr := n } }
  beginTransfer : ∀ u w m, P u → u.drv.tauSet = true → P (u.beginTransfer w m)
  lineIdle : ∀ u, P u → P u.lineIdle

/-- ... and by what happens while an instruction waits and between its waits: ticks, pauses, rst coming nearer, the
scratch registers written within their ranges; where rst lands, `Q` holds. -/
structure KeptInWaits (P Q : State → Prop) : Prop extends KeptAtOnce P where
  tick    : ∀ u, P u → P u.tick
  lag     : ∀ u l, P u → P { u with env := { u.env with lag := l } }
  rstIn   : ∀ u r, P u → (r = none ↔ u.env.rstIn = none) → P (u.setRstIn r)
  scratch : ∀ u r, P u → (u.scr.Inv → r.Inv) → P { u with scr := r }
  lands   : ∀ u, P u → u.env.rstIn ≠ none → Q u.rstLands

/-- `P` is kept by a byte stored in a buffer. -/
abbrev KeptByStores (P : State → Prop) : Prop := ∀ u buf i b, P u → P (u.bufStore buf i b)

/-- `P` is kept by a write to UID[]. -/
abbrev KeptByUidWrites (P : State → Prop) : Prop := ∀ u id, P u → P { u with uid := id }

/-- `P` holds and TAU is set, as R323 asks before any operation that uses TAU. -/
abbrev WithTau (P : State → Prop) (u : State) : Prop := P u ∧ u.drv.tauSet = true

/-- A run that is done leaves `P` holding with TAU set; one that rst cuts off leaves `Q`. -/
abbrev Run.Keeps {α : Type} (P Q : State → Prop) (r : Run α) : Prop := r.Sat (fun _ => WithTau P) Q

/-- The instructions that read or reverse into a caller's buffer (R200, R204 to R206). -/
def storesBytes : Instr → Bool
  | .readAddrSpace _ _ _ | .readAddrReverse _ _ _ | .readRegisters _ _ | .reverseByteOrder _ _ => true
  | _ => false

/-- The instructions that wait: those that use TAU but begin_transfer, and delay_us (R7, R122, R133). -/
def waits : Instr → Bool
  | .beginTransfer _ _ => false
  | .delayUs _ => true
  | i => usesTau i

theorem waits_eq_false {i : Instr} (h : usesTau i = false ∨ ∃ w m, i = .beginTransfer w m) (hd : ∀ n, i ≠ .delayUs n) :
    waits i = false := by
  rcases h with h | ⟨w, m, rfl⟩
  · cases i with
    | delayUs n => exact absurd rfl (hd n)
    | beginTransfer w m => rfl
    | _ => exact h
  · rfl

/-! ### Outcomes -/

theorem next_keeps {P : State → Prop} {s t : State} (h : P s)
    (he : (.next s : Host.Outcome State Fault Refusal) = .next t) : P t := Host.Outcome.next.inj he ▸ h

theorem needTau_next {s t : State} {k : Host.Outcome State Fault Refusal} (h : s.needTau k = .next t) :
    s.drv.tauSet = true ∧ k = .next t := by
  unfold State.needTau at h
  split at h
  · next ht => exact ⟨ht, h⟩
  · cases h

theorem withBuffer_next {s t : State} {buf : BufRef} {n : Nat} {k : Host.Outcome State Fault Refusal}
    (h : s.withBuffer buf n k = .next t) : t = s.undefined0 ∨ k = .next t := by
  unfold State.withBuffer at h
  split at h
  · exact .inr h
  · exact .inl (Host.Outcome.next.inj h).symm

theorem Run.Sat.finish {α : Type} {P : α → State → Prop} {Q R : State → Prop} {r : Run α} (hr : r.Sat P Q)
    {answer : α → State → State} (ha : ∀ a u, P a u → R (answer a u)) {t : State}
    (h : Machine.finish answer r = .next t) : R t ∨ Q t := by
  cases r with
  | done a u => exact .inl (next_keeps (ha a u hr) h)
  | cut u => exact .inr (next_keeps hr h)
  | hung => cases h

/-! ### Scratch registers stay in range (R27, R28) -/

theorem Scratch.inv_retry {r : Scratch} (h : r.Inv) {n : Nat} (hn : n ≤ Config.readRetries) :
    ({ r with retry := BitVec.ofNat 8 n } : Scratch).Inv :=
  ⟨by rw [BitVec.toNat_ofNat]; exact (Nat.mod_le _ _).trans hn, h.2⟩

theorem Scratch.inv_offset {r : Scratch} (h : r.Inv) {n : Nat} (hn : n ≤ Config.uidBits) :
    ({ r with offset := BitVec.ofNat 7 n } : Scratch).Inv :=
  ⟨h.1, by rw [BitVec.toNat_ofNat]; exact (Nat.mod_le _ _).trans hn⟩

/-! ### What an instruction does at once -/

section AtOnce
variable {P : State → Prop} {s t : State}

theorem KeptAtOnce.answer0 (hk : KeptAtOnce P) (v : Word) (h : P s) : P (s.answer0 v) := hk.answer _ _ h

theorem KeptAtOnce.drew (hk : KeptAtOnce P) (h : P s) : P s.drew := hk.freeCtr _ _ h

theorem KeptAtOnce.undefined0 (hk : KeptAtOnce P) (h : P s) : P s.undefined0 := hk.drew (hk.answer0 _ h)

theorem KeptAtOnce.stampsRead (hk : KeptAtOnce P) (h : P s) : P s.stampsRead := by
  unfold State.stampsRead
  split
  · exact h
  · exact hk.freeCtr _ _ h

theorem KeptByStores.bufStoreAll (hm : KeptByStores P) (buf : BufRef) (i : Nat) (l : List Byte) (h : P s) :
    P (s.bufStoreAll buf i l) := by
  induction l generalizing i s with
  | nil => exact h
  | cons b rest ih => exact ih (i + 1) (hm s buf i b h)

/-- An instruction that does not wait keeps `P`. -/
theorem exec_keeps_of_not_waits (hk : KeptAtOnce P) {i : Instr} (hw : waits i = false)
    (htau : ∀ v, i = .setTau v → P (s.setTau v)) (hmem : storesBytes i = true → KeptByStores P) (h : P s)
    (he : exec i s = .next t) : P t := by
  cases i with
  | setTau v => exact next_keeps (hk.answer0 _ (htau v rfl)) he
  | getTau =>
    change execGetTau s = _ at he
    unfold execGetTau at he
    split at he
    · exact next_keeps (hk.answer0 _ h) he
    · exact next_keeps (hk.drew (hk.answer0 _ h)) he
  | beginTransfer w m =>
    obtain ⟨ht, he⟩ := needTau_next he
    split at he
    · exact next_keeps (hk.beginTransfer _ _ _ h ht) he
    · exact next_keeps h he
  | currentState => exact next_keeps (hk.answer0 _ h) he
  | busLineIdle => exact next_keeps (hk.lineIdle _ h) he
  | encode c p => exact next_keeps (hk.answer0 _ h) he
  | decode n buf =>
    change execDecode n buf s = _ at he
    unfold execDecode at he
    split at he
    · exact next_keeps (hk.drew (hk.answer _ _ h)) he
    · split at he
      · split at he
        · exact next_keeps (hk.answer _ _ h) he
        · exact next_keeps (hk.drew (hk.answer _ _ h)) he
      · exact next_keeps (hk.drew (hk.drew (hk.answer _ _ h))) he
  | checkParity w =>
    change execCheckParity w s = _ at he
    unfold execCheckParity at he
    split at he <;> exact next_keeps (hk.answer0 _ h) he
  | checkInversionMajority w => exact next_keeps (hk.answer0 _ h) he
  | reverseByteOrder n buf =>
    change execReverseByteOrder n buf s = _ at he
    unfold execReverseByteOrder at he
    split at he
    · exact next_keeps ((hmem rfl).bufStoreAll _ _ _ h) he
    · exact next_keeps h he
  | _ => cases hw

end AtOnce

/-! ### Exchanges, accesses and the search -/

section Runs
variable {P Q : State → Prop} {s : State}

theorem KeptInWaits.exchange (hk : KeptInWaits P Q) (c : Code) (p : Byte) (m : Mode) (h : WithTau P s) :
    (s.exchange c p m).Keeps P Q :=
  (State.exchange_sat (P := WithTau P) h (fun u hu => ⟨hk.tick u hu.1, by simpa using hu.2⟩)
    (fun u r hu hr => ⟨hk.rstIn u r hu.1 hr, hu.2⟩) (fun u l hu => ⟨hk.lag u l hu.1, hu.2⟩)
    (fun u hu => ⟨hk.beginTransfer u _ m hu.1 hu.2, by simpa using hu.2⟩) fun u hu => hk.lands u hu.1).mono
    (fun _ _ hu => hu.1) fun _ hu => hu

theorem KeptInWaits.delay (hk : KeptInWaits P Q) (n : Word) (h : P s) : (s.delay n).Sat (fun _ => P) Q :=
  State.delay_sat hk.tick hk.rstIn hk.lands n h

theorem KeptInWaits.guard (hk : KeptInWaits P Q) (h : P s) : s.guard.Sat (fun _ => P) Q := hk.delay _ h

theorem KeptInWaits.sendOnly (hk : KeptInWaits P Q) (c : Code) (p : Byte) (h : WithTau P s) :
    (s.sendOnly c p).Keeps P Q :=
  (hk.exchange c p .sendOnly h).map fun _ _ hu => hu

theorem KeptInWaits.sendPollInterrupt (hk : KeptInWaits P Q) (c : Code) (p : Byte) (h : WithTau P s) :
    (s.sendPollInterrupt c p).Keeps P Q :=
  (hk.exchange c p .pollInterrupt h).map fun _ _ hu => hu

theorem KeptInWaits.setStatus (hk : KeptInWaits P Q) (st p : Byte) (h : P s) : P (s.setStatus st p) :=
  hk.scratch _ _ h fun hr => hr

theorem KeptInWaits.byteInHand (hk : KeptInWaits P Q) (a : Addr) (i : Nat) (h : WithTau P s) :
    WithTau P (s.byteInHand a i) := ⟨hk.scratch _ _ h.1 fun hr => hr, h.2⟩

theorem KeptInWaits.setRetry (hk : KeptInWaits P Q) {n : Nat} (hn : n ≤ Config.readRetries) (h : WithTau P s) :
    WithTau P (s.setRetry n) := ⟨hk.scratch _ _ h.1 fun hr => Scratch.inv_retry hr hn, h.2⟩

theorem KeptInWaits.setAttempt (hk : KeptInWaits P Q) (n : Nat) (h : WithTau P s) : WithTau P (s.setAttempt n) :=
  ⟨hk.scratch _ _ h.1 fun hr => hr, h.2⟩

theorem KeptInWaits.setOffset (hk : KeptInWaits P Q) {n : Nat} (hn : n ≤ Config.uidBits) (h : WithTau P s) :
    WithTau P (s.setOffset n) := ⟨hk.scratch _ _ h.1 fun hr => Scratch.inv_offset hr hn, h.2⟩

theorem KeptInWaits.packetEnd (hk : KeptInWaits P Q) (b : BusState) (h : WithTau P s) : (s.packetEnd b).Keeps P Q := by
  unfold State.packetEnd
  split
  · exact ⟨hk.setStatus _ _ h.1, h.2⟩
  · exact ⟨hk.setStatus _ _ (hk.stampsRead h.1), by simpa using h.2⟩

theorem KeptInWaits.sendPollPacket (hk : KeptInWaits P Q) (c : Code) (p : Byte) (h : WithTau P s) :
    (s.sendPollPacket c p).Keeps P Q :=
  (hk.exchange c p .pollPacket h).andThen fun b _ hu => hk.packetEnd b hu

theorem KeptInWaits.writeBytes (hk : KeptInWaits P Q) (a : Addr) (buf : BufRef) (i n : Nat) (h : WithTau P s) :
    (s.writeBytes a buf i n).Keeps P Q := by
  induction n generalizing i s with
  | zero => exact h
  | succ n ih =>
    refine (hk.sendOnly _ _ (hk.byteInHand _ i h)).andThen fun ok u hu => ?_
    split
    · exact ih (i + 1) hu
    · exact hu

theorem KeptInWaits.writeSpace (hk : KeptInWaits P Q) (a : Addr) (n : Nat) (buf : BufRef) (h : WithTau P s) :
    (s.writeSpace a n buf).Keeps P Q := by
  refine (hk.sendOnly _ _ h).andThen fun ok u hu => ?_
  split
  · refine (hk.sendOnly _ _ hu).andThen fun ok' v hv => ?_
    split
    · exact hk.writeBytes a buf 0 n hv
    · exact hv
  · exact hu

theorem KeptInWaits.readAttempt (hk : KeptInWaits P Q) (x : Addr) (h : WithTau P s) : (s.readAttempt x).Keeps P Q :=
  (hk.sendOnly _ _ h).andThen fun _ _ hu => hk.sendPollPacket _ _ hu

theorem KeptInWaits.readByteFrom (hk : KeptInWaits P Q) (x : Addr) (left : Nat) (h : WithTau P s) :
    (s.readByteFrom x left).Keeps P Q := by
  induction left generalizing s with
  | zero =>
    refine (hk.readAttempt x h).andThen fun a u hu => ?_
    split
    · exact hu
    · split <;> exact hu
  | succ k ih =>
    refine (hk.readAttempt x h).andThen fun a u hu => ?_
    split
    · exact ih (hk.setRetry (Nat.sub_le _ k) hu)
    · split <;> exact hu

theorem KeptInWaits.readByte (hk : KeptInWaits P Q) (x : Addr) (h : WithTau P s) : (s.readByte x).Keeps P Q :=
  hk.readByteFrom x _ (hk.setRetry (Nat.zero_le _) h)

theorem KeptInWaits.readBytes (hk : KeptInWaits P Q) (hm : KeptByStores P) (a : Addr) (buf : BufRef) (i n : Nat)
    (h : WithTau P s) : (s.readBytes a buf i n).Keeps P Q := by
  induction n generalizing i s with
  | zero => exact h
  | succ n ih =>
    refine (hk.readByte _ (hk.byteInHand _ i h)).andThen fun r u hu => ?_
    cases r with
    | none => exact hu
    | some b => exact ih (i + 1) ⟨hm u buf i b hu.1, hu.2⟩

theorem KeptInWaits.readSpace (hk : KeptInWaits P Q) (hm : KeptByStores P) (a : Addr) (n : Nat) (buf : BufRef)
    (h : WithTau P s) : (s.readSpace a n buf).Keeps P Q := hk.readBytes hm a buf 0 n h

theorem KeptInWaits.readReverse (hk : KeptInWaits P Q) (hm : KeptByStores P) (a : Addr) (n : Nat) (buf : BufRef)
    (h : WithTau P s) : (s.readReverse a n buf).Keeps P Q := by
  refine (hk.readSpace hm a n buf h).andThen fun c u hu => ?_
  split
  · exact hu
  · refine ⟨hm.bufStoreAll _ _ _ hu.1, ?_⟩
    rw [State.reverseBytes, State.bufStoreAll_frame]
    exact hu.2

theorem KeptInWaits.probe (hk : KeptInWaits P Q) (h : WithTau P s) : s.probe.Keeps P Q := by
  refine (hk.sendPollInterrupt _ _ h).andThen fun yes u hu => ?_
  split
  · exact hu
  · exact (hk.sendPollInterrupt _ _ hu).map fun _ _ hv => hv

theorem KeptInWaits.resolveBitFrom (hk : KeptInWaits P Q) (left : Nat) (h : WithTau P s) :
    (s.resolveBitFrom left).Keeps P Q := by
  induction left generalizing s with
  | zero => exact h
  | succ left ih =>
    refine (hk.probe (hk.setAttempt _ h)).andThen fun branch u hu => ?_
    cases branch with
    | none => exact ih hu
    | some b => exact (hk.sendOnly _ _ hu).map fun _ _ hv => hv

theorem KeptInWaits.searchFrom (hk : KeptInWaits P Q) (hu : KeptByUidWrites P) (left : Nat) (h : WithTau P s) :
    (s.searchFrom left).Keeps P Q := by
  induction left generalizing s with
  | zero => exact h
  | succ left ih =>
    refine (hk.resolveBitFrom _ (hk.setAttempt 0 h)).andThen fun bit u h' => ?_
    cases bit with
    | none => exact h'
    | some b => exact ih (hk.setOffset (Nat.sub_le _ left) ⟨hu u _ h'.1, h'.2⟩)

theorem KeptInWaits.search (hk : KeptInWaits P Q) (hu : KeptByUidWrites P) (h : WithTau P s) : s.search.Keeps P Q :=
  (hk.sendOnly _ _ (hk.setOffset (Nat.zero_le _) (s := s.clearUid) ⟨hu s _ h.1, h.2⟩)).andThen fun _ _ h' =>
    hk.searchFrom hu Config.uidBits h'

end Runs

/-! ### Instructions -/

section Exec
variable {P Q : State → Prop} {s t : State}

/-- An operation that needs TAU keeps `P` if its run and its answer do. -/
theorem needTau_finish_keeps {α : Type} {r : Run α} {answer : α → State → State} (hr : WithTau P s → r.Keeps P Q)
    (ha : ∀ a u, P u → P (answer a u)) (h : P s) (he : s.needTau (finish answer r) = .next t) : P t ∨ Q t := by
  obtain ⟨ht, he⟩ := needTau_next he
  exact (hr ⟨h, ht⟩).finish (fun a u hu => ha a u hu.1) he

/-- An access to a buffer keeps `P` if its run and its answer do; a buffer too short for it gives a free answer. -/
theorem withBuffer_finish_keeps (hk : KeptInWaits P Q) {α : Type} {r : Run α} {answer : α → State → State}
    {buf : BufRef} {n : Nat} (hr : r.Keeps P Q) (ha : ∀ a u, P u → P (answer a u)) (h : P s)
    (he : s.withBuffer buf n (finish answer r) = .next t) : P t ∨ Q t := by
  rcases withBuffer_next he with rfl | he
  · exact .inl (hk.undefined0 h)
  · exact hr.finish (fun a u hu => ha a u hu.1) he

/-- write_addr_space and write_registers, TAU being set. -/
theorem writeSpace_keeps (hk : KeptInWaits P Q) {a : Addr} {n : Nat} {buf : BufRef} (h : WithTau P s)
    (he : s.withBuffer buf n (finish answerCount (s.writeSpace a n buf)) = .next t) : P t ∨ Q t :=
  withBuffer_finish_keeps hk (hk.writeSpace a n buf h) (fun _ _ => hk.answer0 _) h.1 he

/-- read_addr_space and read_registers, TAU being set. -/
theorem readSpace_keeps (hk : KeptInWaits P Q) (hm : KeptByStores P) {a : Addr} {n : Nat} {buf : BufRef}
    (h : WithTau P s) (he : s.withBuffer buf n (finish answerCount (s.readSpace a n buf)) = .next t) : P t ∨ Q t :=
  withBuffer_finish_keeps hk (hk.readSpace hm a n buf h) (fun _ _ => hk.answer0 _) h.1 he

theorem sendWord_keeps (hk : KeptInWaits P Q) {c : Code} {p : Byte} (h : P s) (he : sendWord c p s = .next t) :
    P t ∨ Q t :=
  needTau_finish_keeps (hk.sendOnly c p) (fun _ _ => hk.answer0 _) h he

theorem probeWord_keeps (hk : KeptInWaits P Q) {c : Code} {p : Byte} (h : P s) (he : probeWord c p s = .next t) :
    P t ∨ Q t :=
  needTau_finish_keeps (hk.sendPollInterrupt c p) (fun _ _ => hk.answer0 _) h he

theorem execSendPollPacket_keeps (hk : KeptInWaits P Q) {c : Code} {p : Byte} (h : P s)
    (he : execSendPollPacket c p s = .next t) : P t ∨ Q t :=
  needTau_finish_keeps (hk.sendPollPacket c p) (fun _ _ => hk.answer _ _) h he

/-- What the next state of an instruction satisfies: `P`, if what the instruction does keeps `P`; or `Q`, if rst landed
in it. -/
theorem exec_keeps (hk : KeptInWaits P Q) {i : Instr} (htau : ∀ v, i = .setTau v → P (s.setTau v))
    (hmem : storesBytes i = true → KeptByStores P) (huid : i = .searchId → KeptByUidWrites P) (h : P s)
    (he : exec i s = .next t) : P t ∨ Q t := by
  cases hw : waits i with
  | false => exact .inl (exec_keeps_of_not_waits hk.toKeptAtOnce hw htau hmem h he)
  | true =>
    cases i with
    | delayUs n => exact (hk.delay n h).finish (fun _ _ hu => hu) he
    | guardDelay =>
      obtain ⟨_, he⟩ := needTau_next he
      exact (hk.guard h).finish (fun _ _ hu => hu) he
    | sendOnly c p => exact sendWord_keeps hk h he
    | sendPollInterrupt c p => exact probeWord_keeps hk h he
    | sendPollPacket c p => exact execSendPollPacket_keeps hk h he
    | writeAddrSpace a n buf =>
      obtain ⟨ht, he⟩ := needTau_next he
      exact writeSpace_keeps hk ⟨h, ht⟩ he
    | readAddrSpace a n buf =>
      obtain ⟨ht, he⟩ := needTau_next he
      exact readSpace_keeps hk (hmem rfl) ⟨h, ht⟩ he
    | readAddrReverse a n buf =>
      obtain ⟨ht, he⟩ := needTau_next he
      exact withBuffer_finish_keeps hk (hk.readReverse (hmem rfl) a _ buf ⟨h, ht⟩) (fun _ _ => hk.answer0 _) h he
    | readRegisters id buf =>
      obtain ⟨ht, he⟩ := needTau_next he
      split at he
      · exact .inl (next_keeps (hk.undefined0 h) he)
      · exact readSpace_keeps hk (hmem rfl) ⟨h, ht⟩ he
    | writeRegisters id buf =>
      obtain ⟨ht, he⟩ := needTau_next he
      split at he
      · exact .inl (next_keeps (hk.undefined0 h) he)
      · exact writeSpace_keeps hk ⟨h, ht⟩ he
    | searchId => exact needTau_finish_keeps (hk.search (huid rfl)) (fun _ _ => hk.answer0 _) h he
    | readRegAddr p => exact execSendPollPacket_keeps hk h he
    | probeBranch0 => exact probeWord_keeps hk h he
    | probeBranch1 => exact probeWord_keeps hk h he
    | writeData p => exact sendWord_keeps hk h he
    | extendedRegAddr p => exact sendWord_keeps hk h he
    | writeRegAddr p => exact sendWord_keeps hk h he
    | busReset => exact sendWord_keeps hk h he
    | discoverStart => exact sendWord_keeps hk h he
    | enterBranch0 => exact sendWord_keeps hk h he
    | enterBranch1 => exact sendWord_keeps hk h he
    | _ => cases hw

end Exec

/-! ### Steps -/

/-- Everything a step that ends in a next state can do. -/
theorem step_cases {s t : State} (h : step s = .next t) :
    t = s.tick ∨ ∃ rest,
      t = (s.setInbox rest).tick ∨ t = (s.setInbox rest).applyReset ∨
      (∃ k, t = (s.setInbox rest).setRstIn (some k)) ∨ (∃ left, t = (s.setInbox rest).setTicksLeft left) ∨
      ∃ i, exec i (s.setInbox rest) = .next t := by
  unfold step nextStep at h
  split at h
  · exact .inl (Host.Outcome.next.inj h).symm
  · next x rest _ =>
    refine .inr ⟨rest, ?_⟩
    cases x with
    | request r =>
      simp only [takeInput, runRequest] at h
      split at h
      · next i _ => exact .inr (.inr (.inr (.inr ⟨i, h⟩)))
      · cases h
    | tick => exact .inl (Host.Outcome.next.inj h).symm
    | rst => exact .inr (.inl (Host.Outcome.next.inj h).symm)
    | rstIn k => exact .inr (.inr (.inl ⟨k, (Host.Outcome.next.inj h).symm⟩))
    | tickSource left => exact .inr (.inr (.inr (.inl ⟨left, (Host.Outcome.next.inj h).symm⟩)))

/-- A property kept by every write of the block, by a change of what stands outside it that leaves the counter, and by the
rst port, is kept by every step. -/
theorem step_keeps {P : State → Prop} (hk : KeptInWaits P P) (htau : ∀ u v, P u → P (u.setTau v))
    (hmem : KeptByStores P) (huid : KeptByUidWrites P) (henv : ∀ u e, e.now = u.env.now → P u → P { u with env := e })
    (hrst : ∀ u, P u → P u.applyReset) {s t : State} (h : P s) (he : step s = .next t) : P t := by
  rcases step_cases he with rfl | ⟨rest, hu⟩
  · exact hk.tick s h
  · have h' : P (s.setInbox rest) := henv s _ rfl h
    rcases hu with rfl | rfl | ⟨k, rfl⟩ | ⟨left, rfl⟩ | ⟨i, he⟩
    · exact hk.tick _ h'
    · exact hrst _ h'
    · exact henv _ _ rfl h'
    · exact henv _ _ rfl h'
    · exact or_self_iff.1 (exec_keeps hk (fun v _ => htau _ v h') (fun _ => hmem) (fun _ => huid) h' he)

/-! ### The statements -/

theorem inv_keptInWaits : KeptInWaits State.Inv State.Inv where
  answer _ _ h := h
  freeCtr _ _ h := h
  beginTransfer _ w m h ht := State.beginTransfer_inv h ht w m
  lineIdle _ h := State.lineIdle_inv h
  tick _ h := State.tick_inv h
  lag _ _ h := h
  rstIn _ _ h _ := h
  scratch u r h hr := by
    obtain ⟨h1, h2, h3, h4, h5, h6, h7, h8⟩ := h
    exact ⟨h1, h2, h3, h4, h5, h6, hr h7, h8⟩
  lands _ h _ := State.rstLands_inv h

/-- Settles O3: each write of the block keeps the invariant (Laws/Invariant.lean), and outside the block it speaks of
the counter alone. -/
theorem everyStepKeepsInvariant : Obligations.EveryStepKeepsInvariant := fun s _ h he =>
  step_keeps inv_keptInWaits (fun _ v hu => State.setTau_inv hu v) (fun _ buf i b hu => State.bufStore_inv hu buf i b)
    (fun _ _ hu => hu)
    (fun u e hn hu => by rw [State.inv_iff] at hu ⊢; exact ⟨hn ▸ hu.1, hu.2⟩)
    (fun _ hu => State.applyReset_inv hu) h he

/-- REGMAP and the open parameters are those of `s` (R26, R10). -/
abbrev SameTables (s u : State) : Prop := u.regmap = s.regmap ∧ u.par = s.par

theorem sameTables_keptInWaits (s : State) : KeptInWaits (SameTables s) (SameTables s) where
  answer _ _ h := h
  freeCtr _ _ h := h
  beginTransfer _ _ _ h _ := by simpa [SameTables] using h
  lineIdle _ h := by simpa [SameTables] using h
  tick _ h := by simpa [SameTables] using h
  lag _ _ h := h
  rstIn _ _ h _ := h
  scratch _ _ h _ := h
  lands _ h _ := h

/-- Settles O54: nothing the block does, rst included, writes REGMAP or the parameters. -/
theorem registerMapIsReadOnly : Obligations.RegisterMapIsReadOnly := fun s _ he =>
  step_keeps (sameTables_keptInWaits s) (fun _ _ hu => hu) (fun _ _ _ _ hu => hu) (fun _ _ hu => hu)
    (fun _ _ _ hu => hu) (fun _ hu => hu) ⟨rfl, rfl⟩ he

/-- TAU is that of `s`, set or not set as there, and no rst is due (R11). -/
abbrev SameTau (s u : State) : Prop :=
  u.drv.tau = s.drv.tau ∧ u.drv.tauSet = s.drv.tauSet ∧ u.env.rstIn = none

theorem State.lineIdle_tau (s : State) : s.lineIdle.drv.tau = s.drv.tau ∧ s.lineIdle.drv.tauSet = s.drv.tauSet := by
  unfold State.lineIdle
  split <;> exact ⟨rfl, rfl⟩

theorem sameTau_keptInWaits (s : State) : KeptInWaits (SameTau s) (SameTau s) where
  answer _ _ h := h
  freeCtr _ _ h := h
  beginTransfer _ _ _ h _ := by simpa [SameTau] using h
  lineIdle u h := by simpa [SameTau, State.lineIdle_tau] using h
  tick _ h := by simpa [SameTau] using h
  lag _ _ h := h
  rstIn _ _ h hr := ⟨h.1, h.2.1, hr.2 h.2.2⟩
  scratch _ _ h _ := h
  lands _ h hr := absurd h.2.2 hr

/-- Settles O55: of all writes only set_tau's own and rst's touch TAU, and with none due no rst lands. -/
theorem onlySetTauWritesTau : Obligations.OnlySetTauWritesTau := by
  intro i s t hi hr he
  have ht : SameTau s t := or_self_iff.1 <| exec_keeps (sameTau_keptInWaits s) (fun v e => absurd e (hi v))
    (fun _ _ _ _ _ hu => hu) (fun _ _ _ hu => hu) ⟨rfl, rfl, hr⟩ he
  exact ⟨ht.1, ht.2.1⟩

/-- UID[] is that of `s`, and no rst is due (R25). -/
abbrev SameUid (s u : State) : Prop := u.uid = s.uid ∧ u.env.rstIn = none

theorem sameUid_keptInWaits (s : State) : KeptInWaits (SameUid s) (SameUid s) where
  answer _ _ h := h
  freeCtr _ _ h := h
  beginTransfer _ _ _ h _ := by simpa [SameUid] using h
  lineIdle _ h := by simpa [SameUid] using h
  tick _ h := by simpa [SameUid] using h
  lag _ _ h := h
  rstIn _ _ h hr := ⟨h.1, hr.2 h.2⟩
  scratch _ _ h _ := h
  lands _ h hr := absurd h.2 hr

/-- Settles O56: of all writes only the search's own and rst's touch UID[], and with none due no rst lands. -/
theorem onlySearchWritesUid : Obligations.OnlySearchWritesUid := by
  intro i s t hi hr he
  have ht : SameUid s t := or_self_iff.1 <| exec_keeps (sameUid_keptInWaits s) (fun _ _ => ⟨rfl, hr⟩)
    (fun _ _ _ _ _ hu => hu) (fun e => absurd e hi) ⟨rfl, hr⟩ he
  exact ht.1

/-- The counter, the levels still to be sampled and the waiting events are those of `s` (R29). -/
abbrev SameTime (s u : State) : Prop :=
  u.env.now = s.env.now ∧ u.env.lineIn = s.env.lineIn ∧ u.env.inbox = s.env.inbox

theorem sameTime_keptAtOnce (s : State) : KeptAtOnce (SameTime s) where
  answer _ _ h := h
  freeCtr _ _ h := h
  beginTransfer _ _ _ h _ := by simpa [SameTime] using h
  lineIdle _ h := by simpa [SameTime] using h

/-- Settles O58: what is done at once leaves the counter, the line script and the waiting events alone. -/
theorem onlyWaitsLetTimePass : Obligations.OnlyWaitsLetTimePass := fun _ s _ he hi hd =>
  exec_keeps_of_not_waits (sameTime_keptAtOnce s) (waits_eq_false hi hd) (fun _ _ => ⟨rfl, rfl, rfl⟩)
    (fun _ _ _ _ _ hu => hu) ⟨rfl, rfl, rfl⟩ he

end Sys2Proof.Machine

/-! PROOFS, 20_memory.md. Every instruction is a run of the foreground: exchanges, delays and steps between them. So with
TAU set it ends while ticks arrive (O53) and hangs once fewer come than it takes (O25); a cycle's end (O15), and what
leaves the callers' memory alone (O57). -/

namespace Sys2Proof.Machine

/-! ### What writes the callers' memory -/

theorem storesBytes_eq_false {i : Instr} (h1 : ∀ a n b, i ≠ .readAddrSpace a n b)
    (h2 : ∀ a n b, i ≠ .readAddrReverse a n b) (h3 : ∀ d b, i ≠ .readRegisters d b)
    (h4 : ∀ n b, i ≠ .reverseByteOrder n b) : storesBytes i = false := by
  cases i with
  | readAddrSpace a n b => exact absurd rfl (h1 a n b)
  | readAddrReverse a n b => exact absurd rfl (h2 a n b)
  | readRegisters d b => exact absurd rfl (h3 d b)
  | reverseByteOrder n b => exact absurd rfl (h4 n b)
  | _ => rfl

/-- The callers' memory is that of `s` (R60). -/
abbrev SameMem (s u : State) : Prop := u.mem = s.mem

theorem sameMem_keptInWaits (s : State) : KeptInWaits (SameMem s) (SameMem s) where
  answer _ _ h := h
  freeCtr _ _ h := h
  beginTransfer _ _ _ h _ := by simpa [SameMem] using h
  lineIdle _ h := by simpa [SameMem] using h
  tick _ h := by simpa [SameMem] using h
  lag _ _ h := h
  rstIn _ _ h _ := h
  scratch _ _ h _ := h
  lands _ h _ := h

/-- Settles O57: of all writes only a byte stored in a buffer touches the memory, and rst leaves it. -/
theorem onlyReadsAndReversalWriteBuffers : Obligations.OnlyReadsAndReversalWriteBuffers := by
  intro i s t h1 h2 h3 h4 he
  have hi : storesBytes i = false := storesBytes_eq_false h1 h2 h3 h4
  exact or_self_iff.1 <| exec_keeps (sameMem_keptInWaits s) (fun _ _ => rfl) (fun hs => by simp [hi] at hs)
    (fun _ _ _ hu => hu) rfl he

/-! ### The end of a cycle -/

theorem BusState.not_ready_of_polling {b : BusState} (h : b.polling = true) : b.ready = false := by
  cases b <;> simp_all [BusState.polling, BusState.ready]

/-- A word sent in SendOnly leaves Idle (R128). -/
theorem Driver.wordSent_sendOnly {d : Driver} (hm : d.mode = .sendOnly) (t : Word) : (d.wordSent t).bus = .idle := by
  simp [Driver.wordSent, Driver.endOfSend, hm]

/-- A word sent in another mode leaves that mode's poll, begun at the tick at which the word ended (R128). -/
theorem Driver.wordSent_poll {d : Driver} (hm : d.mode ≠ .sendOnly) (t : Word) :
    (d.wordSent t).bus.polling = true ∧ (d.wordSent t).timeline[0] = t := by
  unfold Driver.wordSent Driver.endOfSend
  cases h : d.mode with
  | sendOnly => exact absurd h hm
  | pollInterrupt => simp [Driver.startPoll, Driver.pinDir, BusState.polling]
  | pollPacket => simp [Driver.startPoll, Driver.pinDir, BusState.polling]

/-- A cycle ends within its word and, for a poll, the budget of its mode; until then it is in progress (R79, R137). -/
theorem State.begun_ends {s : State} (h : s.Live) (hb : s.drv.bus = .begin) :
    ∃ k ≤ 1 + sendTicks s.drv.tau (s.drv.txsr.setWidth 17) + (if s.drv.mode = .sendOnly then 0 else s.budget),
      (State.ticks k s).drv.bus.ready = true ∧ ∀ j < k, (State.ticks j s).drv.bus.ready = false := by
  obtain ⟨hinv, hset, ht, -⟩ := h
  have htau : 1 ≤ s.drv.tau.toNat := by have := (hinv.1.1 hset).1; omega
  obtain ⟨hw, hj⟩ := State.ticks_word ht hb htau
  have hbusy : ∀ j < 1 + sendTicks s.drv.tau (s.drv.txsr.setWidth 17), (State.ticks j s).drv.bus.ready = false :=
    fun j hjn => by rcases hj j hjn with e | e <;> rw [e] <;> rfl
  generalize 1 + sendTicks s.drv.tau (s.drv.txsr.setWidth 17) = n at hw hbusy ⊢
  by_cases hm : s.drv.mode = .sendOnly
  · refine ⟨n, by omega, ?_, hbusy⟩
    rw [hw]
    simp [Driver.wordSent_sendOnly hm, BusState.ready]
  · obtain ⟨hp, h0⟩ := Driver.wordSent_poll hm (s.env.now + BitVec.ofNat 32 n)
    have hpu : (State.ticks n s).drv.bus.polling = true := by rw [hw]; exact hp
    have hel : (State.ticks n s).elapsed = 0 := by rw [hw]; simp [State.elapsed, h0]
    have hbud : (State.ticks n s).budget = s.budget := by simp [State.budget]
    obtain ⟨k, hk, hr, hkj⟩ := State.poll_ends s.budget (State.ticks_inv n hinv) (by simp [ht]) hpu (by omega)
      s.budget_pos
    refine ⟨n + k, by rw [if_neg hm]; omega, by rw [State.ticks_add]; exact hr, fun j hjk => ?_⟩
    by_cases hjn : j < n
    · exact hbusy j hjn
    · obtain ⟨i, rfl⟩ := Nat.exists_eq_add_of_le (Nat.le_of_not_lt hjn)
      rw [State.ticks_add, hkj i (by omega)]
      exact BusState.not_ready_of_polling hpu

/-- Settles O15: the wait ends at the tick that ends the cycle, and a word takes at most 51 TAU. -/
theorem cycleEndsInBoundedTime : Obligations.CycleEndsInBoundedTime := by
  intro s h hb
  obtain ⟨k, hk, hr, hj⟩ := State.begun_ends h hb
  obtain ⟨-, -, hund⟩ := h
  have hw := sendTicks_le s.drv.tau (s.drv.txsr.setWidth 17)
  have hbud : (if s.drv.mode = .sendOnly then 0 else s.budget) < 2 ^ 32 := by
    split
    · decide
    · exact (pollBudget s.par s.drv.mode s.drv.tau).isLt
  have htau := s.drv.tau.isLt
  refine ⟨k, State.ticks k s, State.spin_of_first hund (lt_spinFuel (by omega)) hr hj, rfl, hr, hk.trans ?_⟩
  exact Nat.add_le_add_right (Nat.add_le_add_left hw 1) _

/-! ### Runs of the foreground -/

/-- A step of the foreground between its waits: it takes no tick, leaves rst and the ticks to come as they are and, TAU
being set, keeps the invariant (R7, R77). -/
structure Quiet (g : State → State) : Prop where
  armed     : ∀ s, s.Armed → (g s).Armed
  now       : ∀ s, (g s).env.now = s.env.now
  rstIn     : ∀ s, (g s).env.rstIn = s.env.rstIn
  ticksLeft : ∀ s r, g (s.setTicksLeft r) = (g s).setTicksLeft r

/-- The runs made of exchanges, delays and quiet steps (R77, R190): what every instruction comes to. -/
inductive Foreground : {α : Type} → (State → Run α) → Prop where
  | exchange (c : Code) (p : Byte) (m : Mode) : Foreground fun s => s.exchange c p m
  | delay (n : Word) : Foreground fun s => s.delay n
  | step {α : Type} {a : State → α} {g : State → State} (ha : ∀ s r, a (s.setTicksLeft r) = a s) (hg : Quiet g) :
      Foreground fun s => .done (a s) (g s)
  | andThen {α β : Type} {f : State → Run α} {k : α → State → Run β} (hf : Foreground f)
      (hk : ∀ a, Foreground (k a)) : Foreground fun s => (f s).andThen k

/-! ### Quiet steps -/

theorem Quiet.id : Quiet fun s => s := ⟨fun _ h => h, fun _ => rfl, fun _ => rfl, fun _ _ => rfl⟩

theorem Quiet.comp {g g' : State → State} (h : Quiet g) (h' : Quiet g') : Quiet fun s => g' (g s) where
  armed s hs := h'.armed _ (h.armed s hs)
  now s := (h'.now _).trans (h.now s)
  rstIn s := (h'.rstIn _).trans (h.rstIn s)
  ticksLeft s r := by rw [h.ticksLeft, h'.ticksLeft]

/-- Ticks still to come are left as they are. -/
theorem Quiet.ticksLeft_eq {g : State → State} (h : Quiet g) (s : State) : (g s).env.ticksLeft = s.env.ticksLeft := by
  have e : g s = (g s).setTicksLeft s.env.ticksLeft := h.ticksLeft s s.env.ticksLeft
  rw [e]
  rfl

theorem Quiet.answer {v w : State → Word} (hv : ∀ s r, v (s.setTicksLeft r) = v s)
    (hw : ∀ s r, w (s.setTicksLeft r) = w s) : Quiet fun s => s.answer (v s) (w s) where
  armed _ h := h
  now _ := rfl
  rstIn _ := rfl
  ticksLeft s r := by rw [hv, hw]; rfl

theorem Quiet.answer0 {v : State → Word} (hv : ∀ s r, v (s.setTicksLeft r) = v s) : Quiet fun s => s.answer0 (v s) where
  armed _ h := h
  now _ := rfl
  rstIn _ := rfl
  ticksLeft s r := by rw [hv]; rfl

theorem Quiet.drew : Quiet State.drew := ⟨fun _ h => h, fun _ => rfl, fun _ => rfl, fun _ _ => rfl⟩

theorem Quiet.undefined0 : Quiet State.undefined0 := ⟨fun _ h => h, fun _ => rfl, fun _ => rfl, fun _ _ => rfl⟩

theorem Quiet.byteInHand (a : Addr) (i : Nat) : Quiet (State.byteInHand a i) :=
  ⟨fun _ h => h, fun _ => rfl, fun _ => rfl, fun _ _ => rfl⟩

/-- A write to the scratch registers that keeps them in range. -/
theorem Quiet.scratch {f : State → Scratch} (hf : ∀ s r, f (s.setTicksLeft r) = f s)
    (hi : ∀ s, s.scr.Inv → (f s).Inv) : Quiet fun s => { s with scr := f s } where
  armed s h := by
    obtain ⟨⟨h1, h2, h3, h4, h5, h6, h7, h8⟩, ht⟩ := h
    exact ⟨⟨h1, h2, h3, h4, h5, h6, hi s h7, h8⟩, ht⟩
  now _ := rfl
  rstIn _ := rfl
  ticksLeft s r := by rw [hf]; rfl

theorem Quiet.setRetry {n : Nat} (hn : n ≤ Config.readRetries) : Quiet (State.setRetry n) :=
  Quiet.scratch (fun _ _ => rfl) fun _ h => Scratch.inv_retry h hn

theorem Quiet.setStatus {st p : State → Byte} (hst : ∀ s r, st (s.setTicksLeft r) = st s)
    (hp : ∀ s r, p (s.setTicksLeft r) = p s) : Quiet fun s => s.setStatus (st s) (p s) :=
  Quiet.scratch (fun s r => by rw [hst, hp]; rfl) fun _ h => h

theorem Quiet.setOffset {n : Nat} (hn : n ≤ Config.uidBits) : Quiet (State.setOffset n) :=
  Quiet.scratch (fun _ _ => rfl) fun _ h => Scratch.inv_offset h hn

theorem Quiet.setAttempt (n : Nat) : Quiet (State.setAttempt n) := Quiet.scratch (fun _ _ => rfl) fun _ h => h

theorem Quiet.clearUid : Quiet State.clearUid := ⟨fun _ h => h, fun _ => rfl, fun _ => rfl, fun _ _ => rfl⟩

theorem Quiet.setUidBit (p : Nat) (b : Bool) : Quiet (State.setUidBit p b) :=
  ⟨fun _ h => h, fun _ => rfl, fun _ => rfl, fun _ _ => rfl⟩

theorem Quiet.bufStore (buf : BufRef) (i : Nat) (b : Byte) : Quiet (State.bufStore buf i b) :=
  ⟨fun _ h => ⟨State.bufStore_inv h.1 buf i b, h.2⟩, fun _ => rfl, fun _ => rfl, fun _ _ => rfl⟩

theorem Quiet.bufStoreAll (buf : BufRef) (i : Nat) (l : List Byte) : Quiet (State.bufStoreAll buf i l) := by
  induction l generalizing i with
  | nil => exact Quiet.id
  | cons b rest ih => exact (Quiet.bufStore buf i b).comp (ih (i + 1))

theorem Quiet.reverseBytes (buf : BufRef) (n : Nat) : Quiet (State.reverseBytes buf n) where
  armed s := (Quiet.bufStoreAll buf 0 _).armed s
  now s := (Quiet.bufStoreAll buf 0 _).now s
  rstIn s := (Quiet.bufStoreAll buf 0 _).rstIn s
  ticksLeft s r := (Quiet.bufStoreAll buf 0 (s.bufBytes buf n).reverse).ticksLeft s r

theorem Quiet.stampsRead : Quiet State.stampsRead where
  armed s h := by
    unfold State.stampsRead
    split <;> exact h
  now s := s.stampsRead_now
  rstIn s := s.stampsRead_rstIn
  ticksLeft s r := by
    unfold State.stampsRead
    by_cases h : 19 ≤ s.drv.nedge.toNat
    · rw [if_pos h, if_pos (by exact h)]
    · rw [if_neg h, if_neg (by exact h)]; rfl

theorem Quiet.setTau (v : Word) : Quiet (State.setTau v) :=
  ⟨fun _ h => ⟨State.setTau_inv h.1 v, rfl⟩, fun _ => rfl, fun _ => rfl, fun _ _ => rfl⟩

theorem Quiet.beginTransfer (w : Word) (m : Mode) : Quiet (State.beginTransfer w m) where
  armed s h := State.beginTransfer_armed w m s h
  now s := s.beginTransfer_now w m
  rstIn s := s.beginTransfer_rstIn w m
  ticksLeft s r := by
    cases h : s.drv.bus.ready
    · rw [State.beginTransfer_busy h, State.beginTransfer_busy (by exact h)]
    · rw [State.beginTransfer_ready h, State.beginTransfer_ready (by exact h)]; rfl

theorem Quiet.lineIdle : Quiet State.lineIdle where
  armed s h := ⟨State.lineIdle_inv h.1, (State.lineIdle_tau s).2.trans h.2⟩
  now s := by rw [s.lineIdle_env]
  rstIn s := by rw [s.lineIdle_env]
  ticksLeft s r := by
    unfold State.lineIdle
    by_cases h : s.drv.bus.ready = true
    · rw [if_pos h, if_pos (by exact h)]; rfl
    · rw [if_neg h, if_neg (by exact h)]

/-! ### What a run of the foreground comes to -/

/-- While ticks arrive a run of the foreground ends, keeping the invariant, or rst cuts it off; and if no rst was due
none is due after it (R79, R190, R326). -/
theorem Foreground.ends {α : Type} {f : State → Run α} (hf : Foreground f) {s : State} (h : s.Going) :
    (f s).Ends (fun _ t => t.Going ∧ (s.env.rstIn = none → t.env.rstIn = none))
      fun t => t.Inv ∧ t.env.ticksLeft = none ∧ s.env.rstIn ≠ none := by
  induction hf generalizing s with
  | exchange c p m =>
    obtain ⟨hsat, hnh⟩ := State.exchange_ends h c p m
    exact ⟨hsat.mono (fun _ _ ht => ⟨ht.1, ht.2.1⟩) fun _ ht => ht, hnh⟩
  | delay n =>
    refine ⟨State.delay_sat (P := fun t => t.Going ∧ (s.env.rstIn = none → t.env.rstIn = none))
      (fun u hu => ⟨State.tick_going u hu.1, by simpa using hu.2⟩) (fun u r hu hr => ⟨hu.1, fun e => hr.2 (hu.2 e)⟩)
      (fun u hu hn => ⟨State.rstLands_inv hu.1.1.1, hu.1.2, fun e => hn (hu.2 e)⟩) n ⟨h, fun e => e⟩,
      State.delay_not_hung h.2 n⟩
  | step _ hg => exact ⟨⟨⟨hg.armed s h.1, (hg.ticksLeft_eq s).trans h.2⟩, fun e => (hg.rstIn s).trans e⟩, by simp⟩
  | andThen _ _ ihf ihk =>
    refine (ihf h).andThen fun a t ht => ?_
    obtain ⟨hgo, hr⟩ := ht
    obtain ⟨hsat, hnh⟩ := ihk a hgo
    exact ⟨hsat.mono (fun _ _ ⟨hgo', hr'⟩ => ⟨hgo', fun e => hr' (hr e)⟩)
      fun _ ⟨hinv, hl, hr'⟩ => ⟨hinv, hl, fun e => hr' (hr e)⟩, hnh⟩

/-- A delay takes its ticks; with fewer to come it hangs (R79, R133). -/
theorem State.delay_metered {s : State} (hr : s.env.rstIn = none) (n : Word) :
    (s.setTicksLeft none).delay n = .done () (State.ticks n.toNat (s.setTicksLeft none)) ∧
      (∀ k, k < n.toNat → (s.setTicksLeft (some k)).delay n = .hung) ∧
      ∀ k, n.toNat ≤ k → (s.setTicksLeft (some k)).delay n =
        .done () ((State.ticks n.toNat (s.setTicksLeft none)).setTicksLeft (some (k - n.toNat))) := by
  have hn := n.isLt
  refine State.spin_metered (p := fun v => decide (n ≤ v.env.now - s.env.now)) (fun _ _ => rfl) hr
    (lt_spinFuel (by omega)) ?_ (State.delay_goes_on (s := s.setTicksLeft none) rfl n)
  simp [State.ticks_now _ (s := s.setTicksLeft none) rfl, BitVec.add_comm s.env.now]

/-- A run of the foreground takes some ticks: with fewer to come it hangs, with as many or more it is done in the same
state (R79). -/
theorem Foreground.metered {α : Type} {f : State → Run α} (hf : Foreground f) {s : State} (h : s.Armed)
    (hr : s.env.rstIn = none) : Metered f s := by
  induction hf generalizing s with
  | exchange c p m => exact State.exchange_metered h hr c p m
  | delay n =>
    obtain ⟨hd, hlt, hge⟩ := State.delay_metered hr n
    exact ⟨n.toNat, (), _, hd, State.ticks_now _ rfl, hlt, hge⟩
  | step ha hg =>
    refine Metered.pure rfl ((hg.now _).trans rfl) fun n => ?_
    rw [ha, ha, hg.ticksLeft, hg.ticksLeft]
    rfl
  | @andThen _ _ f k hf _ ihf ihk =>
    refine (ihf h hr).andThen fun a t hft => ?_
    obtain ⟨hsat, -⟩ := hf.ends (s := s.setTicksLeft none) ⟨h, rfl⟩
    rw [hft] at hsat
    obtain ⟨⟨hat, htl⟩, htr⟩ := hsat
    exact ⟨htl, ihk a hat (htr hr)⟩

/-! ### The operations are runs of the foreground -/

theorem Foreground.done {α : Type} (a : α) : Foreground fun s => .done a s := .step (fun _ _ => rfl) Quiet.id

theorem Foreground.map {α β : Type} {f : State → Run α} (hf : Foreground f) (g : α → β) :
    Foreground fun s => (f s).map g := by
  have e : (fun s => (f s).map g) = fun s => (f s).andThen fun a u => .done (g a) u :=
    funext fun s => by cases f s <;> rfl
  rw [e]
  exact hf.andThen fun a => .done (g a)

/-- A run after a quiet step. -/
theorem Foreground.after {α : Type} {f : State → Run α} {g : State → State} (hg : Quiet g) (hf : Foreground f) :
    Foreground fun s => f (g s) :=
  .andThen (f := fun s => .done () (g s)) (.step (fun _ _ => rfl) hg) fun _ => hf

/-- A run with an operand that is read from the state. -/
theorem Foreground.reading {α γ : Type} {f : γ → State → Run α} {v : State → γ}
    (hv : ∀ s r, v (s.setTicksLeft r) = v s) (hf : ∀ x, Foreground (f x)) : Foreground fun s => f (v s) s :=
  .andThen (f := fun s => .done (v s) s) (.step hv Quiet.id) hf

theorem Foreground.guard : Foreground State.guard :=
  .reading (v := fun s => 5 * s.drv.tau.setWidth 32) (fun _ _ => rfl) Foreground.delay

theorem Foreground.sendOnly (c : Code) (p : Byte) : Foreground (State.sendOnly c p) := .map (.exchange c p _) _

theorem Foreground.sendPollInterrupt (c : Code) (p : Byte) : Foreground (State.sendPollInterrupt c p) :=
  .map (.exchange c p _) _

theorem Foreground.packetEnd (b : BusState) : Foreground (State.packetEnd b) := by
  unfold State.packetEnd
  by_cases h : b = .timeout
  · simp only [if_pos h]
    exact .step (fun _ _ => rfl) (Quiet.setStatus (fun _ _ => rfl) fun _ _ => rfl)
  · simp only [if_neg h]
    exact .reading (f := fun (a : Byte × Byte) s => .done a (s.stampsRead.setStatus a.1 a.2)) (fun _ _ => rfl) fun _ =>
      .step (fun _ _ => rfl) (Quiet.stampsRead.comp (Quiet.setStatus (fun _ _ => rfl) fun _ _ => rfl))

theorem Foreground.sendPollPacket (c : Code) (p : Byte) : Foreground (State.sendPollPacket c p) :=
  .andThen (.exchange c p _) .packetEnd

theorem Foreground.writeBytes (a : Addr) (buf : BufRef) (i n : Nat) : Foreground (State.writeBytes a buf i n) := by
  induction n generalizing i with
  | zero => exact .done i
  | succ n ih =>
    refine .andThen (f := fun s => (s.byteInHand (addrPlus a i) i).sendOnly Config.codeWD (s.bufByte buf i))
      (.reading (f := fun b s => (s.byteInHand (addrPlus a i) i).sendOnly Config.codeWD b) (fun _ _ => rfl) fun b =>
        .after (Quiet.byteInHand _ i) (.sendOnly _ b)) fun ok => ?_
    cases ok with
    | false => exact .done i
    | true => exact ih (i + 1)

theorem Foreground.writeSpace (a : Addr) (n : Nat) (buf : BufRef) : Foreground (State.writeSpace a n buf) := by
  refine .andThen (.sendOnly _ _) fun ok => ?_
  cases ok with
  | false => exact .done 0
  | true =>
    refine .andThen (.sendOnly _ _) fun ok' => ?_
    cases ok' with
    | false => exact .done 0
    | true => exact .writeBytes a buf 0 n

theorem Foreground.readAttempt (x : Addr) : Foreground (State.readAttempt x) :=
  .andThen (.sendOnly _ _) fun _ => .sendPollPacket _ _

/-- What a byte read answers when it is not asked again (R201). -/
theorem Foreground.readAnswer (a : Byte × Byte) :
    Foreground fun u => if endOfTransmission a.1 then .done (some a.2) u else .done none u := by
  cases endOfTransmission a.1 with
  | false => exact .done none
  | true => exact .done (some a.2)

theorem Foreground.readByteFrom (x : Addr) (left : Nat) : Foreground (State.readByteFrom x left) := by
  induction left with
  | zero =>
    refine .andThen (.readAttempt x) fun a => ?_
    by_cases h : a.1 = Config.statusTimeout
    · simp only [if_pos h]
      exact .done none
    · simp only [if_neg h]
      exact .readAnswer a
  | succ k ih =>
    refine .andThen (.readAttempt x) fun a => ?_
    by_cases h : a.1 = Config.statusTimeout
    · simp only [if_pos h]
      exact .after (Quiet.setRetry (Nat.sub_le _ k)) ih
    · simp only [if_neg h]
      exact .readAnswer a

theorem Foreground.readByte (x : Addr) : Foreground (State.readByte x) :=
  .after (g := State.setRetry 0) (Quiet.setRetry (Nat.zero_le _)) (.readByteFrom x _)

theorem Foreground.readBytes (a : Addr) (buf : BufRef) (i n : Nat) : Foreground (State.readBytes a buf i n) := by
  induction n generalizing i with
  | zero => exact .done i
  | succ n ih =>
    refine .andThen (.after (Quiet.byteInHand _ i) (.readByte _)) fun r => ?_
    cases r with
    | none => exact .done i
    | some b => exact .after (Quiet.bufStore buf i b) (ih (i + 1))

theorem Foreground.readReverse (a : Addr) (n : Nat) (buf : BufRef) : Foreground (State.readReverse a n buf) := by
  refine .andThen (.readBytes a buf 0 n) fun c => ?_
  by_cases h : c < n
  · simp only [if_pos h]
    exact .done _
  · simp only [if_neg h]
    exact .step (fun _ _ => rfl) (Quiet.reverseBytes buf n)

theorem Foreground.probe : Foreground State.probe := by
  refine .andThen (.sendPollInterrupt _ _) fun yes => ?_
  cases yes with
  | false => exact .map (.sendPollInterrupt _ _) _
  | true => exact .done (some true)

theorem Foreground.resolveBitFrom (left : Nat) : Foreground (State.resolveBitFrom left) := by
  induction left with
  | zero => exact .done none
  | succ left ih =>
    refine .andThen (.after (Quiet.setAttempt _) .probe) fun branch => ?_
    cases branch with
    | none => exact ih
    | some b => exact .map (.sendOnly _ _) _

theorem Foreground.searchFrom (left : Nat) : Foreground (State.searchFrom left) := by
  induction left with
  | zero => exact .done true
  | succ left ih =>
    refine .andThen (.after (g := State.setAttempt 0) (Quiet.setAttempt 0) (.resolveBitFrom _)) fun bit => ?_
    cases bit with
    | none => exact .done false
    | some b => exact .after ((Quiet.setUidBit left b).comp (Quiet.setOffset (Nat.sub_le _ left))) ih

theorem Foreground.search : Foreground State.search :=
  .andThen (.after (Quiet.clearUid.comp (Quiet.setOffset (Nat.zero_le _))) (.sendOnly _ _)) fun _ => .searchFrom _

/-! ### The instructions are runs of the foreground -/

/-- With TAU set the instruction is a run of the foreground, its answer among its steps. -/
def RunsInForeground (e : State → Host.Outcome State Fault Refusal) : Prop :=
  ∃ f : State → Run Unit, Foreground f ∧ ∀ s, s.drv.tauSet = true → e s = finish noAnswer (f s)

theorem RunsInForeground.atOnce {g : State → State} (hg : Quiet g) : RunsInForeground fun s => .next (g s) :=
  ⟨fun s => .done () (g s), .step (fun _ _ => rfl) hg, fun _ _ => rfl⟩

theorem RunsInForeground.finish {α : Type} {f : State → Run α} (hf : Foreground f) {answer : α → State → State}
    (ha : ∀ a, Quiet (answer a)) : RunsInForeground fun s => Machine.finish answer (f s) :=
  ⟨fun s => (f s).andThen fun a u => .done () (answer a u), hf.andThen fun a => .step (fun _ _ => rfl) (ha a),
    fun s _ => by cases h : f s <;> simp only [h] <;> rfl⟩

theorem RunsInForeground.needTau {e : State → Host.Outcome State Fault Refusal} (he : RunsInForeground e) :
    RunsInForeground fun s => s.needTau (e s) := by
  obtain ⟨f, hf, h⟩ := he
  exact ⟨f, hf, fun s ht => (if_pos ht).trans (h s ht)⟩

theorem RunsInForeground.withBuffer {e : State → Host.Outcome State Fault Refusal} (he : RunsInForeground e)
    (buf : BufRef) (n : Nat) : RunsInForeground fun s => s.withBuffer buf n (e s) := by
  unfold State.withBuffer
  cases bufHolds buf n with
  | false => exact .atOnce Quiet.undefined0
  | true => exact he

/-- An instruction with an operand that is read from the state. -/
theorem RunsInForeground.reading {γ : Type} {e : γ → State → Host.Outcome State Fault Refusal} {v : State → γ}
    (hv : ∀ s r, v (s.setTicksLeft r) = v s) (he : ∀ x, RunsInForeground (e x)) :
    RunsInForeground fun s => e (v s) s := by
  choose f hf h using he
  exact ⟨fun s => f (v s) s, .reading hv hf, fun s ht => h (v s) s ht⟩

theorem Quiet.answerBool (b : Bool) : Quiet (answerBool b) := Quiet.answer0 fun _ _ => rfl
theorem Quiet.answerCount (n : Nat) : Quiet (answerCount n) := Quiet.answer0 fun _ _ => rfl
theorem Quiet.answerWord (v : Word) : Quiet (answerWord v) := Quiet.answer0 fun _ _ => rfl
theorem Quiet.answerPacket (p : Byte × Byte) : Quiet (answerPacket p) := Quiet.answer (fun _ _ => rfl) fun _ _ => rfl

theorem RunsInForeground.sendWord (c : Code) (p : Byte) : RunsInForeground (sendWord c p) :=
  .needTau (.finish (.sendOnly c p) Quiet.answerBool)

theorem RunsInForeground.probeWord (c : Code) (p : Byte) : RunsInForeground (probeWord c p) :=
  .needTau (.finish (.sendPollInterrupt c p) Quiet.answerBool)

theorem RunsInForeground.sendPollPacket (c : Code) (p : Byte) : RunsInForeground (execSendPollPacket c p) :=
  .needTau (.finish (.sendPollPacket c p) Quiet.answerPacket)

theorem RunsInForeground.writeSpace (a : Addr) (n : Nat) (buf : BufRef) :
    RunsInForeground fun s => s.withBuffer buf n (Machine.finish answerCount (s.writeSpace a n buf)) :=
  .withBuffer (.finish (.writeSpace a n buf) Quiet.answerCount) buf n

theorem RunsInForeground.readSpace (a : Addr) (n : Nat) (buf : BufRef) :
    RunsInForeground fun s => s.withBuffer buf n (Machine.finish answerCount (s.readSpace a n buf)) :=
  .withBuffer (.finish (.readBytes a buf 0 n) Quiet.answerCount) buf n

theorem RunsInForeground.getTau : RunsInForeground execGetTau :=
  ⟨fun s => .done () (s.answer0 (s.drv.tau.setWidth 32)), .step (fun _ _ => rfl) (Quiet.answer0 fun _ _ => rfl),
    fun _ ht => if_pos ht⟩

theorem RunsInForeground.beginTransfer (word mode : Word) : RunsInForeground (execBeginTransfer word mode) := by
  unfold execBeginTransfer
  refine .needTau ?_
  cases modeOfArg mode with
  | none => exact .atOnce Quiet.id
  | some m => exact .atOnce (Quiet.beginTransfer word m)

/-- The eighteen intervals of a buffer are enough to decode (R165). -/
theorem decodedWord_bufIntervals (buf : BufRef) (s : State) :
    decodedWord (s.bufIntervals buf) = some (unInvert (receivedWord (s.bufIntervals buf))) := by
  simp [decodedWord, State.bufIntervals]

theorem RunsInForeground.decode (n : Word) (buf : BufRef) : RunsInForeground (execDecode n buf) := by
  have hfree : ∀ k s r, Config.freeWord ((State.setTicksLeft r s).env.freeCtr + k) = Config.freeWord (s.env.freeCtr + k) :=
    fun _ _ _ => rfl
  have hfew : RunsInForeground fun s => .next (s.answer 1 (Config.freeWord s.env.freeCtr)).drew :=
    .atOnce ((Quiet.answer (fun _ _ => rfl) (hfree 0)).comp Quiet.drew)
  unfold execDecode
  by_cases hn : n.toNat < 18
  · simp only [if_pos hn]
    exact hfew
  · simp only [if_neg hn]
    cases bufHolds buf 72 with
    | false => exact .atOnce (((Quiet.answer (hfree 0) (hfree 1)).comp Quiet.drew).comp Quiet.drew)
    | true =>
      simp only [if_true, decodedWord_bufIntervals]
      exact .atOnce (Quiet.answer (fun _ _ => rfl) fun _ _ => rfl)

theorem RunsInForeground.checkParity (w : WireWord) : RunsInForeground (execCheckParity w) := by
  unfold execCheckParity
  cases failingGroup w with
  | none => exact .atOnce (Quiet.answer0 fun _ _ => rfl)
  | some g => exact .atOnce (Quiet.answer0 fun _ _ => rfl)

theorem RunsInForeground.readRegisters (id : Word) (buf : BufRef) : RunsInForeground (execReadRegisters id buf) :=
  .needTau <| .reading (v := State.namedRegister id)
    (e := fun r s => match r with
      | none => .next s.undefined0
      | some e => s.withBuffer buf e.len (Machine.finish answerCount (s.readSpace e.addr e.len buf)))
    (fun _ _ => rfl) fun
      | none => .atOnce Quiet.undefined0
      | some e => .readSpace e.addr e.len buf

theorem RunsInForeground.writeRegisters (id : Word) (buf : BufRef) : RunsInForeground (execWriteRegisters id buf) :=
  .needTau <| .reading (v := State.namedRegister id)
    (e := fun r s => match r with
      | none => .next s.undefined0
      | some e => s.withBuffer buf e.len (Machine.finish answerCount (s.writeSpace e.addr e.len buf)))
    (fun _ _ => rfl) fun
      | none => .atOnce Quiet.undefined0
      | some e => .writeSpace e.addr e.len buf

theorem RunsInForeground.reverseByteOrder (n : Word) (buf : BufRef) : RunsInForeground (execReverseByteOrder n buf) := by
  unfold execReverseByteOrder
  cases bufHolds buf n.toNat with
  | false => exact .atOnce Quiet.id
  | true => exact .atOnce (Quiet.reverseBytes buf _)

/-- With TAU set every instruction is a run of the foreground. -/
theorem exec_runsInForeground (i : Instr) : RunsInForeground (exec i) := by
  cases i with
  | setTau v => exact .atOnce ((Quiet.setTau v).comp (Quiet.answer0 (v := fun s => s.drv.tau.setWidth 32) fun _ _ => rfl))
  | getTau => exact .getTau
  | beginTransfer w m => exact .beginTransfer w m
  | currentState => exact .atOnce (Quiet.answer0 (v := fun s => s.drv.bus.code) fun _ _ => rfl)
  | delayUs n => exact .finish (.delay n) fun _ => Quiet.id
  | guardDelay => exact .needTau (.finish .guard fun _ => Quiet.id)
  | busLineIdle => exact .atOnce Quiet.lineIdle
  | encode c p => exact .atOnce (Quiet.answer0 fun _ _ => rfl)
  | decode n buf => exact .decode n buf
  | checkParity w => exact .checkParity w
  | checkInversionMajority w => exact .atOnce (Quiet.answer0 fun _ _ => rfl)
  | sendOnly c p => exact .sendWord c p
  | sendPollInterrupt c p => exact .probeWord c p
  | sendPollPacket c p => exact .sendPollPacket c p
  | writeAddrSpace a n buf => exact .needTau (.writeSpace a n.toNat buf)
  | readAddrSpace a n buf => exact .needTau (.readSpace a n.toNat buf)
  | readAddrReverse a n buf =>
    exact .needTau (.withBuffer (.finish (.readReverse a n.toNat buf) Quiet.answerWord) buf n.toNat)
  | readRegisters id buf => exact .readRegisters id buf
  | writeRegisters id buf => exact .writeRegisters id buf
  | reverseByteOrder n buf => exact .reverseByteOrder n buf
  | searchId => exact .needTau (.finish .search Quiet.answerBool)
  | writeData p => exact .sendWord _ p
  | extendedRegAddr p => exact .sendWord _ p
  | writeRegAddr p => exact .sendWord _ p
  | readRegAddr p => exact .sendPollPacket _ p
  | busReset => exact .sendWord _ _
  | discoverStart => exact .sendWord _ _
  | enterBranch0 => exact .sendWord _ _
  | enterBranch1 => exact .sendWord _ _
  | probeBranch0 => exact .probeWord _ _
  | probeBranch1 => exact .probeWord _ _

/-- Settles O53: with TAU set the instruction is a run of the foreground, which ends while ticks arrive. -/
theorem everyInstructionCompletes : Obligations.EveryInstructionCompletes := by
  intro i s hinv ht hl
  obtain ⟨f, hf, he⟩ := exec_runsInForeground i
  rw [he s ht]
  rcases (hf.ends (s := s) ⟨⟨hinv, ht⟩, hl⟩).finish noAnswer with ⟨_, t, hdone, hfin⟩ | ⟨t, hcut, hfin⟩
  · obtain ⟨⟨⟨htinv, htt⟩, htl⟩, htr⟩ := hdone
    exact ⟨t, hfin, htinv, htl, fun hr => ⟨htinv, htt, htl, htr hr⟩⟩
  · obtain ⟨htinv, htl, hne⟩ := hcut
    exact ⟨t, hfin, htinv, htl, fun hr => absurd hr hne⟩

/-! ### Fewer ticks than an exchange takes -/

section FewTicks
variable {s : State} {n : Nat}

/-- In Idle or Timeout, TAU at least 1, no rst due, and `n` ticks to come before the tick source stops (R79). -/
structure State.Starved (n : Nat) (s : State) : Prop where
  ticksLeft : s.env.ticksLeft = some n
  rstIn     : s.env.rstIn = none
  ready     : s.drv.bus.ready = true
  tau       : 1 ≤ s.drv.tau.toNat

/-- Ticks of a stopping source in Idle or Timeout use up ticks to come and move the counter alone (R79, R131). -/
theorem State.Starved.ticks (h : s.Starved n) (k : Nat) : (State.ticks k s).Starved (n - k) where
  ticksLeft := by simp [h.ticksLeft]
  rstIn := by simpa using h.rstIn
  ready := by
    refine State.ticks_induct k s (P := fun u => u.drv.bus.ready = true) h.ready fun u hu => ?_
    by_cases h0 : u.env.ticksLeft = some 0
    · rwa [State.tick_stopped h0]
    · rwa [State.tick_ready h0 hu]
  tau := by simpa using h.tau

theorem State.pause_eq_ticks (s : State) :
    s.pause = State.ticks (s.env.lag.take 1).sum { s with env := { s.env with lag := s.env.lag.tail } } := by
  unfold State.pause
  split
  · next h => rw [h]; exact congrArg (fun l => { s with env := { s.env with lag := l } }) h
  · next k rest h => simp [h]

@[simp] theorem State.pause_lag (s : State) : s.pause.env.lag = s.env.lag.tail := by rw [State.pause_eq_ticks]; simp
@[simp] theorem State.pause_tau (s : State) : s.pause.drv.tau = s.drv.tau := by rw [State.pause_eq_ticks]; simp

theorem State.Starved.pause (h : s.Starved n) : s.pause.Starved (n - (s.env.lag.take 1).sum) := by
  rw [State.pause_eq_ticks]
  exact State.Starved.ticks (s := { s with env := { s.env with lag := s.env.lag.tail } }) ⟨h.1, h.2, h.3, h.4⟩ _

/-- A wait in which no rst comes hangs, or ends after some ticks in a state in which its condition holds (R79). -/
theorem State.spin_cases {p : State → Bool} (fuel : Nat) {s : State} (hr : s.env.rstIn = none) :
    State.spin p fuel s = .hung ∨
      ∃ k, State.spin p fuel s = .done () (State.ticks k s) ∧ p (State.ticks k s) = true := by
  induction fuel generalizing s with
  | zero => exact .inl rfl
  | succ fuel ih =>
    unfold State.spin
    rw [State.moment_calm hr]
    by_cases hp : p s = true
    · exact .inr ⟨0, if_pos hp, hp⟩
    · rw [if_neg hp]
      by_cases h0 : s.env.ticksLeft = some 0
      · exact .inl (by rw [if_pos h0, State.stuck, hr])
      · rw [if_neg h0]
        exact (ih (by simpa using hr)).imp_right fun ⟨k, hk⟩ => ⟨k + 1, hk⟩

/-- The ticks for which a begun cycle is in progress for certain: its word's, and one more for a poll (R126 to R130). -/
def busyTicks (tau : Byte) (w : WireWord) (m : Mode) : Nat := 1 + sendTicks tau w + if m = .sendOnly then 0 else 1

/-- A begun cycle is in progress for its word's ticks, and a poll for one more (R126 to R130). -/
theorem State.begun_busy (hb : s.drv.bus = .begin) (ht : s.env.ticksLeft = some n) (htau : 1 ≤ s.drv.tau.toNat) {j : Nat}
    (hj : j < busyTicks s.drv.tau (s.drv.txsr.setWidth 17) s.drv.mode) (hn : j ≤ n) :
    (State.ticks j s).drv.bus.ready = false := by
  obtain ⟨hend, hword⟩ := State.ticks_word (s := s.setTicksLeft none) rfl hb htau
  rw [State.ticks_left j ht hn, State.setTicksLeft_drv]
  by_cases hjw : j < 1 + sendTicks s.drv.tau (s.drv.txsr.setWidth 17)
  · rcases hword j hjw with e | e <;> rw [e] <;> rfl
  · have hm : s.drv.mode ≠ .sendOnly := fun hm => by rw [busyTicks, if_pos hm] at hj; omega
    obtain rfl : j = 1 + sendTicks s.drv.tau (s.drv.txsr.setWidth 17) := by rw [busyTicks, if_neg hm] at hj; omega
    exact BusState.not_ready_of_polling ((congrArg (fun u => u.drv.bus.polling) hend).trans (Driver.wordSent_poll hm _).1)

/-- The wait for a begun cycle hangs, or ends no earlier than the cycle can, in Idle or Timeout (R79, R190). -/
theorem State.begun_wait (hb : s.drv.bus = .begin) (ht : s.env.ticksLeft = some n) (hr : s.env.rstIn = none)
    (htau : 1 ≤ s.drv.tau.toNat) :
    s.awaitReady = .hung ∨ ∃ k, busyTicks s.drv.tau (s.drv.txsr.setWidth 17) s.drv.mode ≤ k ∧
      s.awaitReady = .done () (State.ticks k s) ∧ (State.ticks k s).Starved (n - k) := by
  have hbusy {j : Nat} := State.begun_busy (j := j) hb ht htau
  generalize busyTicks s.drv.tau (s.drv.txsr.setWidth 17) s.drv.mode = w at hbusy ⊢
  by_cases hw : n < w
  · exact .inl (State.spin_stops ht hr fun j hj => hbusy (by omega) hj)
  · refine (State.spin_cases (p := fun u => u.drv.bus.ready) spinFuel hr).imp_right fun ⟨k, hspin, hk⟩ => ?_
    have hkw : w ≤ k := by
      by_contra hlt
      exact absurd hk (by simp [hbusy (j := k) (by omega) (by omega)])
    exact ⟨k, hkw, hspin, by simp [ht], by simpa using hr, hk, by simpa using htau⟩

/-- With fewer ticks to come than its pause and its guard delay take, the end of an exchange hangs (R79, R134). -/
theorem State.Starved.guard_hangs (h : s.Starved n) (hn : n < (s.env.lag.take 1).sum + 5 * s.drv.tau.toNat) :
    s.pause.guard = .hung := by
  have hp := h.pause
  have htau := h.tau
  have hg := (State.guard_metered hp.rstIn).2.1 (n - (s.env.lag.take 1).sum) (by rw [State.pause_tau]; omega)
  rwa [State.setTicksLeft_self hp.ticksLeft] at hg

/-- The ticks of an exchange's two pauses (R77). -/
theorem lagTicks_eq (s : State) : lagTicks s = (s.env.lag.take 1).sum + (s.env.lag.tail.take 1).sum := by
  unfold lagTicks
  rcases s.env.lag with _ | ⟨a, _ | ⟨b, r⟩⟩ <;> simp

/-- With fewer ticks to come than its pauses, its word, the first tick of a poll and its guard delay take, an exchange
hangs (R79, R190). -/
theorem State.Starved.exchange_hangs (h : s.Starved n) {c : Code} {p : Byte} {m : Mode}
    (hn : n < sendOnlyTicks s c p + if m = .sendOnly then 0 else 1) : s.exchange c p m = .hung := by
  have hp := h.pause
  have htau := h.tau
  unfold State.exchange
  rw [State.moment_calm hp.rstIn]
  generalize hv : s.pause.beginTransfer ((wireWord c p).setWidth 32) m = v
  have hvtau : v.drv.tau = s.drv.tau := by simp [← hv]
  have hvlag : v.env.lag = s.env.lag.tail := by simp [← hv]
  rw [State.beginTransfer_ready hp.ready] at hv
  have hwait := State.begun_wait (s := v) (n := n - (s.env.lag.take 1).sum) (by rw [← hv])
    (by rw [← hv]; exact hp.ticksLeft) (by rw [← hv]; exact hp.rstIn) (by rw [hvtau]; exact htau)
  have hvw : busyTicks v.drv.tau (v.drv.txsr.setWidth 17) v.drv.mode = busyTicks s.drv.tau (wireWord c p) m := by
    rw [hvtau, ← hv, armed_word]
  rw [hvw] at hwait
  rcases hwait with hw | ⟨k, hk, hw, hu⟩
  · rw [hw, Run.andThen_hung]
  · rw [hw, Run.andThen_done, hu.guard_hangs ?_, Run.map_hung]
    rw [sendOnlyTicks, lagTicks_eq] at hn
    rw [busyTicks] at hk
    rw [State.ticks_lag, State.ticks_tau, hvlag, hvtau]
    omega

/-! ### Fewer ticks than an operation takes -/

theorem State.Starved.sendOnly_hangs (h : s.Starved n) {c : Code} {p : Byte} (hn : n < sendOnlyTicks s c p) :
    s.sendOnly c p = .hung := by
  rw [State.sendOnly, h.exchange_hangs (by simpa using hn), Run.map_hung]

theorem State.Starved.sendPollInterrupt_hangs (h : s.Starved n) {c : Code} {p : Byte} (hn : n < sendOnlyTicks s c p + 1) :
    s.sendPollInterrupt c p = .hung := by
  rw [State.sendPollInterrupt, h.exchange_hangs (by simpa using hn), Run.map_hung]

theorem State.Starved.sendPollPacket_hangs (h : s.Starved n) {c : Code} {p : Byte} (hn : n < sendOnlyTicks s c p + 1) :
    s.sendPollPacket c p = .hung := by
  rw [State.sendPollPacket, h.exchange_hangs (by simpa using hn), Run.andThen_hung]

/-- The first word of a write is ERA with the high byte of its address (R198). -/
theorem State.Starved.writeSpace_hangs (h : s.Starved n) {a : Addr} {k : Nat} {buf : BufRef}
    (hn : n < sendOnlyTicks s 0x5 (a.extractLsb' 8 8)) : s.writeSpace a k buf = .hung := by
  rw [State.writeSpace, h.sendOnly_hangs (by exact hn), Run.andThen_hung]

/-- The first word of a read of at least one byte is ERA with the high byte of its address (R200, R201). -/
theorem State.Starved.readSpace_hangs (h : s.Starved n) {a : Addr} {k : Nat} {buf : BufRef} (hk : k ≠ 0)
    (hn : n < sendOnlyTicks s 0x5 (a.extractLsb' 8 8)) : s.readSpace a k buf = .hung := by
  obtain ⟨k, rfl⟩ := Nat.exists_eq_succ_of_ne_zero hk
  have h' : ((s.byteInHand (addrPlus a 0) 0).setRetry 0).Starved n := ⟨h.1, h.2, h.3, h.4⟩
  have ha : addrPlus a 0 = a := by simp [addrPlus]
  have hsend : ((s.byteInHand (addrPlus a 0) 0).setRetry 0).sendOnly Config.codeERA (addrHigh (addrPlus a 0)) = .hung :=
    h'.sendOnly_hangs (by rw [ha]; exact hn)
  have hread : (s.byteInHand (addrPlus a 0) 0).readByte (addrPlus a 0) = .hung := by
    rw [State.readByte, Config.readRetries, State.readByteFrom, State.readAttempt, hsend]
    rfl
  rw [State.readSpace, State.readBytes, hread, Run.andThen_hung]

theorem State.Starved.readReverse_hangs (h : s.Starved n) {a : Addr} {k : Nat} {buf : BufRef} (hk : k ≠ 0)
    (hn : n < sendOnlyTicks s 0x5 (a.extractLsb' 8 8)) : s.readReverse a k buf = .hung := by
  rw [State.readReverse, h.readSpace_hangs hk hn, Run.andThen_hung]

/-- The first word of the search is DiscoverStart (R231). -/
theorem State.Starved.search_hangs (h : s.Starved n) (hn : n < sendOnlyTicks s 0x8 0x80) : s.search = .hung := by
  have h' : (s.clearUid.setOffset 0).Starved n := ⟨h.1, h.2, h.3, h.4⟩
  rw [State.search, h'.sendOnly_hangs (by exact hn), Run.andThen_hung]

/-! ### Fewer ticks than an instruction takes -/

/-- The outcome of an instruction whose spin never ends (R79, U10). -/
abbrev Hangs (o : Host.Outcome State Fault Refusal) : Prop := o = .fault .spinNeverEnds

theorem finish_hangs {α : Type} {r : Run α} {answer : α → State → State} (h : r = .hung) :
    Hangs (finish answer r) := by
  rw [h]; rfl

theorem needTau_hangs {o : Host.Outcome State Fault Refusal} (ht : s.drv.tauSet = true) (h : Hangs o) :
    Hangs (s.needTau o) := (if_pos ht).trans h

theorem withBuffer_hangs {o : Host.Outcome State Fault Refusal} {buf : BufRef} {k : Nat} (hk : k ≤ buf.size.toNat)
    (h : Hangs o) : Hangs (s.withBuffer buf k o) := (if_pos (decide_eq_true hk)).trans h

theorem sendWord_hangs (ht : s.drv.tauSet = true) (h : s.Starved n) {c : Code} {p : Byte} (hn : n < sendOnlyTicks s c p) :
    Hangs (sendWord c p s) := needTau_hangs ht (finish_hangs (h.sendOnly_hangs hn))

theorem probeWord_hangs (ht : s.drv.tauSet = true) (h : s.Starved n) {c : Code} {p : Byte}
    (hn : n < sendOnlyTicks s c p + 1) : Hangs (probeWord c p s) :=
  needTau_hangs ht (finish_hangs (h.sendPollInterrupt_hangs hn))

theorem sendPollPacket_hangs (ht : s.drv.tauSet = true) (h : s.Starved n) {c : Code} {p : Byte}
    (hn : n < sendOnlyTicks s c p + 1) : Hangs (execSendPollPacket c p s) :=
  needTau_hangs ht (finish_hangs (h.sendPollPacket_hangs hn))

/-- With fewer than `d` ticks to come delay_us(d) hangs (R79, R133). -/
theorem execDelayUs_hangs (hr : s.env.rstIn = none) (ht : s.env.ticksLeft = some n) {d : Word} (hn : n < d.toNat) :
    Hangs (execDelayUs d s) := by
  have hd := (State.delay_metered hr d).2.1 n hn
  rw [State.setTicksLeft_self ht] at hd
  exact finish_hangs hd

/-- With fewer than 5 TAU ticks to come guard_delay hangs (R79, R134). -/
theorem execGuardDelay_hangs (hset : s.drv.tauSet = true) (hr : s.env.rstIn = none) (ht : s.env.ticksLeft = some n)
    (hn : n < 5 * s.drv.tau.toNat) : Hangs (execGuardDelay s) := by
  have hg := (State.guard_metered hr).2.1 n hn
  rw [State.setTicksLeft_self ht] at hg
  exact needTau_hangs hset (finish_hangs hg)

/-- read_addr_space and read_registers of at least one byte. -/
theorem readSpace_hangs (h : s.Starved n) {a : Addr} {k : Nat} {buf : BufRef} (hk : k ≠ 0 ∧ k ≤ buf.size.toNat)
    (hn : n < sendOnlyTicks s 0x5 (a.extractLsb' 8 8)) :
    Hangs (s.withBuffer buf k (finish answerCount (s.readSpace a k buf))) :=
  withBuffer_hangs hk.2 (finish_hangs (h.readSpace_hangs hk.1 hn))

/-- write_addr_space and write_registers. -/
theorem writeSpace_hangs (h : s.Starved n) {a : Addr} {k : Nat} {buf : BufRef} (hk : k ≤ buf.size.toNat)
    (hn : n < sendOnlyTicks s 0x5 (a.extractLsb' 8 8)) :
    Hangs (s.withBuffer buf k (finish answerCount (s.writeSpace a k buf))) :=
  withBuffer_hangs hk (finish_hangs (h.writeSpace_hangs hn))

/-- Below the ticks an access takes if its operands allow it, and none if not, there are numbers only if they do. -/
theorem of_lt_ite_zero {P : Prop} [Decidable P] {n k : Nat} (h : n < if P then k else 0) : P ∧ n < k := by
  split at h
  · next hp => exact ⟨hp, h⟩
  · omega

/-- Begun in Idle or Timeout with fewer ticks to come than `leastTicks` an instruction hangs (R79). -/
theorem exec_hangs (ht : s.drv.tauSet = true) (h : s.Starved n) {i : Instr} (hn : n < leastTicks s i) :
    Hangs (exec i s) := by
  cases i with
  | delayUs d => exact execDelayUs_hangs h.rstIn h.ticksLeft hn
  | guardDelay => exact execGuardDelay_hangs ht h.rstIn h.ticksLeft hn
  | sendOnly c p => exact sendWord_hangs ht h hn
  | sendPollInterrupt c p => exact probeWord_hangs ht h hn
  | sendPollPacket c p => exact sendPollPacket_hangs ht h hn
  | writeAddrSpace a k buf =>
    obtain ⟨hk, hn⟩ := of_lt_ite_zero hn
    exact needTau_hangs ht (writeSpace_hangs h hk hn)
  | readAddrSpace a k buf =>
    obtain ⟨hk, hn⟩ := of_lt_ite_zero hn
    exact needTau_hangs ht (readSpace_hangs h ⟨BitVec.toNat_ne.1 hk.1, hk.2⟩ hn)
  | readAddrReverse a k buf =>
    obtain ⟨hk, hn⟩ := of_lt_ite_zero hn
    exact needTau_hangs ht (withBuffer_hangs hk.2 (finish_hangs (h.readReverse_hangs (BitVec.toNat_ne.1 hk.1) hn)))
  | readRegisters id buf =>
    refine needTau_hangs ht ?_
    simp only [leastTicks] at hn
    unfold State.namedRegister
    cases he : s.regmap[id.toNat]? with
    | none => simp [he] at hn
    | some e =>
      rw [he] at hn
      obtain ⟨hk, hn⟩ := of_lt_ite_zero hn
      exact readSpace_hangs h hk hn
  | writeRegisters id buf =>
    refine needTau_hangs ht ?_
    simp only [leastTicks] at hn
    unfold State.namedRegister
    cases he : s.regmap[id.toNat]? with
    | none => simp [he] at hn
    | some e =>
      rw [he] at hn
      obtain ⟨hk, hn⟩ := of_lt_ite_zero hn
      exact writeSpace_hangs h hk hn
  | searchId => exact needTau_hangs ht (finish_hangs (h.search_hangs hn))
  | writeData p => exact sendWord_hangs ht h hn
  | extendedRegAddr p => exact sendWord_hangs ht h hn
  | writeRegAddr p => exact sendWord_hangs ht h hn
  | readRegAddr p => exact sendPollPacket_hangs ht h hn
  | busReset => exact sendWord_hangs ht h hn
  | discoverStart => exact sendWord_hangs ht h hn
  | enterBranch0 => exact sendWord_hangs ht h hn
  | enterBranch1 => exact sendWord_hangs ht h hn
  | probeBranch0 => exact probeWord_hangs ht h hn
  | probeBranch1 => exact probeWord_hangs ht h hn
  | _ => exact absurd hn (Nat.not_lt_zero n)

end FewTicks

/-- Settles O25: a delay and a guard delay wait for their ticks, every other instruction is a run of the foreground, which
takes some number of ticks; and it hangs with fewer than `leastTicks`, so that number is no less. -/
theorem stoppedTicksHangTheSpin : Obligations.StoppedTicksHangTheSpin := by
  intro s hr
  refine ⟨fun n _ hn => execDelayUs_hangs (s := s.setTicksLeft (some n)) hr rfl hn,
    fun n hset hn => execGuardDelay_hangs (s := s.setTicksLeft (some n)) hset hr rfl hn,
    fun hinv hset i => ?_⟩
  obtain ⟨f, hf, he⟩ := exec_runsInForeground i
  have he' (r : Option Nat) : exec i (s.setTicksLeft r) = finish noAnswer (f (s.setTicksLeft r)) := he _ hset
  obtain ⟨m, t, hnext, hnow, hlt, hge⟩ :=
    (hf.metered ⟨hinv, hset⟩ hr).finish noAnswer (fun _ _ => rfl) fun _ _ _ => rfl
  simp only [← he'] at hnext hlt hge
  refine ⟨m, t, fun hb => ?_, hnext, hnow, hlt, hge⟩
  by_contra hm
  have htau : 1 ≤ s.drv.tau.toNat := by have := (hinv.1.1 hset).1; omega
  have hhang : Hangs (exec i (s.setTicksLeft (some m))) :=
    exec_hangs (s := s.setTicksLeft (some m)) hset ⟨rfl, hr, hb, htau⟩ (Nat.lt_of_not_le hm)
  exact absurd ((hge m le_rfl).symm.trans hhang) (by simp)

end Sys2Proof.Machine

/-! PROOFS, 30_encoding.md. What the fields of a wire word are, and that decoding and encoding undo each other (O4, O5);
what a step makes of a request (O7, O8); the wire words that send_only sends (O35). -/

namespace Sys2Proof.Machine

/-! ### Fields of a wire word (R94, R97) -/

/-- W[16:5] of a logical word is its code and payload. -/
theorem extractLsb'_logicalWord (c : Code) (p : Byte) (k n : Nat) :
    (logicalWord c p).extractLsb' (5 + k) n = (codePayload c p).extractLsb' k n := by
  have hinv := BitVec.extractLsb'_append_eq_of_le (xhi := codePayload c p ++ parityField (codePayload c p)) (xlo := 0#1)
    (len := n) (show 1 ≤ 5 + k by omega)
  have hpar := BitVec.extractLsb'_append_eq_of_le (xhi := codePayload c p) (xlo := parityField (codePayload c p))
    (len := n) (show 4 ≤ 5 + k - 1 by omega)
  rw [show 5 + k - 1 - 4 = k by omega] at hpar
  exact hinv.trans hpar

@[simp] theorem wordCode_logicalWord (c : Code) (p : Byte) : wordCode (logicalWord c p) = c :=
  (extractLsb'_logicalWord c p 8 4).trans BitVec.extractLsb'_append_eq_left

@[simp] theorem wordPayload_logicalWord (c : Code) (p : Byte) : wordPayload (logicalWord c p) = p :=
  (extractLsb'_logicalWord c p 0 8).trans BitVec.extractLsb'_append_eq_right

/-- Code and payload stand side by side in W[16:5]. -/
theorem codePayload_fields (w : WireWord) : codePayload (wordCode w) (wordPayload w) = w.extractLsb' 5 12 :=
  BitVec.extractLsb'_append_extractLsb'_eq_extractLsb' rfl

theorem getElem_parityField (cp : BitVec 12) {g : Nat} (hg : g < 4) : (parityField cp)[g] = parityOf cp g := by
  unfold parityField
  interval_cases g <;> simp [BitVec.append_ofBool]

/-- Good parity: each bit P[g] = W[1 + g] is the parity of its group (R97, R167). -/
theorem failingGroup_eq_none_iff {w : WireWord} :
    failingGroup w = none ↔ ∀ g < 4, w.getLsbD (1 + g) = parityOf (codePayload (wordCode w) (wordPayload w)) g := by
  rw [failingGroup, List.find?_eq_none]
  change (∀ g ∈ List.range 4, _) ↔ _
  simp [eq_comm (b := w.getLsbD _)]

/-- A word with good parity and inversion flag 0 is the logical word of its code and payload (R94, R97). -/
theorem logicalWord_fields {w : WireWord} (hinv : w.getLsbD 0 = false) (hpar : failingGroup w = none) :
    logicalWord (wordCode w) (wordPayload w) = w := by
  have hp : parityField (codePayload (wordCode w) (wordPayload w)) = w.extractLsb' 1 4 := by
    ext g hg
    rw [getElem_parityField _ hg, ← failingGroup_eq_none_iff.1 hpar g hg]
    simp
  have hi : 0#1 = w.extractLsb' 0 1 := by
    ext k hk
    obtain rfl : k = 0 := by omega
    simpa using hinv.symm
  calc logicalWord (wordCode w) (wordPayload w)
      = w.extractLsb' 5 12 ++ w.extractLsb' 1 4 ++ w.extractLsb' 0 1 := by
        rw [logicalWord, hp, codePayload_fields, hi]
    _ = w.extractLsb' 1 16 ++ w.extractLsb' 0 1 :=
        congrArg (· ++ w.extractLsb' 0 1) (BitVec.extractLsb'_append_extractLsb'_eq_extractLsb' rfl)
    _ = w.extractLsb' 0 17 := BitVec.extractLsb'_append_extractLsb'_eq_extractLsb' rfl
    _ = w := BitVec.extractLsb'_eq_self

/-! ### Decoding what was encoded -/

@[simp] theorem cutCode_setWidth (c : Code) : cutCode (c.setWidth 32) = c := by
  simp [cutCode]

@[simp] theorem cutPayload_setWidth (p : Byte) : cutPayload (p.setWidth 32) = p := by
  simp [cutPayload]

@[simp] theorem cutAddr_setWidth (a : Addr) : cutAddr (a.setWidth 32) = a := by
  simp [cutAddr]

@[simp] theorem cutWire_setWidth (w : WireWord) : cutWire (w.setWidth 32) = w := by
  simp [cutWire]

/-- A host request holds every scalar whole, and a cut to an operand's width undoes its widening (R92, R93); a wire word
is read by its fields (R99, R100). -/
theorem decode_encode (i : Instr) : decode (encode i) = .ok i := by
  cases i with
  | encode c p | sendOnly c p | sendPollInterrupt c p | sendPollPacket c p =>
    simp [encode, hostRequest, decode, decodeHost]
  | checkParity w | checkInversionMajority w => simp [encode, hostRequest, decode, decodeHost]
  | writeAddrSpace a n buf | readAddrSpace a n buf | readAddrReverse a n buf =>
    simp [encode, hostRequest, decode, decodeHost]
  | writeData p => simp [encode, decode, decodeWire, Config.codeWD]
  | extendedRegAddr p => simp [encode, decode, decodeWire, Config.codeERA]
  | writeRegAddr p => simp [encode, decode, decodeWire, Config.codeWRA]
  | readRegAddr p => simp [encode, decode, decodeWire, Config.codeRRA]
  | _ => rfl

/-- Settles O4, without its premise: no operand is cut, so the ill-formed instructions are read back too. -/
theorem decodeOfEncodeIsTheInstruction : Obligations.DecodeOfEncodeIsTheInstruction := fun i _ => decode_encode i

/-! ### Encoding what was decoded -/

theorem encode_of_decodeBusCommand {w : WireWord} {i : Instr} (h : decodeBusCommand w = .ok i) :
    encode i = .wire (logicalWord Config.bcCode (wordPayload w)) := by
  unfold decodeBusCommand at h
  split at h
  case h_7 => cases h
  all_goals
    next hp =>
    cases h
    rw [(BitVec.toNat_eq_nat.1 hp).2]
    rfl

theorem encode_of_decodeWire {w : WireWord} {i : Instr} (h : decodeWire w = .ok i) :
    encode i = .wire (logicalWord (wordCode w) (wordPayload w)) := by
  unfold decodeWire at h
  split at h
  case h_5 hc =>
    rw [encode_of_decodeBusCommand h, (BitVec.toNat_eq_nat.1 hc).2]
    rfl
  case h_6 => cases h
  all_goals
    next hc =>
    cases h
    rw [(BitVec.toNat_eq_nat.1 hc).2]
    rfl

/-- Settles O5: the request of the instruction is the logical word of the code and payload read, which is the word itself. -/
theorem encodeOfDecodedWireWord : Obligations.EncodeOfDecodedWireWord := fun _ _ h hinv hpar =>
  (encode_of_decodeWire h).trans (congrArg Request.wire (logicalWord_fields hinv hpar))

/-- Settles O6: each word is a closed term, on which the decoder is run. -/
theorem tableWordsDecode : Obligations.TableWordsDecode := by
  unfold Obligations.TableWordsDecode
  decide

/-! ### A step that takes a request (R90, R92) -/

theorem step_request {s : State} {r : Request} {rest : List Input} (h : s.env.inbox = .request r :: rest) :
    step s = runRequest r (s.setInbox rest) := by
  rw [step, nextStep, h]
  rfl

theorem runRequest_ok {r : Request} {i : Instr} (h : decode r = .ok i) (s : State) : runRequest r s = exec i s := by
  rw [runRequest, h]

theorem runRequest_error {r : Request} {e : Reject} (h : decode r = .error e) (s : State) :
    runRequest r s = .refused (refusalOf e) := by
  rw [runRequest, h]

/-- Settles O7: the step is the request's run, and that is the decoded instruction's. -/
theorem stepRunsTheDecodedInstruction : Obligations.StepRunsTheDecodedInstruction := fun _ _ _ _ hin hdec =>
  (step_request hin).trans (runRequest_ok hdec _)

/-- The operations of R92's table. -/
def tableOps : List Nat :=
  [0x01, 0x02, 0x03, 0x04, 0x05, 0x06, 0x07, 0x10, 0x11, 0x12, 0x13, 0x20, 0x21, 0x22, 0x23, 0x24, 0x25, 0x26, 0x27,
    0x28, 0x30]

theorem decodeHost_unknown {op : Byte} (h : op.toNat ∉ tableOps) (a0 a1 : Word) (buf : BufRef) :
    decodeHost op a0 a1 buf = .error (.unknownOp op) := by
  unfold decodeHost
  split
  case h_22 => rfl
  all_goals
    next hop =>
    exact absurd (by rw [hop]; decide) h

/-- Settles O8: the decoder rejects the request by its OP, and the step refuses what is rejected. -/
theorem unknownOperationsAreRefused : Obligations.UnknownOperationsAreRefused := fun _ _ a0 a1 _ buf _ hop hin =>
  (step_request hin).trans (runRequest_error (r := .host ..) (decodeHost_unknown hop a0 a1 buf) _)

/-! ### Words sent by send_only (R99, R100, R191) -/

/-- With no cycle in progress and nothing to disturb it send_only of a word ends as R191 says. -/
theorem sendWord_ready {s : State} (h : s.Ready) (c : Code) (p : Byte) :
    ∃ t, sendWord c p s = .next t ∧ SentAlone c p s t := by
  obtain ⟨⟨hinv, hset, hund⟩, hready⟩ := h
  have htau : 1 ≤ s.drv.tau.toNat := by have := (hinv.1.1 hset).1; omega
  obtain ⟨due, hex⟩ := State.exchange_sendOnly c p hund hready htau
  unfold sendWord State.needTau State.sendOnly
  rw [if_pos hset, hex]
  exact ⟨_, rfl, by simp [SentAlone, WordSent, ExchangeFrame, answerBool, boolWord]⟩

/-- Settles O35: each of the seven instructions is send_only of its own code and payload. -/
theorem sendOnlyWireWordsAreSent : Obligations.SendOnlyWireWordsAreSent := fun _ h =>
  ⟨sendWord_ready h 0x4, sendWord_ready h 0x5, sendWord_ready h 0x6, sendWord_ready h 0x8 0x00,
    sendWord_ready h 0x8 0x80, sendWord_ready h 0x8 0x84, sendWord_ready h 0x8 0x85⟩

end Sys2Proof.Machine

/-! PROOFS, 40_timing_driver.md. What one tick does in each STATE (O9 to O13), the level changes of a whole send (O14),
the driver's host operations (O16 to O23), and an exchange asked for in a cycle (O40). -/

namespace Sys2Proof.Machine

/-! ### STATE and MODE (R12, R13) -/

/-- Ready is Idle or Timeout (R123). -/
theorem BusState.ready_iff {b : BusState} : b.ready = true ↔ b = .idle ∨ b = .timeout := by
  cases b <;> simp [BusState.ready]

/-- In a cycle is neither Idle nor Timeout (R123). -/
theorem BusState.ready_eq_false_iff {b : BusState} : b.ready = false ↔ b ≠ .idle ∧ b ≠ .timeout := by
  cases b <;> simp [BusState.ready]

theorem BusState.polling_iff {b : BusState} : b.polling = true ↔ b = .pollInterrupt ∨ b = .pollPacket := by
  cases b <;> simp [BusState.polling]

/-- ARG1 of 3 and above is no mode (R93, R123). -/
theorem modeOfArg_eq_none {a : Word} (h : 3 ≤ a.toNat) : modeOfArg a = none := by
  unfold modeOfArg
  split
  case h_4 => rfl
  all_goals omega

/-! ### The end of a pulse (R127, R128) -/

/-- The end of a send leaves STATE at Idle or at the poll state of the mode (R128). -/
theorem Driver.endOfSend_bus_eq (t : Word) (d : Driver) :
    (d.endOfSend t).bus =
      match d.mode with
      | .sendOnly => .idle
      | .pollInterrupt => .pollInterrupt
      | .pollPacket => .pollPacket := by
  unfold Driver.endOfSend
  cases d.mode <;> rfl

@[simp] theorem Driver.endOfSend_out (t : Word) (d : Driver) : (d.endOfSend t).out = d.out := by
  unfold Driver.endOfSend
  cases d.mode <;> rfl

theorem Driver.endOfSend_bus_ne_timeout (t : Word) (d : Driver) : (d.endOfSend t).bus ≠ .timeout := by
  rw [Driver.endOfSend_bus_eq]
  cases d.mode <;> simp

/-- Every pulse ends with a level change (R127). -/
@[simp] theorem Driver.pulseEnd_out (d : Driver) : d.pulseEnd.out = !d.out := by
  unfold Driver.pulseEnd
  split
  · exact Driver.endOfSend_out d.due d.pinToggle
  · rfl

/-- The pulse of a bit above 0 is followed by the pulse of the bit below it (R127). -/
theorem Driver.pulseEnd_of_bitix_ne_zero {d : Driver} (h : d.bitix ≠ 0) :
    d.pulseEnd = { d with
      out := !d.out, bitix := d.bitix - 1
      due := d.due + pulseWidth d.tau (d.txsr.getLsbD (d.bitix.toNat - 1)) } := by
  have hpos : d.bitix.toNat ≠ 0 := fun e => h (BitVec.eq_of_toNat_eq e)
  have hsub : (d.bitix - 1).toNat = d.bitix.toNat - 1 := by rw [BitVec.toNat_sub]; simp; omega
  rw [Driver.pulseEnd, if_neg h, Driver.startPulse, hsub]
  rfl

theorem Driver.tickSending_of_ne_due {t : Word} {d : Driver} (h : t ≠ d.due) : d.tickSending t = d := if_neg h

theorem Driver.tickSending_of_eq_due {t : Word} {d : Driver} (h : t = d.due) : d.tickSending t = d.pulseEnd := by
  subst h
  exact if_pos rfl

/-! ### A tick (R125) -/

/-- What a tick changes outside the block where the line is not sampled (R29, log 19). -/
def Env.ticked (e : Env) : Env := { e with now := e.now + 1, ticksLeft := e.ticksLeft.map (· - 1) }

/-- A tick outside a poll takes no sample (R125). -/
theorem State.tick_of_not_polling {s : State} (h : s.env.ticksLeft ≠ some 0) (hp : s.drv.bus.polling = false) :
    s.tick = { s with drv := s.drv.tick s.par (s.env.now + 1) s.env.lineLevel, env := s.env.ticked } := by
  rw [State.tick, if_neg h, hp]
  rfl

/-- A tick in Sending (R127). -/
theorem State.tick_of_sending {s : State} (h : s.env.ticksLeft ≠ some 0) (hb : s.drv.bus = .sending) :
    s.tick = { s with drv := s.drv.tickSending (s.env.now + 1), env := s.env.ticked } := by
  rw [State.tick_of_not_polling h (by rw [hb]; rfl), Driver.tick, hb]

/-- A tick in Begin (R126). -/
theorem State.tick_of_begin {s : State} (h : s.env.ticksLeft ≠ some 0) (hb : s.drv.bus = .begin) :
    s.tick = { s with drv := s.drv.tickBegin (s.env.now + 1), env := s.env.ticked } := by
  rw [State.tick_of_not_polling h (by rw [hb]; rfl), Driver.tick, hb]

/-- A tick in a poll takes a sample (R129). -/
theorem State.tick_of_polling {s : State} (h : s.env.ticksLeft ≠ some 0) (hp : s.drv.bus.polling = true) :
    s.tick = { s with
      drv := s.drv.tickPoll s.par (s.env.now + 1) s.env.lineLevel, env := s.env.sampled.ticked } := by
  have hd : s.drv.tick s.par (s.env.now + 1) s.env.lineLevel =
      s.drv.tickPoll s.par (s.env.now + 1) s.env.lineLevel := by
    unfold Driver.tick
    rcases BusState.polling_iff.1 hp with hb | hb <;> rw [hb]
  rw [State.tick, if_neg h]
  simp only [hp, hd, if_true, Env.ticked, Env.sampled_now, Env.sampled_ticksLeft]

theorem step_of_nothing_waiting {s : State} (h : s.env.inbox = []) : step s = .next s.tick := by
  rw [step, nextStep, h]

/-- Settles O9: the step is a tick, which moves the counter and leaves the foreground's registers. -/
theorem timePassesByTicks : Obligations.TimePassesByTicks := by
  intro s hin hl
  exact ⟨s.tick, step_of_nothing_waiting hin, State.tick_now hl, s.tick_uid, s.tick_regmap, s.tick_scr, s.tick_ans,
    s.tick_mem, s.tick_tau, s.tick_tauSet, s.tick_txsr, s.tick_mode, s.tick_par, s.tick_inbox.trans hin,
    fun hb => State.tick_ready hl (BusState.ready_iff.2 hb)⟩

/-- Settles O10: the tick agent's step in Begin, written out. -/
theorem beginTickStartsTheWord : Obligations.BeginTickStartsTheWord := fun _ hl hb => State.tick_of_begin hl hb

/-- Settles O11: before DUE the tick agent does nothing, at DUE the pulse ends. -/
theorem sendingTick : Obligations.SendingTick := by
  rintro s _ hl hb rfl
  have ht := State.tick_of_sending hl hb
  refine ⟨fun hne => ?_, fun hdue hne => ?_, fun hdue h0 hm => ?_, fun b hm hdue h0 => ?_⟩
  · rw [ht, Driver.tickSending_of_ne_due hne]
    rfl
  · rw [ht, Driver.tickSending_of_eq_due hdue, Driver.pulseEnd_of_bitix_ne_zero hne]
    rfl
  · rw [ht, Driver.tickSending_of_eq_due hdue, Driver.pulseEnd, if_pos h0, Driver.endOfSend]
    simp only [Driver.pinToggle, hm]
    rfl
  · rw [ht, Driver.tickSending_of_eq_due hdue, Driver.pulseEnd, if_pos h0, Driver.endOfSend]
    rcases hm with ⟨hm, rfl⟩ | ⟨hm, rfl⟩ <;> simp only [Driver.pinToggle, hm] <;> rfl

/-! ### A tick in a poll (R129, R130) -/

theorem Env.lineLevel_of_cons {e : Env} {l : Level} {rest : List Level} (h : e.lineIn = l :: rest) :
    e.lineLevel = l := by
  rw [Env.lineLevel, h]

/-- A sample of a scripted level uses it up (log 5). -/
theorem Env.sampled_of_cons {e : Env} {l : Level} {rest : List Level} (h : e.lineIn = l :: rest) :
    e.sampled = { e with lineIn := rest } := by
  rw [Env.sampled, h]

/-- A sample past the script draws a free level (log 5). -/
theorem Env.sampled_of_nil {e : Env} (h : e.lineIn = []) : e.sampled = { e with freeCtr := e.freeCtr + 1 } := by
  cases e
  cases h
  rfl

/-- Edge capture with the line at its last level (R129). -/
theorem Driver.capture_of_eq_last {d : Driver} (hin : d.dir = .input) (t : Word) {l : Level} (hl : l = d.last) :
    d.capture t l = d := by
  simp [Driver.capture, Driver.pinRead, hin, hl]

/-- Edge capture of a level change (R129). -/
theorem Driver.capture_of_ne_last {d : Driver} (hin : d.dir = .input) (t : Word) {l : Level} (hl : l ≠ d.last) :
    d.capture t l = { d with
      timeline := d.timeline.setIfInBounds d.nedge.toNat t, nedge := d.nedge + 1, last := l
      bus := if d.nedge + 1 = d.mode.cap then .idle else d.bus } := by
  simp [Driver.capture, Driver.pinRead, hin, hl]

/-- The deadline test writes STATE alone (R130). -/
theorem Driver.deadline_eq (par : Params) (t : Word) (d : Driver) :
    d.deadline par t = { d with bus := (d.deadline par t).bus } := by
  rcases Driver.deadline_cases par t d with h | h <;> rw [h]

/-- In a poll the entry to come completes the timeline iff it is the last of the mode's (R19, R129). -/
theorem Driver.nedge_cap_iff {d : Driver} (h : d.PollInv) (hp : d.bus.polling = true) :
    d.nedge + 1 = d.mode.cap ↔ d.nedge.toNat + 1 = if d.mode = .pollPacket then 19 else 2 := by
  obtain ⟨hn, hint, hpkt, -⟩ := h
  have hadd : (d.nedge + 1).toNat = d.nedge.toNat + 1 := by simp [BitVec.toNat_add]; omega
  rw [← BitVec.toNat_inj, hadd]
  rcases BusState.polling_iff.1 hp with hb | hb
  · rw [(hint hb).1]
    rfl
  · rw [(hpkt hb).1]
    rfl

/-- In a poll T[0] has been written, and edge capture leaves it (R128, R129). -/
theorem Driver.capture_timeline_zero {d : Driver} (h : d.PollInv) (hp : d.bus.polling = true) (t : Word) (l : Level) :
    (d.capture t l).timeline[0] = d.timeline[0] := by
  obtain ⟨-, hint, hpkt, -⟩ := h
  have hne : d.nedge.toNat ≠ 0 := by
    rcases BusState.polling_iff.1 hp with hb | hb
    · simp [(hint hb).2]
    · have := (hpkt hb).2.1
      omega
  unfold Driver.capture
  by_cases hl : d.pinRead l = d.last <;> simp [hl, hne]

/-- What the deadline test makes of STATE (R130). -/
theorem Driver.deadline_bus (par : Params) (t : Word) (d : Driver) :
    (d.deadline par t).bus =
      if d.bus.polling = true ∧ (pollBudget par d.mode d.tau).toNat ≤ (t - d.timeline[0]).toNat then .timeout
      else d.bus := by
  simp only [Driver.deadline, Bool.and_eq_true, decide_eq_true_iff, BitVec.le_def]
  exact apply_ite Driver.bus _ _ _

/-- STATE after a poll tick: Idle where edge capture has ended the poll; else the deadline decides (R129, R130). -/
theorem Driver.tickPoll_bus {d : Driver} (h : d.PollInv) (hp : d.bus.polling = true) (par : Params) (t : Word)
    (l : Level) :
    (d.tickPoll par t l).bus =
      if (d.capture t l).bus = .idle then .idle
      else if (pollBudget par d.mode d.tau).toNat ≤ (t - d.timeline[0]).toNat then .timeout else d.bus := by
  obtain ⟨htau, -, hmode, -⟩ := Driver.capture_keeps t l d
  rw [Driver.tickPoll, Driver.deadline_bus, htau, hmode, Driver.capture_timeline_zero h hp]
  rcases Driver.capture_bus t l d with hb | hb
  · simp only [hb, BusState.polling, Bool.false_eq_true, false_and, if_false, if_true]
  · have hne : d.bus ≠ .idle := fun e => by simp [e, BusState.polling] at hp
    simp only [hb, hp, hne, true_and, if_false]

/-- Edge capture ends the poll iff the level has changed and the entry is the last (R129). -/
theorem Driver.capture_bus_eq_idle_iff {d : Driver} (hin : d.dir = .input) (hp : d.bus.polling = true) (t : Word)
    (l : Level) : (d.capture t l).bus = .idle ↔ l ≠ d.last ∧ d.nedge + 1 = d.mode.cap := by
  have hne : d.bus ≠ .idle := fun e => by simp [e, BusState.polling] at hp
  by_cases hl : l = d.last
  · rw [Driver.capture_of_eq_last hin t hl]
    simp [hne, hl]
  · simp [Driver.capture_of_ne_last hin t hl, hne, hl]

/-- Settles O12: the tick is edge capture and then the deadline, which leaves a poll that edge capture has ended. -/
theorem pollTick : Obligations.PollTick := by
  rintro s _ hinv hl hp rfl
  obtain ⟨-, ⟨-, hdir⟩, -, -, hpoll, -⟩ := hinv
  have hin := hdir hp
  have ht := State.tick_of_polling hl hp
  have hdrv : s.tick.drv = s.drv.tickPoll s.par (s.env.now + 1) s.env.lineLevel := by rw [ht]
  have henv : s.tick.env = s.env.sampled.ticked := by rw [ht]
  have hcap : s.tick.drv =
      { s.drv.capture (s.env.now + 1) s.env.lineLevel with bus := s.tick.drv.bus } := by
    rw [hdrv]
    exact Driver.deadline_eq _ _ _
  have hbus := Driver.tickPoll_bus hpoll hp s.par (s.env.now + 1) s.env.lineLevel
  rw [← hdrv] at hbus
  have hfull := Driver.capture_bus_eq_idle_iff hin hp (s.env.now + 1) s.env.lineLevel
  rw [Driver.nedge_cap_iff hpoll hp] at hfull
  refine ⟨by rw [ht], fun l' rest hline => ?_, fun hline => ?_, fun hlast => ?_, fun hlast => ?_, fun hf => ?_,
    fun hf hspent => ?_, fun hf hspent => ?_⟩
  · rw [henv, Env.sampled_of_cons hline]
    exact ⟨Env.lineLevel_of_cons hline, rfl⟩
  · rw [henv, Env.sampled_of_nil hline]
    rfl
  · rwa [Driver.capture_of_eq_last hin _ hlast] at hcap
  · rwa [Driver.capture_of_ne_last hin _ hlast] at hcap
  · rw [hbus, if_pos (hfull.2 hf)]
  · rw [hbus, if_neg (mt hfull.1 hf)]
    exact if_pos hspent
  · rw [hbus, if_neg (mt hfull.1 hf)]
    exact if_neg hspent

/-- A tick in Sending does not enter Timeout (R127, R128). -/
theorem Driver.tickSending_bus_ne_timeout {d : Driver} (hb : d.bus = .sending) (t : Word) :
    (d.tickSending t).bus ≠ .timeout := by
  unfold Driver.tickSending
  split
  · split
    · exact Driver.endOfSend_bus_ne_timeout t _
    · simp [Driver.startPulse, Driver.pinToggle, hb]
  · simp [hb]

/-- Settles O13: a tick in Idle leaves STATE, one in Begin enters Sending, and one in Sending does not enter Timeout. -/
theorem timeoutComesFromPollsOnly : Obligations.TimeoutComesFromPollsOnly := by
  intro s h
  by_cases hl : s.env.ticksLeft = some 0
  · rw [State.tick_stopped hl] at h
    exact .inl h
  · cases hb : s.drv.bus with
    | idle =>
      rw [State.tick_ready hl (by rw [hb]; rfl)] at h
      exact absurd (hb.symm.trans h) (by simp)
    | begin =>
      rw [State.tick_of_begin hl hb] at h
      cases h
    | sending =>
      rw [State.tick_of_sending hl hb] at h
      exact absurd h (Driver.tickSending_bus_ne_timeout hb _)
    | pollInterrupt => exact .inr (.inl rfl)
    | pollPacket => exact .inr (.inr rfl)
    | timeout => exact .inl rfl

/-! ### The level changes of a send (R102, R137) -/

theorem levelChanges_add (n m : Nat) (s : State) :
    levelChanges (n + m) s = levelChanges n s ++ levelChanges m (State.ticks n s) := by
  induction n generalizing s with
  | zero => simp [levelChanges]
  | succ n ih =>
    rw [Nat.succ_add, levelChanges, levelChanges, ih, State.ticks_succ]
    split <;> rfl

/-- A tick at which OUT changes is one level change. -/
theorem levelChanges_one {s : State} (h : s.tick.drv.out = !s.drv.out) : levelChanges 1 s = [s.tick.env.now] := by
  rw [levelChanges, if_neg (by rw [h]; simp), levelChanges]

/-- Within a pulse OUT does not change (R127). -/
theorem levelChanges_in_pulse {s : State} (ht : s.env.ticksLeft = none) (hb : s.drv.bus = .sending) (n : Nat)
    (hn : n < (s.drv.due - s.env.now).toNat) : levelChanges n s = [] := by
  induction n with
  | zero => rfl
  | succ n ih =>
    have hout (j : Nat) (hj : j ≤ n + 1) : (State.ticks j s).drv.out = s.drv.out := by
      rw [State.ticks_in_pulse ht hb j (by omega)]
    have hstep : (State.ticks n s).tick = State.ticks (n + 1) s := (State.ticks_add n s 1).symm
    rw [levelChanges_add, ih (by omega), List.nil_append, levelChanges, hstep, hout n (by omega),
      hout (n + 1) le_rfl, if_pos rfl, levelChanges]

/-- A pulse, whole, makes one level change, at DUE (R127). -/
theorem levelChanges_pulse {s : State} (ht : s.env.ticksLeft = none) (hb : s.drv.bus = .sending)
    (hd : 1 ≤ (s.drv.due - s.env.now).toNat) :
    levelChanges (s.drv.due - s.env.now).toNat s = [s.drv.due] := by
  have hp := State.ticks_pulse ht hb hd
  have hin := State.ticks_in_pulse ht hb ((s.drv.due - s.env.now).toNat - 1) (by omega)
  have hnone := levelChanges_in_pulse ht hb ((s.drv.due - s.env.now).toNat - 1) (by omega)
  generalize (s.drv.due - s.env.now).toNat = n at hd hp hin hnone ⊢
  obtain ⟨m, rfl⟩ := Nat.exists_eq_add_of_le' hd
  rw [Nat.add_sub_cancel] at hin hnone
  have hlast : (State.ticks m s).tick = { s with drv := s.drv.pulseEnd, env := { s.env with now := s.drv.due } } :=
    (State.ticks_add m s 1).symm.trans hp
  rw [levelChanges_add, hnone, List.nil_append, levelChanges_one, hlast]
  rw [hlast, hin]
  exact Driver.pulseEnd_out s.drv

/-- The pulse of bit `ix`, whole: one level change, and the state that `ticks_pulse` gives (R127, R136). -/
theorem levelChanges_due {s : State} (ht : s.env.ticksLeft = none) (hb : s.drv.bus = .sending)
    (htau : 1 ≤ s.drv.tau.toNat) {b : Bool} (hdue : s.drv.due = s.env.now + pulseWidth s.drv.tau b) :
    levelChanges (replyWidth s.drv.tau.toNat b) s = [s.drv.due] ∧
      State.ticks (replyWidth s.drv.tau.toNat b) s =
        { s with drv := s.drv.pulseEnd, env := { s.env with now := s.drv.due } } := by
  have hw : (s.drv.due - s.env.now).toNat = replyWidth s.drv.tau.toNat b := by
    rw [hdue, BitVec.add_comm, BitVec.add_sub_cancel, pulseWidth_ticks]
  have hpos : 1 ≤ (s.drv.due - s.env.now).toNat := by rw [hw]; exact replyWidth_pos htau b
  exact hw ▸ ⟨levelChanges_pulse ht hb hpos, State.ticks_pulse ht hb hpos⟩

/-- The pulses of bits `ix`, ..., 0 make a level change at the end of each (R137). -/
theorem levelChanges_pulses (ix : Nat) (hix : ix ≤ 16) {s : State} (ht : s.env.ticksLeft = none)
    (hb : s.drv.bus = .sending) (htau : 1 ≤ s.drv.tau.toNat) (hbit : s.drv.bitix = BitVec.ofNat 5 ix)
    (hdue : s.drv.due = s.env.now + pulseWidth s.drv.tau (s.drv.txsr.getLsbD ix)) :
    levelChanges (pulseTicks s.drv.tau.toNat s.drv.txsr ix) s = pulseEnds s.drv.tau s.drv.txsr ix s.env.now := by
  induction ix generalizing s with
  | zero =>
    obtain ⟨hone, -⟩ := levelChanges_due ht hb htau hdue
    rw [pulseTicks, pulseEnds, hone, hdue]
  | succ ix ih =>
    obtain ⟨hone, hend⟩ := levelChanges_due ht hb htau hdue
    have hn : s.drv.bitix.toNat = ix + 1 := by rw [hbit, BitVec.toNat_ofNat]; omega
    have hne : s.drv.bitix ≠ 0 := fun e => by simp [e] at hn
    have hpred : s.drv.bitix - 1 = BitVec.ofNat 5 ix := by rw [hbit, BitVec.ofNat_add]; exact BitVec.add_sub_cancel _ _
    rw [Driver.pulseEnd_of_bitix_ne_zero hne, hn, hpred, Nat.add_sub_cancel] at hend
    rw [pulseTicks, levelChanges_add, hone, hend]
    exact (congrArg (s.drv.due :: ·) (ih (by omega) (s := { s with
      drv := { s.drv with
        out := !s.drv.out, bitix := BitVec.ofNat 5 ix
        due := s.drv.due + pulseWidth s.drv.tau (s.drv.txsr.getLsbD ix) }
      env := { s.env with now := s.drv.due } }) ht hb htau rfl rfl)).trans (by rw [pulseEnds, hdue])

/-- The Begin tick toggles the line and starts the pulse of bit 16 (R126). -/
theorem State.sending_of_begin {s : State} (ht : s.env.ticksLeft = none) (hb : s.drv.bus = .begin) :
    s.tick.drv.bus = .sending ∧ s.tick.drv.out = !s.drv.out ∧ s.tick.drv.bitix = BitVec.ofNat 5 16 ∧
      s.tick.drv.due = s.tick.env.now + pulseWidth s.tick.drv.tau (s.tick.drv.txsr.getLsbD 16) := by
  rw [State.tick_of_begin (running ht) hb]
  exact ⟨rfl, rfl, rfl, rfl⟩

/-- Settles O14: the Begin tick makes the first level change, and each of the seventeen pulses one at its end. -/
theorem levelChangesOfASend : Obligations.LevelChangesOfASend := by
  intro s h hb
  obtain ⟨hinv, hset, ht, -⟩ := h
  have htau : 1 ≤ s.drv.tau.toNat := by have := (hinv.1.1 hset).1; omega
  obtain ⟨hsend, hout, hbit, hdue⟩ := State.sending_of_begin ht hb
  have ht1 : s.tick.env.ticksLeft = none := by simp [ht]
  have htau1 : 1 ≤ s.tick.drv.tau.toNat := by simpa using htau
  have hticks : pulseTicks s.tick.drv.tau.toNat s.tick.drv.txsr 16 = sendTicks s.drv.tau (s.drv.txsr.setWidth 17) := by
    rw [State.tick_tau, State.tick_txsr, pulseTicks_word]
  have hpulses := levelChanges_pulses 16 le_rfl ht1 hsend htau1 hbit hdue
  obtain ⟨-, hin⟩ := State.ticks_pulses 16 le_rfl ht1 hsend htau1 hbit hdue
  obtain ⟨hword, -⟩ := State.ticks_word ht hb htau
  rw [hticks] at hpulses hin
  refine ⟨?_, fun j hj1 hj => ?_, ?_⟩
  · rw [levelChanges_add, levelChanges_one hout, State.ticks_succ, State.ticks_zero, hpulses, State.tick_tau,
      State.tick_txsr, State.tick_now (running ht)]
    rfl
  · obtain ⟨i, rfl⟩ := Nat.exists_eq_add_of_le' hj1
    exact hin i (by omega)
  · rw [hword]
    exact Driver.endOfSend_bus_eq _ _

/-! ### The driver's operations (R120 to R124, R133 to R135) -/

/-- set_tau of 2 and above wraps into 2..153 (R120). -/
theorem effectiveTau_toNat (par : Params) {v : Word} (h : 2 ≤ v.toNat) :
    (effectiveTau par v).toNat = (v.toNat - 2) % 152 + 2 := by
  rw [effectiveTau, if_pos (by exact h), BitVec.toNat_ofNat, Config.tauMin, Config.tauSpan]
  omega

/-- Settles O16: the value written is `effectiveTau`, whatever the driver is doing. -/
theorem setTauWrapsIntoRange : Obligations.SetTauWrapsIntoRange := fun s =>
  ⟨effectiveTau s.par, fun v =>
    ⟨rfl, (effectiveTau_range s.par v).1, (effectiveTau_range s.par v).2, effectiveTau_toNat s.par⟩⟩

/-- Settles O17: the branches of get_tau. -/
theorem getTauAnswersTau : Obligations.GetTauAnswersTau := fun s =>
  ⟨fun h => if_pos h, fun h => ⟨Config.freeTau s.env.freeCtr, _, if_neg (by simp [h]), rfl⟩⟩

theorem needTau_of_tauSet {s : State} (h : s.drv.tauSet = true) (k : Host.Outcome State Fault Refusal) :
    s.needTau k = k := if_pos h

/-- begin_transfer with a mode (R122, R123). -/
theorem exec_beginTransfer_mode {s : State} (h : s.drv.tauSet = true) (word : Word) {mode : Word} {m : Mode}
    (hm : modeOfArg mode = some m) : exec (.beginTransfer word mode) s = .next (s.beginTransfer word m) := by
  rw [exec, execBeginTransfer, needTau_of_tauSet h, hm]

/-- begin_transfer with a mode that is none (R123, log 11). -/
theorem exec_beginTransfer_no_mode {s : State} (h : s.drv.tauSet = true) (word : Word) {mode : Word}
    (hm : modeOfArg mode = none) : exec (.beginTransfer word mode) s = .next s := by
  rw [exec, execBeginTransfer, needTau_of_tauSet h, hm]

/-- Settles O18: the three modes' arguments, and begin_transfer with no cycle in progress. -/
theorem beginTransferArmsTheDriver : Obligations.BeginTransferArmsTheDriver := by
  intro s word mode m hset hb hm
  have harg : modeOfArg mode = some m := by rcases hm with ⟨rfl, rfl⟩ | ⟨rfl, rfl⟩ | ⟨rfl, rfl⟩ <;> rfl
  rw [exec_beginTransfer_mode hset word harg, State.beginTransfer_ready (BusState.ready_iff.2 hb)]

/-- Settles O19: with a mode begin_transfer is ignored for the cycle in progress, without one in any STATE. -/
theorem beginTransferIgnored : Obligations.BeginTransferIgnored := by
  intro s word mode hset h
  cases hm : modeOfArg mode with
  | none => exact exec_beginTransfer_no_mode hset word hm
  | some m =>
    have hbusy : s.drv.bus.ready = false := by
      rcases h with h | h
      · exact BusState.ready_eq_false_iff.2 h
      · simp [modeOfArg_eq_none h] at hm
    rw [exec_beginTransfer_mode hset word hm, State.beginTransfer_busy hbusy]

/-- Settles O20: the six states have six numbers. -/
theorem currentStateAnswers : Obligations.CurrentStateAnswers := by
  refine fun s => ⟨s.drv.bus.code, rfl, ?_⟩
  cases s.drv.bus <;> simp [BusState.code]

/-- Settles O21: a delay is its ticks, and with no cycle in progress those move the counter alone. -/
theorem delayLetsTicksPass : Obligations.DelayLetsTicksPass := by
  intro s n hs
  have hexec : exec (.delayUs n) s = .next (State.ticks n.toNat s) := by
    rw [exec, execDelayUs, State.delay_eq_ticks hs]
    rfl
  have hn : BitVec.ofNat 32 n.toNat = n := by simp
  refine ⟨hexec, by rw [State.ticks_now _ hs.1, hn], fun hb => ?_⟩
  rw [hexec, State.ticks_ready _ hs.1 (BusState.ready_iff.2 hb), hn]

/-- Settles O22: a guard delay is 5 TAU ticks, and with no cycle in progress those move the counter alone. -/
theorem guardDelayLetsFiveTauPass : Obligations.GuardDelayLetsFiveTauPass := by
  intro s hset hs
  have hexec : exec .guardDelay s = .next (State.ticks (5 * s.drv.tau.toNat) s) := by
    rw [exec, execGuardDelay, needTau_of_tauSet hset, State.guard_eq_ticks hs]
    rfl
  refine ⟨hexec, fun hb => ?_⟩
  rw [hexec, State.ticks_ready _ hs.1 (BusState.ready_iff.2 hb)]

/-- Settles O23: the branches of bus_line_idle. -/
theorem busLineIdleDrivesRest : Obligations.BusLineIdleDrivesRest := by
  refine fun s => ⟨fun hb => ?_, fun hi ht => ?_⟩
  · exact congrArg Host.Outcome.next (if_pos (BusState.ready_iff.2 hb))
  · have hbusy : s.drv.bus.ready = false := BusState.ready_eq_false_iff.2 ⟨hi, ht⟩
    exact congrArg Host.Outcome.next (if_neg (by simp [hbusy]))

/-! ### An exchange asked for in a cycle (R123, R190, log 11) -/

/-- A prompt foreground does not pause (R77). -/
theorem State.pause_of_prompt {s : State} (h : s.env.lag = []) : s.pause = s := by
  rw [State.pause, h]

/-- An exchange asked for in a cycle is the rest of that cycle and a guard delay; it answers how the cycle ended. -/
theorem State.exchange_busy {s : State} (h : s.Inv) (hs : s.Undisturbed) (hb : s.drv.bus.ready = false)
    (hlag : s.env.lag = []) (c : Code) (p : Byte) (m : Mode) :
    ∃ k, (State.ticks k s).drv.bus.ready = true ∧
      s.exchange c p m = .done (State.ticks k s).drv.bus (State.ticks (5 * s.drv.tau.toNat) (State.ticks k s)) := by
  obtain ⟨k, hwait, hready, -⟩ := State.awaitReady_first h hs
  have hund : (State.ticks k s).Undisturbed := ⟨by simp [hs.1], by simpa using hs.2⟩
  refine ⟨k, hready, ?_⟩
  rw [State.exchange, State.pause_of_prompt hlag, State.moment_calm hs.2, State.beginTransfer_busy hb, hwait,
    Run.andThen_done, State.pause_of_prompt (by simpa using hlag), State.guard_eq_ticks hund, Run.map_done,
    State.ticks_tau]

/-- Settles O40: ticks arm no word, and those of the guard delay leave STATE as the cycle left it. -/
theorem exchangeInACycleWaitsForIt : Obligations.ExchangeInACycleWaitsForIt := by
  intro s code payload h hb hlag
  obtain ⟨hinv, hset, hs⟩ := h
  obtain ⟨k, hready, hex⟩ := State.exchange_busy hinv hs hb hlag code payload .sendOnly
  generalize hu : State.ticks k s = u at hready hex
  have hbus : (State.ticks (5 * s.drv.tau.toNat) u).drv.bus = u.drv.bus := by
    rw [State.ticks_ready _ (by simp [← hu, hs.1]) hready]
  have hexec : exec (.sendOnly code payload) s =
      .next (answerBool (decide (u.drv.bus = .idle)) (State.ticks (5 * s.drv.tau.toNat) u)) := by
    change s.needTau (finish answerBool (s.sendOnly code payload)) = _
    rw [needTau_of_tauSet hset, State.sendOnly, hex]
    rfl
  have hkept : u.env.sent = s.env.sent ∧ u.drv.txsr = s.drv.txsr ∧ u.drv.mode = s.drv.mode := by simp [← hu]
  exact ⟨_, hexec, by simp [answerBool, hbus, hready, hkept]⟩

end Sys2Proof.Machine

/-! PROOFS, 41_codec.md. Undoing the inversion and checking the parity are both linear in the word (exclusive or goes to
exclusive or), so encode's word, the logical word with an inversion put on it, is read back as the logical word, and a
flipped bit is judged on its own. From this what encode answers (O26), the majority rule (O27, O31), the parity groups and
single errors (O30, O33); and the bits that decode reads off its intervals, with the round trip (O28, O32). -/

namespace Sys2Proof.Machine

/-! ### Counting ones (R7) -/

theorem popcount_eq_cpop {n : Nat} (v : BitVec n) : popcount v = v.cpop.toNat := by
  have hcount (k acc : Nat) : v.cpopNatRec k acc = acc + (List.range k).countP fun i => v.getLsbD i := by
    induction k generalizing acc with
    | zero => rfl
    | succ k ih =>
      rw [BitVec.cpopNatRec_succ, ih, List.range_succ, List.countP_append, List.countP_singleton]
      cases v.getLsbD k
      · rfl
      · simp only [Bool.toNat_true, if_true]
        omega
  rw [BitVec.toNat_cpop, hcount, Nat.zero_add, popcount]

theorem popcount_le {n : Nat} (v : BitVec n) : popcount v ≤ n := by
  rw [popcount_eq_cpop]
  exact BitVec.toNat_cpop_le v

theorem popcount_append {m n : Nat} (v : BitVec m) (w : BitVec n) : popcount (v ++ w) = popcount v + popcount w := by
  simp only [popcount_eq_cpop]
  exact BitVec.toNat_cpop_append

theorem popcount_not {n : Nat} (v : BitVec n) : popcount (~~~v) = n - popcount v := by
  simp only [popcount_eq_cpop]
  exact BitVec.toNat_cpop_not

/-- A word that is not all ones has a 0 bit. -/
theorem exists_zero_bit {n : Nat} {v : BitVec n} (h : popcount v < n) : ∃ i < n, v.getLsbD i = false := by
  by_contra! hall
  have hones : popcount v = (List.range n).length :=
    List.countP_eq_length.2 fun i hi => by simpa using hall i (List.mem_range.1 hi)
  rw [List.length_range] at hones
  omega

theorem popcount_ofBool (b : Bool) : popcount (BitVec.ofBool b) = b.toNat := by
  cases b <;> rfl

/-! ### Inversion (R95, R98, R162, R165) -/

theorem coveredBits_xor (x y : WireWord) : coveredBits (x ^^^ y) = coveredBits x ^^^ coveredBits y :=
  BitVec.extractLsb'_xor

theorem wordCode_xor (x y : WireWord) : wordCode (x ^^^ y) = wordCode x ^^^ wordCode y := BitVec.extractLsb'_xor

theorem wordPayload_xor (x y : WireWord) : wordPayload (x ^^^ y) = wordPayload x ^^^ wordPayload y :=
  BitVec.extractLsb'_xor

theorem invFlag_xor (x y : WireWord) : invFlag (x ^^^ y) = (invFlag x ^^ invFlag y) := BitVec.getLsbD_xor

theorem coveredBits_invertCovered (w : WireWord) : coveredBits (invertCovered w) = ~~~coveredBits w := by
  have hmask : coveredBits 0x07FFE#17 = BitVec.allOnes 14 := by decide
  rw [invertCovered, coveredBits_xor, hmask, BitVec.xor_allOnes]

/-- What undoing the inversion adds to a word whose flag is `inv`. -/
def inversionMask (inv : Bool) : WireWord := if inv then 0x07FFE#17 else 0#17

theorem inversionMask_xor (a b : Bool) : inversionMask (a ^^ b) = inversionMask a ^^^ inversionMask b := by
  cases a <;> cases b <;> rfl

theorem unInvert_eq_xor (r : WireWord) : unInvert r = r ^^^ inversionMask (invFlag r) := by
  unfold unInvert inversionMask
  split
  · rfl
  · exact BitVec.xor_zero.symm

/-- Undoing the inversion is linear: the flag it looks at is a bit of the word. -/
theorem unInvert_xor (x y : WireWord) : unInvert (x ^^^ y) = unInvert x ^^^ unInvert y := by
  simp only [unInvert_eq_xor, invFlag_xor, inversionMask_xor]
  ac_rfl

theorem coveredBits_unInvert (r : WireWord) :
    coveredBits (unInvert r) = if invFlag r then ~~~coveredBits r else coveredBits r := by
  unfold unInvert
  split
  · exact coveredBits_invertCovered r
  · rfl

/-- The majority rule as R162 has it: the un-inverted word has more than 7 covered ones iff INV is 1. -/
theorem majorityAgrees_iff (r : WireWord) :
    majorityAgrees r = true ↔ (7 < popcount (coveredBits (unInvert r)) ↔ invFlag r = true) := by
  have hle := popcount_le (coveredBits r)
  rw [majorityAgrees, coveredBits_unInvert]
  cases invFlag r
  · simp
  · simp only [Bool.not_true, Bool.false_and, Bool.true_and, Bool.false_or, decide_eq_true_eq, if_true, iff_true,
      popcount_not]
    omega

/-- A word that agrees with the majority rule has at most 7 covered ones, at most 6 if inverted (R162, R169). -/
theorem popcount_coveredBits_le {r : WireWord} (h : majorityAgrees r = true) :
    popcount (coveredBits r) ≤ 7 - (invFlag r).toNat := by
  rw [majorityAgrees] at h
  cases hinv : invFlag r <;> simpa [hinv] using h

/-! ### encode's word (R160) -/

theorem invFlag_logicalWord (c : Code) (p : Byte) : invFlag (logicalWord c p) = false := by
  rw [invFlag, logicalWord, BitVec.getLsbD_append]
  rfl

/-- W[1 + g] of a logical word is the parity of group g (R94, R97). -/
theorem getLsbD_logicalWord_parity (c : Code) (p : Byte) {g : Nat} (hg : g < 4) :
    (logicalWord c p).getLsbD (1 + g) = parityOf (codePayload c p) g := by
  rw [← getElem_parityField _ hg, logicalWord, BitVec.getLsbD_append, if_neg (by omega), Nat.add_sub_cancel_left,
    BitVec.getLsbD_append, if_pos hg, BitVec.getLsbD_eq_getElem hg]

theorem failingGroup_logicalWord (c : Code) (p : Byte) : failingGroup (logicalWord c p) = none := by
  rw [failingGroup_eq_none_iff, wordCode_logicalWord, wordPayload_logicalWord]
  exact fun g hg => getLsbD_logicalWord_parity c p hg

/-- The flag bit set in a word whose flag is 0. -/
theorem or_one_eq_xor {w : WireWord} (h : invFlag w = false) : w ||| 1#17 = w ^^^ 1#17 := by
  ext k hk
  cases k with
  | zero => simpa [invFlag] using h
  | succ k => simp

/-- encode complements the covered bits and the flag together (R98). -/
theorem wireWord_of_majority {c : Code} {p : Byte} (h : 7 < popcount (coveredBits (logicalWord c p))) :
    wireWord c p = logicalWord c p ^^^ 0x07FFF#17 := by
  have hflag : invFlag (invertCovered (logicalWord c p)) = false := by
    rw [invertCovered, invFlag_xor, invFlag_logicalWord]
    rfl
  rw [wireWord, if_pos h, or_one_eq_xor hflag, invertCovered, BitVec.xor_assoc]
  rfl

theorem wireWord_of_no_majority {c : Code} {p : Byte} (h : popcount (coveredBits (logicalWord c p)) ≤ 7) :
    wireWord c p = logicalWord c p := if_neg (by omega)

/-- Un-inverted, encode's word is the logical word, but for the flag, which stays (R165). -/
theorem unInvert_wireWord (c : Code) (p : Byte) :
    unInvert (wireWord c p) = logicalWord c p ∨ unInvert (wireWord c p) = logicalWord c p ^^^ 1#17 := by
  have hl : unInvert (logicalWord c p) = logicalWord c p := if_neg (by simp [invFlag_logicalWord])
  rcases Nat.lt_or_ge 7 (popcount (coveredBits (logicalWord c p))) with h | h
  · rw [wireWord_of_majority h, unInvert_xor, hl]
    exact .inr rfl
  · rw [wireWord_of_no_majority h]
    exact .inl hl

theorem wordCode_unInvert_wireWord (c : Code) (p : Byte) : wordCode (unInvert (wireWord c p)) = c := by
  rcases unInvert_wireWord c p with h | h
  · rw [h, wordCode_logicalWord]
  · rw [h, wordCode_xor, wordCode_logicalWord]
    exact BitVec.xor_zero

theorem wordPayload_unInvert_wireWord (c : Code) (p : Byte) : wordPayload (unInvert (wireWord c p)) = p := by
  rcases unInvert_wireWord c p with h | h
  · rw [h, wordPayload_logicalWord]
  · rw [h, wordPayload_xor, wordPayload_logicalWord]
    exact BitVec.xor_zero

theorem invFlag_wireWord (c : Code) (p : Byte) :
    invFlag (wireWord c p) = true ↔ 7 < popcount (coveredBits (logicalWord c p)) := by
  rcases Nat.lt_or_ge 7 (popcount (coveredBits (logicalWord c p))) with h | h
  · rw [wireWord_of_majority h, invFlag_xor, invFlag_logicalWord]
    exact iff_of_true rfl h
  · rw [wireWord_of_no_majority h, invFlag_logicalWord]
    exact iff_of_false Bool.false_ne_true (by omega)

/-- The logical word has more than 7 covered ones exactly when encode sets INV (R162). -/
theorem majorityAgrees_wireWord (c : Code) (p : Byte) : majorityAgrees (wireWord c p) = true := by
  have hcov : coveredBits (unInvert (wireWord c p)) = coveredBits (logicalWord c p) := by
    rcases unInvert_wireWord c p with h | h <;> rw [h]
    rw [coveredBits_xor]
    exact BitVec.xor_zero
  rw [majorityAgrees_iff, hcov, invFlag_wireWord]

/-! ### The parity groups (R97, R161, R167) -/

/-- The members of a parity group as a mask over {code, payload}, nBCF (bit 10) among them (R97). -/
def groupMask : Nat → BitVec 12
  | 0 => 0x55B#12
  | 1 => 0x66D#12
  | 2 => 0x78E#12
  | _ => 0x7F0#12

/-- The mask of a group holds nBCF and the group's D bits. -/
theorem groupMask_members (g : Nat) : ((List.range 12).filter (groupMask g).getLsbD).Perm (10 :: parityGroup g) := by
  rcases g with _ | _ | _ | g <;> simp only [groupMask, parityGroup] <;> decide

/-- An exclusive or says whether a count is odd. -/
theorem foldl_xor_eq_odd {α : Type} (p : α → Bool) (l : List α) (b : Bool) :
    l.foldl (fun acc x => acc ^^ p x) b = ((b.toNat + l.countP p) % 2 == 1) := by
  induction l generalizing b with
  | nil => cases b <;> rfl
  | cons x l ih =>
    have hone : (b ^^ p x).toNat % 2 = (b.toNat + (p x).toNat) % 2 := by cases b <;> cases p x <;> rfl
    have hhead : (if p x then 1 else 0) = (p x).toNat := by cases p x <;> rfl
    rw [List.foldl_cons, ih, List.countP_cons, hhead]
    congr 1
    omega

/-- A group's parity is that of the ones under its mask (R97). -/
theorem parityOf_eq_popcount (cp : BitVec 12) (g : Nat) :
    parityOf cp g = (popcount (cp &&& groupMask g) % 2 == 1) := by
  have hmask : popcount (cp &&& groupMask g) = (10 :: parityGroup g).countP cp.getLsbD := by
    rw [← (groupMask_members g).countP_eq, List.countP_filter, popcount]
    simp
  rw [parityOf, foldl_xor_eq_odd, hmask, List.countP_cons, Nat.add_comm]
  cases cp.getLsbD 10 <;> rfl

/-- Whether parity group `g` of a logical word disagrees with its parity bit (R167). -/
def groupFails (l : WireWord) (g : Nat) : Bool :=
  parityOf (codePayload (wordCode l) (wordPayload l)) g ^^ l.getLsbD (1 + g)

theorem failingGroup_eq_find (l : WireWord) : failingGroup l = [0, 1, 2, 3].find? (groupFails l) := rfl

/-- A group fails iff it and its parity bit hold an odd number of ones. -/
theorem groupFails_eq_oddGroup (l : WireWord) (g : Nat) : groupFails l g = oddGroup l (groupMask g) g := by
  rw [groupFails, parityOf_eq_popcount, codePayload_fields, oddGroup]
  cases l.getLsbD (1 + g)
  · simp
  · rcases Nat.mod_two_eq_zero_or_one (popcount (l.extractLsb' 5 12 &&& groupMask g)) with h | h <;>
      simp [Nat.add_mod, h]

theorem exec_checkParity (l : WireWord) (s : State) :
    exec (.checkParity l) s = .next { s with ans := { s.ans with
      res0 := (failingGroup l).elim 0 fun g => BitVec.ofNat 32 (1 + g) } } := by
  change execCheckParity l s = _
  unfold execCheckParity
  cases failingGroup l with
  | none => rfl
  | some g => rfl

/-- Settles O30: the groups are asked in order, and each fails iff it is odd. -/
theorem checkParityReportsTheLowestGroup : Obligations.CheckParityReportsTheLowestGroup := by
  refine fun s l => ⟨_, exec_checkParity l s, ?_⟩
  change _ = if oddGroup l (groupMask 0) 0 then 1 else if oddGroup l (groupMask 1) 1 then 2 else
    if oddGroup l (groupMask 2) 2 then 3 else if oddGroup l (groupMask 3) 3 then 4 else 0
  simp only [failingGroup_eq_find, ← groupFails_eq_oddGroup, List.find?_cons, List.find?_nil]
  cases groupFails l 0
  · cases groupFails l 1
    · cases groupFails l 2
      · cases groupFails l 3 <;> rfl
      · rfl
    · rfl
  · rfl

/-! ### What encode answers (R97, R98, R160) -/

/-- Settles O26: the witnesses are the logical word and the word encode makes of it. -/
theorem encodeAnswersTheWireWord : Obligations.EncodeAnswersTheWireWord := by
  intro s c p
  have hpar {g : Nat} (hg : g < 4) : (logicalWord c p).getLsbD (1 + g) =
      (popcount ((c ++ p : BitVec 12) &&& groupMask g) % 2 == 1) := by
    rw [getLsbD_logicalWord_parity c p hg, parityOf_eq_popcount]
    rfl
  refine ⟨logicalWord c p, wireWord c p, rfl, wordCode_logicalWord c p, wordPayload_logicalWord c p,
    invFlag_logicalWord c p, hpar (g := 0) (by decide), hpar (g := 1) (by decide), hpar (g := 2) (by decide),
    hpar (g := 3) (by decide), wireWord_of_no_majority, fun h => ⟨(invFlag_wireWord c p).2 h, ?_, ?_⟩⟩
  · rw [wireWord_of_majority h, BitVec.extractLsb'_xor]
    exact BitVec.xor_allOnes
  · rw [wireWord_of_majority h, BitVec.extractLsb'_xor]
    exact BitVec.xor_zero

/-! ### The majority rule (R162, R169) -/

/-- The covered bits lie between the frame bits and the flag (R94, R95). -/
theorem frame_covered_flag (w : WireWord) :
    w.extractLsb' 15 2 ++ coveredBits w ++ BitVec.ofBool (invFlag w) = w := by
  have hflag : BitVec.ofBool (invFlag w) = w.extractLsb' 0 1 := by
    ext k hk
    obtain rfl : k = 0 := by omega
    simp [invFlag]
  calc w.extractLsb' 15 2 ++ coveredBits w ++ BitVec.ofBool (invFlag w)
      = w.extractLsb' 15 2 ++ w.extractLsb' 1 14 ++ w.extractLsb' 0 1 := by rw [hflag, coveredBits]
    _ = w.extractLsb' 1 16 ++ w.extractLsb' 0 1 :=
        congrArg (· ++ w.extractLsb' 0 1) (BitVec.extractLsb'_append_extractLsb'_eq_extractLsb' rfl)
    _ = w.extractLsb' 0 17 := BitVec.extractLsb'_append_extractLsb'_eq_extractLsb' rfl
    _ = w := BitVec.extractLsb'_eq_self

/-- BCF, nBCF and INV are not covered (R95). -/
theorem popcount_le_coveredBits (w : WireWord) : popcount w ≤ 2 + popcount (coveredBits w) + (invFlag w).toNat := by
  have hframe := popcount_le (w.extractLsb' 15 2)
  calc popcount w
      = popcount (w.extractLsb' 15 2) + popcount (coveredBits w) + (invFlag w).toNat := by
        rw [← popcount_ofBool, ← popcount_append, ← popcount_append, frame_covered_flag]
    _ ≤ 2 + popcount (coveredBits w) + (invFlag w).toNat := by omega

theorem exec_checkInversionMajority (r : WireWord) (s : State) :
    exec (.checkInversionMajority r) s =
      .next { s with ans := { s.ans with res0 := if majorityAgrees r then 1 else 0 } } := rfl

/-- Settles O31: the bounds 7 and 6 on the covered ones as received say the majority rule of the un-inverted word. -/
theorem checkInversionMajorityAnswers : Obligations.CheckInversionMajorityAnswers := fun s r =>
  ⟨majorityAgrees r, exec_checkInversionMajority r s, majorityAgrees_iff r⟩

/-- Settles O27: encode's word agrees with the majority rule, which bounds its covered ones, and BCF, nBCF and INV are the
only other bits. -/
theorem encodedWordsAreBalanced : Obligations.EncodedWordsAreBalanced := by
  intro c p
  have hagree := majorityAgrees_wireWord c p
  have hcovered := popcount_coveredBits_le hagree
  have hones := popcount_le_coveredBits (wireWord c p)
  have hflag := Bool.toNat_le (invFlag (wireWord c p))
  refine ⟨by omega, fun hinv => ?_, by omega, fun s => ?_⟩
  · rwa [hinv] at hcovered
  · rw [exec_checkInversionMajority, if_pos hagree]

/-! ### Single errors (R168) -/

theorem xor_xor_xor_comm (a b c d : Bool) : ((a ^^ b) ^^ (c ^^ d)) = ((a ^^ c) ^^ (b ^^ d)) := by
  rw [Bool.xor_assoc, Bool.xor_left_comm b, ← Bool.xor_assoc]

theorem foldl_xor_xor {α : Type} (p q : α → Bool) (l : List α) (a b : Bool) :
    l.foldl (fun acc x => acc ^^ (p x ^^ q x)) (a ^^ b) =
      (l.foldl (fun acc x => acc ^^ p x) a ^^ l.foldl (fun acc x => acc ^^ q x) b) := by
  induction l generalizing a b with
  | nil => rfl
  | cons x l ih =>
    rw [List.foldl_cons, xor_xor_xor_comm, ih]
    rfl

/-- A group's parity is linear. -/
theorem parityOf_xor (x y : BitVec 12) (g : Nat) : parityOf (x ^^^ y) g = (parityOf x g ^^ parityOf y g) := by
  simp only [parityOf, BitVec.getLsbD_xor, foldl_xor_xor]

theorem groupFails_xor (x y : WireWord) (g : Nat) : groupFails (x ^^^ y) g = (groupFails x g ^^ groupFails y g) := by
  simp only [groupFails, codePayload_fields, BitVec.extractLsb'_xor, parityOf_xor, BitVec.getLsbD_xor]
  exact xor_xor_xor_comm ..

/-- What check_parity reports of a good word with an error in it is what it reports of the error (R168). -/
theorem failingGroup_xor {l : WireWord} (h : failingGroup l = none) (e : WireWord) :
    failingGroup (l ^^^ e) = failingGroup e := by
  have hgood : ∀ g ∈ [0, 1, 2, 3], groupFails l g = false := by simpa [failingGroup_eq_find] using h
  rw [failingGroup_eq_find, failingGroup_eq_find]
  exact List.find?_congr fun g hg => by rw [groupFails_xor, hgood g hg, Bool.false_xor]

theorem failingGroup_unInvert_wireWord (c : Code) (p : Byte) : failingGroup (unInvert (wireWord c p)) = none := by
  rcases unInvert_wireWord c p with h | h <;> rw [h]
  · exact failingGroup_logicalWord c p
  · rw [failingGroup_xor (failingGroup_logicalWord c p)]
    rfl

/-- Settles O33: undoing the inversion and the parity check are linear, so each is asked of the error alone. -/
theorem singleFlipsAreReported : Obligations.SingleFlipsAreReported := by
  intro c p s
  have herr (e : WireWord) : failingGroup (unInvert (wireWord c p ^^^ e)) = failingGroup (unInvert e) := by
    rw [unInvert_xor, failingGroup_xor (failingGroup_unInvert_wireWord c p)]
  have hflip : ∀ k < 16, failingGroup (unInvert (BitVec.twoPow 17 k)) = lowestGroup[k]? := by decide
  refine ⟨fun k hk => ⟨lowestGroup[k], List.getElem?_eq_getElem hk, ?_⟩, ?_⟩
  · rw [exec_checkParity, herr, hflip k hk, List.getElem?_eq_getElem hk]
    rfl
  · rw [exec_checkParity, herr]
    rfl

/-! ### Decoding (R165, R166) -/

/-- The threshold lies halfway between the least and the greatest interval. -/
theorem threshold_eq {l : List Word} (hl : l ≠ []) : ∃ lo ∈ l, ∃ hi ∈ l,
    (∀ i ∈ l, lo.toNat ≤ i.toNat ∧ i.toNat ≤ hi.toNat) ∧ threshold l = (lo.toNat + hi.toNat) / 2 := by
  obtain ⟨a, rest, rfl⟩ := List.exists_cons_of_ne_nil hl
  obtain ⟨hmin, hlo⟩ := List.min?_eq_some_iff.1 (List.min?_cons' (x := a.toNat) (xs := rest.map BitVec.toNat))
  obtain ⟨hmax, hhi⟩ := List.max?_eq_some_iff.1 (List.max?_cons' (x := a.toNat) (xs := rest.map BitVec.toNat))
  rw [← List.map_cons, List.mem_map] at hmin hmax
  obtain ⟨lo, hlomem, hloeq⟩ := hmin
  obtain ⟨hi, hhimem, hhieq⟩ := hmax
  refine ⟨lo, hlomem, hi, hhimem, fun i himem => ?_, ?_⟩
  · have hmem : i.toNat ∈ a.toNat :: rest.map BitVec.toNat := List.mem_map_of_mem himem
    rw [hloeq, hhieq]
    exact ⟨hlo _ hmem, hhi _ hmem⟩
  · rw [hloeq, hhieq]
    simp [threshold]

/-- The last interval shifted in is bit 0, the one before it bit 1, and so on (R67, R165). -/
theorem getLsbD_assembleWord_reverse (th : Nat) (l : List Word) {k : Nat} (hk : k < 17) :
    (assembleWord th l.reverse).getLsbD k = l[k]?.any fun i => decide (th < i.toNat) := by
  induction l generalizing k with
  | nil => simp [assembleWord]
  | cons i l ih =>
    have hstep : assembleWord th (i :: l).reverse =
        assembleWord th l.reverse <<< 1 ||| if th < i.toNat then 1#17 else 0#17 := by
      rw [List.reverse_cons, assembleWord, List.foldl_append]
      rfl
    rw [hstep, BitVec.getLsbD_or, BitVec.getLsbD_shiftLeft]
    cases k with
    | zero => by_cases h : th < i.toNat <;> simp [h]
    | succ k =>
      have hrest := ih (k := k) (by omega)
      by_cases h : th < i.toNat <;> simp [h, hrest, hk]

/-- Interval k + 1 gives bit 16 - k of the word (R165). -/
theorem getLsbD_receivedWord {l : List Word} {k : Nat} (hk : k < 17) (hl : 18 ≤ l.length) :
    (receivedWord l).getLsbD (16 - k) = decide (threshold ((l.drop 1).take 16) < l[k + 1].toNat) := by
  have hlen : ((l.drop 1).take 17).length = 17 := by rw [List.length_take, List.length_drop]; omega
  have hat : ((l.drop 1).take 17).reverse[16 - k]? = some l[k + 1] := by
    rw [List.getElem?_reverse (by omega), hlen, show 17 - 1 - (16 - k) = k by omega, List.getElem?_take_of_lt hk,
      List.getElem?_drop, Nat.add_comm, List.getElem?_eq_getElem]
  have h := getLsbD_assembleWord_reverse (threshold ((l.drop 1).take 16)) ((l.drop 1).take 17).reverse
    (k := 16 - k) (by omega)
  rwa [List.reverse_reverse, hat, Option.any_some] at h

/-- The sixteen interior intervals of a buffer (R164). -/
theorem interior_bufIntervals (buf : BufRef) (s : State) :
    ((s.bufIntervals buf).drop 1).take 16 = (List.range' 1 16).map fun k => s.bufInterval buf k := rfl

theorem exec_decode {n : Word} {buf : BufRef} (hn : 18 ≤ n.toNat) (hbuf : 72 ≤ buf.size.toNat) (s : State) :
    exec (.decode n buf) s =
      .next { s with ans := ⟨0, ((unInvert (receivedWord (s.bufIntervals buf))).extractLsb' 5 12).setWidth 32⟩ } := by
  rw [exec, execDecode, if_neg (by omega), bufHolds, if_pos (decide_eq_true hbuf), decodedWord_bufIntervals,
    ← codePayload_fields]
  rfl

/-- Settles O28: the received word's bits are the intervals compared with the threshold. -/
theorem decodeAnswersCodeAndPayload : Obligations.DecodeAnswersCodeAndPayload := by
  refine fun s n buf => ⟨fun hn => ⟨_, _, if_pos hn, rfl⟩, fun hn hbuf => ?_⟩
  have hne : ((List.range' 1 16).map fun k => s.bufInterval buf k) ≠ [] := by simp
  obtain ⟨lo, hlo, hi, hhi, hbound, hth⟩ := threshold_eq hne
  have hat {i : Word} (hmem : i ∈ (List.range' 1 16).map fun k => s.bufInterval buf k) :
      ∃ k, 1 ≤ k ∧ k ≤ 16 ∧ (s.bufInterval buf k).toNat = i.toNat := by
    obtain ⟨k, hk, rfl⟩ := List.mem_map.1 hmem
    obtain ⟨h1, h17⟩ := List.mem_range'_1.1 hk
    exact ⟨k, h1, by omega, rfl⟩
  refine ⟨lo.toNat, hi.toNat, receivedWord (s.bufIntervals buf), unInvert (receivedWord (s.bufIntervals buf)),
    exec_decode hn hbuf s, fun k h1 h16 => ?_, hat hlo, hat hhi, fun k h1 h17 => ?_, rfl⟩
  · exact hbound _ (List.mem_map_of_mem (List.mem_range'_1.2 ⟨h1, by omega⟩))
  · obtain ⟨j, rfl⟩ := Nat.exists_eq_add_of_le' h1
    rw [Nat.add_sub_add_right 16 1 j, getLsbD_receivedWord (by omega) (by simp [State.bufIntervals]),
      interior_bufIntervals, hth]
    simp [State.bufIntervals]

/-! ### The round trip (R163, R164, R170) -/

/-- The intervals of a reply's pulses (R163). -/
def pulseIntervals (tau : Nat) (bits : List Bool) : List Word := bits.map fun b => BitVec.ofNat 32 (replyWidth tau b)

@[simp] theorem length_pulseIntervals_wireBits (tau : Nat) (w : WireWord) :
    (pulseIntervals tau (wireBits w)).length = 17 := by
  simp [pulseIntervals, wireBits]

theorem take_pulseIntervals (tau n : Nat) (bits : List Bool) :
    (pulseIntervals tau bits).take n = pulseIntervals tau (bits.take n) := List.map_take.symm

theorem getElem_pulseIntervals_wireBits (tau : Nat) (w : WireWord) {k : Nat}
    (hk : k < (pulseIntervals tau (wireBits w)).length) :
    (pulseIntervals tau (wireBits w))[k] = BitVec.ofNat 32 (replyWidth tau (w.getLsbD (16 - k))) := by
  simp [pulseIntervals, wireBits]

/-- The intervals of a timeline are the latency and the pulses (R163, R164). -/
theorem intervalsOf_edgeTimes (tau : Nat) (t : Word) (bits : List Bool) :
    intervalsOf (t :: edgeTimes tau t bits) = pulseIntervals tau bits := by
  induction bits generalizing t with
  | nil => rfl
  | cons b bits ih =>
    rw [edgeTimes, intervalsOf, ih, BitVec.add_comm t, BitVec.add_sub_cancel]
    rfl

theorem intervalsOf_timelineOf (w : WireWord) (tau : Nat) (t : Word) (latency : Nat) :
    intervalsOf (timelineOf w tau t latency) = BitVec.ofNat 32 latency :: pulseIntervals tau (wireBits w) := by
  rw [timelineOf, intervalsOf, intervalsOf_edgeTimes, BitVec.add_comm t, BitVec.add_sub_cancel]

theorem le_replyWidth (unit : Nat) (b : Bool) : unit ≤ replyWidth unit b := by
  unfold replyWidth; split <;> omega

/-- A pulse fits the counter. -/
theorem toNat_pulse {tau : Nat} (htau : 3 * tau < 2 ^ 32) (b : Bool) :
    (BitVec.ofNat 32 (replyWidth tau b)).toNat = replyWidth tau b :=
  Nat.mod_eq_of_lt ((replyWidth_le tau b).trans_lt htau)

/-- The threshold of pulses that are not all long lies between the two widths (R166). -/
theorem threshold_pulseIntervals {tau : Nat} (htau : 3 * tau < 2 ^ 32) {bits : List Bool} (h : false ∈ bits) :
    tau ≤ threshold (pulseIntervals tau bits) ∧ threshold (pulseIntervals tau bits) ≤ 2 * tau := by
  have hne : pulseIntervals tau bits ≠ [] := List.ne_nil_of_mem (List.mem_map_of_mem h)
  obtain ⟨lo, hlo, hi, hhi, hbound, hth⟩ := threshold_eq hne
  have hwidth {i : Word} (hmem : i ∈ pulseIntervals tau bits) : tau ≤ i.toNat ∧ i.toNat ≤ 3 * tau := by
    obtain ⟨b, -, rfl⟩ := List.mem_map.1 hmem
    rw [toNat_pulse htau]
    exact ⟨le_replyWidth tau b, replyWidth_le tau b⟩
  have hshort : lo.toNat ≤ tau := by
    have := (hbound _ (List.mem_map_of_mem h)).1
    rwa [toNat_pulse htau] at this
  have := hwidth hlo
  have := hwidth hhi
  omega

/-- A word whose covered bits are not all 1 is received as it was sent (R165, R166). -/
theorem receivedWord_pulseIntervals {w : WireWord} {tau : Nat} (h1 : 1 ≤ tau) (htau : 3 * tau < 2 ^ 32)
    (hzero : popcount (coveredBits w) < 14) (latency : Word) :
    receivedWord (latency :: pulseIntervals tau (wireBits w)) = w := by
  obtain ⟨j, hj, hbit⟩ := exists_zero_bit hzero
  have hshort : false ∈ (wireBits w).take 16 := by
    change false ∈ (List.range 16).map fun k => w.getLsbD (16 - k)
    refine List.mem_map.2 ⟨15 - j, List.mem_range.2 (by omega), ?_⟩
    rw [show 16 - (15 - j) = 1 + j by omega]
    simpa [coveredBits, hj] using hbit
  obtain ⟨hlo, hhi⟩ := threshold_pulseIntervals htau hshort
  refine BitVec.eq_of_getLsbD_eq fun i hi => ?_
  obtain ⟨k, hk, rfl⟩ : ∃ k < 17, i = 16 - k := ⟨16 - i, by omega, by omega⟩
  rw [getLsbD_receivedWord hk (by simp), List.drop_one, List.tail_cons, take_pulseIntervals, List.getElem_cons_succ,
    getElem_pulseIntervals_wireBits, toNat_pulse htau]
  cases w.getLsbD (16 - k)
  · exact decide_eq_false (by simp only [replyWidth, Bool.false_eq_true, if_false]; omega)
  · exact decide_eq_true (by simp only [replyWidth, if_true]; omega)

/-- Settles O32: encode's word is received as it was sent, and un-inverted it has the code, the payload and good parity. -/
theorem codecRoundTrip : Obligations.CodecRoundTrip := by
  intro c p tau latency t h1 htau _
  have hzero : popcount (coveredBits (wireWord c p)) < 14 := by
    have := popcount_coveredBits_le (majorityAgrees_wireWord c p)
    omega
  refine ⟨unInvert (wireWord c p), ?_, wordCode_unInvert_wireWord c p, wordPayload_unInvert_wireWord c p,
    failingGroup_unInvert_wireWord c p⟩
  rw [intervalsOf_timelineOf, decodedWord, if_neg (by simp), receivedWord_pulseIntervals h1 htau hzero]

end Sys2Proof.Machine

/-! PROOFS, 42_transport.md. What a poll comes to tick by tick, at rest, at a level change and through a whole reply; the
end of every exchange that polls (O36, O37, O39) and the values of a status (O38); words sent one after another (O34, O41,
O48); a byte read with its retry and a read byte by byte (O42 to O47); byte reversal (O49); buffers that are too short (O29). -/

namespace Sys2Proof.Machine

/-! ### A machine ready for a transport operation (R190) -/

section Ready
variable {s : State}

theorem State.Ready.inv (h : s.Ready) : s.Inv := by
  obtain ⟨⟨hinv, -⟩, -⟩ := h
  exact hinv

theorem State.Ready.tauSet (h : s.Ready) : s.drv.tauSet = true := by
  obtain ⟨⟨-, hset, -⟩, -⟩ := h
  exact hset

theorem State.Ready.undisturbed (h : s.Ready) : s.Undisturbed := by
  obtain ⟨⟨-, -, hs⟩, -⟩ := h
  exact hs

theorem State.Ready.going (h : s.Ready) : s.Going := ⟨⟨h.inv, h.tauSet⟩, h.undisturbed.1⟩

theorem State.Ready.bus (h : s.Ready) : s.drv.bus.ready = true := by
  obtain ⟨-, hbus⟩ := h
  exact hbus

theorem State.Ready.mem_wf (h : s.Ready) : s.mem.wf = true := by
  obtain ⟨-, -, -, hwf⟩ := (State.inv_iff s).1 h.inv
  exact hwf

theorem State.Ready.one_le_tau (h : s.Ready) : 1 ≤ s.drv.tau.toNat := by
  obtain ⟨⟨htau, -⟩, -⟩ := h.inv
  obtain ⟨h2, -⟩ := htau h.tauSet
  omega

/-- With no cycle in progress OUT is at its resting level (R18). -/
theorem State.Ready.out (h : s.Ready) : s.drv.out = Config.idleLevel := by
  obtain ⟨-, -, ⟨-, hout⟩, -⟩ := h.inv
  exact hout fun e => by simpa [e, BusState.ready] using h.bus

/-- An exchange that is done leaves the machine ready, its answer being STATE (R79, R190). -/
theorem State.Ready.of_exchange (h : s.Ready) {c : Code} {p : Byte} {m : Mode} {b : BusState} {t : State}
    (hex : s.exchange c p m = .done b t) (hb : b = t.drv.bus) : t.Ready := by
  obtain ⟨hends, -⟩ := State.exchange_ends h.going c p m
  rw [hex, hb] at hends
  obtain ⟨⟨⟨hinv, hset⟩, ht⟩, hrst, hbus⟩ := hends
  exact ⟨⟨hinv, hset, ht, hrst h.undisturbed.2⟩, hbus⟩

end Ready

/-! ### Buffers that are too short (R206, R287, log 13) -/

theorem withBuffer_of_short {s : State} {buf : BufRef} {n : Nat} (h : buf.size.toNat < n)
    (k : Host.Outcome State Fault Refusal) : s.withBuffer buf n k = .next s.undefined0 := by
  rw [State.withBuffer, bufHolds, if_neg (by simpa using h)]

theorem withBuffer_of_holds {s : State} {buf : BufRef} {n : Nat} (h : n ≤ buf.size.toNat)
    (k : Host.Outcome State Fault Refusal) : s.withBuffer buf n k = k := by
  rw [State.withBuffer, bufHolds, if_pos (decide_eq_true h)]

/-- Settles O29: each of the operations asks for its buffer before it does anything. -/
theorem shortBuffersDoNothing : Obligations.ShortBuffersDoNothing := by
  refine fun s addr n buf => ⟨fun hset hshort i hi => ?_, fun hshort => ?_, fun hn hshort => ?_⟩
  · have hexec : exec i s = .next s.undefined0 := by
      fin_cases hi <;> exact (needTau_of_tauSet hset _).trans (withBuffer_of_short hshort _)
    exact ⟨_, _, hexec, rfl⟩
  · rw [exec, execReverseByteOrder, bufHolds, if_neg (by simpa using hshort)]
  · rw [exec, execDecode, if_neg (by omega), bufHolds, if_neg (by simpa using hshort)]
    exact ⟨_, rfl, rfl⟩

/-! ### The values of a status (R195) -/

/-- A status and payload as R195 has them. -/
abbrev StatusValue (a : Byte × Byte) : Prop := a.1.toNat ≤ 0x0F ∨ a = (0xFE, 0) ∨ a = (0xFF, 0)

theorem packetAnswer_value (intervals : List Word) : StatusValue (packetAnswer intervals) := by
  unfold packetAnswer
  cases decodedWord intervals with
  | none => exact .inr (.inl rfl)
  | some l =>
    simp only
    split
    · exact .inr (.inl rfl)
    · have := (wordCode l).isLt
      exact .inl (by rw [BitVec.toNat_setWidth]; omega)

theorem State.packetEnd_value (b : BusState) (s : State) {Q : State → Prop} :
    (s.packetEnd b).Sat (fun a _ => StatusValue a) Q := by
  unfold State.packetEnd
  split
  · exact .inr (.inr rfl)
  · exact packetAnswer_value _

/-- What the answer port then holds (R91, R195). -/
abbrev PortStatus (a : Answer) : Prop :=
  (a.res0.toNat ≤ 0x0F ∧ a.res1.toNat ≤ 0xFF) ∨ (a.res0 = 0xFE ∧ a.res1 = 0) ∨ (a.res0 = 0xFF ∧ a.res1 = 0)

theorem portStatus_of_statusValue {a : Byte × Byte} (h : StatusValue a) :
    PortStatus ⟨a.1.setWidth 32, a.2.setWidth 32⟩ := by
  rcases h with h | rfl | rfl
  · have := a.2.isLt
    refine .inl ⟨?_, ?_⟩ <;> rw [BitVec.toNat_setWidth] <;> omega
  · exact .inr (.inl ⟨rfl, rfl⟩)
  · exact .inr (.inr ⟨rfl, rfl⟩)

/-- Settles O38: the poll's end answers one of these values; where rst cuts the poll off, the answer port is reset. -/
theorem statusValuesAreComplete : Obligations.StatusValuesAreComplete := by
  intro s t code payload he
  obtain ⟨-, he⟩ := needTau_next he
  have hrun : (s.sendPollPacket code payload).Sat (fun a _ => StatusValue a) fun t => t.ans = ⟨0, 0⟩ :=
    (State.exchange_sat (P := fun _ => True) trivial (fun _ _ => trivial) (fun _ _ _ _ => trivial)
      (fun _ _ _ => trivial) (fun _ _ => trivial) fun _ _ _ => rfl).andThen fun b u _ => u.packetEnd_value b
  rcases hrun.finish (R := fun u => PortStatus u.ans) (fun a _ => portStatus_of_statusValue) he with h | hcut
  · exact h
  · exact .inl (by rw [hcut]; decide)

/-! ### Byte reversal (R205) -/

@[simp] theorem State.length_bufBytes (buf : BufRef) (n : Nat) (s : State) : (s.bufBytes buf n).length = n := by
  simp [State.bufBytes]

/-- What storing a run of bytes does to the memory depends on the memory alone. -/
theorem State.bufStoreAll_mem_congr {s t : State} (h : s.mem = t.mem) (buf : BufRef) (i : Nat) (l : List Byte) :
    (s.bufStoreAll buf i l).mem = (t.bufStoreAll buf i l).mem := by
  induction l generalizing i s t with
  | nil => exact h
  | cons b rest ih => exact ih (by simp [h]) (i + 1)

/-- Bytes outside the reversed ones stay (R205). -/
theorem State.read_reverseBytes_other {s : State} {buf : BufRef} {n a : Nat} (h : ∀ j, j < n → a ≠ bufAddr buf j) :
    (s.reverseBytes buf n).mem.read a = s.mem.read a :=
  State.read_bufStoreAll_other fun k _ hk => h k (by simpa using hk)

/-- Byte `j` becomes the old byte n - 1 - j (R205). -/
theorem State.bufByte_reverseBytes {s : State} (hw : s.mem.wf = true) {buf : BufRef} {n j : Nat}
    (hn : n < 2 ^ 32) (hj : j < n) : (s.reverseBytes buf n).bufByte buf j = s.bufByte buf (n - 1 - j) := by
  have h := State.bufByte_bufStoreAll (buf := buf) (i := 0) (j := j) (l := (s.bufBytes buf n).reverse) hw
    (by simp; omega) (by simpa using hj)
  rw [Nat.zero_add] at h
  rw [State.reverseBytes, h, List.getElem_reverse]
  simp [State.bufBytes]

/-- Reversing twice gives the first memory back (R205). -/
theorem State.reverseBytes_reverseBytes {s : State} (hw : s.mem.wf = true) {buf : BufRef} {n : Nat}
    (hn : n < 2 ^ 32) : ((s.reverseBytes buf n).reverseBytes buf n).mem = s.mem := by
  have hw' : (s.reverseBytes buf n).mem.wf = true := State.bufStoreAll_wf hw _ _ _
  refine Memory.ext_of_read (State.bufStoreAll_wf hw' _ _ _) hw fun a => ?_
  by_cases ha : ∃ j < n, a = bufAddr buf j
  · obtain ⟨j, hj, rfl⟩ := ha
    change ((s.reverseBytes buf n).reverseBytes buf n).bufByte buf j = s.bufByte buf j
    rw [State.bufByte_reverseBytes hw' hn hj, State.bufByte_reverseBytes hw hn (by omega),
      show n - 1 - (n - 1 - j) = j by omega]
  · have hout : ∀ j, j < n → a ≠ bufAddr buf j := fun j hj e => ha ⟨j, hj, e⟩
    rw [State.read_reverseBytes_other hout, State.read_reverseBytes_other hout]

/-- Byte reversal changes the memory alone (R205). -/
theorem State.reverseBytes_frame (s : State) (buf : BufRef) (n : Nat) :
    s.reverseBytes buf n = { s with mem := (s.reverseBytes buf n).mem } := State.bufStoreAll_frame s buf 0 _

theorem exec_reverseByteOrder {n : Word} {buf : BufRef} (h : n.toNat ≤ buf.size.toNat) (s : State) :
    exec (.reverseByteOrder n buf) s = .next (s.reverseBytes buf n.toNat) := by
  rw [exec, execReverseByteOrder, bufHolds, if_pos (decide_eq_true h)]

/-- Settles O49: a byte of the buffer moves to its mirror place, and the mirror of a mirror place is the place. -/
theorem reverseByteOrderIsAnInvolution : Obligations.ReverseByteOrderIsAnInvolution := by
  intro s n buf hw hn
  have hframe := s.reverseBytes_frame buf n.toNat
  refine ⟨_, exec_reverseByteOrder hn s, hframe, fun j => State.bufByte_reverseBytes hw n.isLt,
    fun a => State.read_reverseBytes_other, ?_⟩
  rw [exec_reverseByteOrder hn, State.reverseBytes_frame, State.reverseBytes_reverseBytes hw n.isLt, hframe]

/-! ### A poll, tick by tick (R129, R130) -/

/-- A poll is in progress and ticks arrive. -/
structure State.Polls (u : State) : Prop where
  inv     : u.Inv
  running : u.env.ticksLeft = none
  polling : u.drv.bus.polling = true

section Polls
variable {u : State} {l : Level} {rest : List Level}

/-- A tick of a poll is an edge capture and a verdict on STATE (R129, R130). -/
theorem State.Polls.tick_eq (h : u.Polls) :
    u.tick = { u with
      drv := { u.drv.capture (u.env.now + 1) u.env.lineLevel with bus := u.tick.drv.bus }
      env := { u.env.sampled with now := u.env.now + 1 } } := by
  have ht := State.tick_polling h.running h.polling
  have hdrv := Driver.deadline_eq u.par (u.env.now + 1) (u.drv.capture (u.env.now + 1) u.env.lineLevel)
  have hbus : u.tick.drv.bus = (u.drv.tickPoll u.par (u.env.now + 1) u.env.lineLevel).bus := by rw [ht]
  rw [hbus, ht, Driver.tickPoll, hdrv]

theorem State.Polls.dir (h : u.Polls) : u.drv.dir = .input := by
  obtain ⟨-, ⟨-, hdir⟩, -⟩ := h.inv
  exact hdir h.polling

theorem State.Polls.pollInv (h : u.Polls) : u.drv.PollInv := by
  obtain ⟨-, -, -, -, hpoll, -⟩ := h.inv
  exact hpoll

/-- One more tick since the poll's start, as long as the budget is not exceeded (R130). -/
theorem State.elapsed_tick (hb : u.elapsed + 1 ≤ u.budget) :
    (u.env.now + 1 - u.drv.timeline[0]).toNat = u.elapsed + 1 := by
  have hlt : u.budget < 2 ^ 32 := (pollBudget u.par u.drv.mode u.drv.tau).isLt
  exact elapsed_succ (by rw [State.elapsed] at hb; omega)

/-- STATE after a tick of a poll (R129, R130). -/
theorem State.Polls.tick_bus (h : u.Polls) :
    u.tick.drv.bus =
      if u.env.lineLevel ≠ u.drv.last ∧ u.drv.nedge + 1 = u.drv.mode.cap then .idle
      else if u.budget ≤ (u.env.now + 1 - u.drv.timeline[0]).toNat then .timeout else u.drv.bus := by
  have hbus := Driver.tickPoll_bus h.pollInv h.polling u.par (u.env.now + 1) u.env.lineLevel
  rw [State.tick_polling h.running h.polling]
  simp only [hbus, Driver.capture_bus_eq_idle_iff h.dir h.polling]
  rfl

/-- The pin stays an input through the last tick of a poll (R17, R128). -/
theorem State.Polls.tick_dir (h : u.Polls) : u.tick.drv.dir = .input := by
  obtain ⟨-, -, -, -, -, hdir, -⟩ := Driver.capture_keeps (u.env.now + 1) u.env.lineLevel u.drv
  rw [h.tick_eq]
  exact hdir.trans h.dir

/-- A poll that ends in Idle has filled its timeline (R19, R129). -/
theorem State.Polls.tick_nedge_of_idle (h : u.Polls) (hi : u.tick.drv.bus = .idle) :
    u.tick.drv.nedge = u.drv.mode.cap := by
  have hne : u.drv.bus ≠ .idle := fun e => by simpa [e, BusState.polling] using h.polling
  rw [h.tick_bus] at hi
  split at hi
  · next hfull =>
    rw [h.tick_eq, Driver.capture_of_ne_last h.dir _ hfull.1]
    exact hfull.2
  · split at hi
    · cases hi
    · exact absurd hi hne

/-- The tick that spends the budget with the line at rest (R130). -/
theorem State.Polls.tick_spent (h : u.Polls) (hl : u.env.lineIn = u.drv.last :: rest) (hb : u.elapsed + 1 = u.budget) :
    u.tick = { u with
      drv := { u.drv with bus := .timeout }, env := { u.env with now := u.env.now + 1, lineIn := rest } } := by
  have hbus : u.tick.drv.bus = .timeout := by
    rw [h.tick_bus, Env.lineLevel_of_cons hl, if_neg (fun e => e.1 rfl), State.elapsed_tick hb.le, if_pos hb.ge]
  rw [h.tick_eq, hbus, Env.lineLevel_of_cons hl, Driver.capture_of_eq_last h.dir _ rfl, Env.sampled_of_cons hl]

/-- The state `n` ticks after another if the first of them has captured a level change and the line has then kept its
level (R129). -/
def State.edge (bus : BusState) (n : Nat) (rest : List Level) (u : State) : State :=
  { u with
    drv := { u.drv with
      timeline := u.drv.timeline.setIfInBounds u.drv.nedge.toNat (u.env.now + 1), nedge := u.drv.nedge + 1
      last := !u.drv.last, bus := bus }
    env := { u.env with now := u.env.now + BitVec.ofNat 32 n, lineIn := rest } }

theorem Bool.not_ne (b : Bool) : (!b) ≠ b := by cases b <;> decide

theorem State.Polls.tick_change (h : u.Polls) (hl : u.env.lineIn = (!u.drv.last) :: rest) :
    u.tick = u.edge u.tick.drv.bus 1 rest := by
  rw [h.tick_eq, Env.lineLevel_of_cons hl, Driver.capture_of_ne_last h.dir _ (Bool.not_ne _), Env.sampled_of_cons hl]
  rfl

/-- The level change that fills the timeline ends the poll in Idle, be the budget spent or not (R129, R290). -/
theorem State.Polls.tick_last_edge (h : u.Polls) (hl : u.env.lineIn = (!u.drv.last) :: rest)
    (hn : u.drv.nedge + 1 = u.drv.mode.cap) : u.tick = u.edge .idle 1 rest := by
  have hbus : u.tick.drv.bus = .idle := by rw [h.tick_bus, Env.lineLevel_of_cons hl, if_pos ⟨Bool.not_ne _, hn⟩]
  rw [h.tick_change hl, hbus]

/-- A level change before the budget is spent that does not fill the timeline (R129, R130). -/
theorem State.Polls.tick_edge (h : u.Polls) (hl : u.env.lineIn = (!u.drv.last) :: rest)
    (hn : u.drv.nedge + 1 ≠ u.drv.mode.cap) (hb : u.elapsed + 1 < u.budget) : u.tick = u.edge u.drv.bus 1 rest := by
  have hbus : u.tick.drv.bus = u.drv.bus := by
    rw [h.tick_bus, Env.lineLevel_of_cons hl, if_neg (fun e => hn e.2), State.elapsed_tick hb.le, if_neg (by omega)]
  rw [h.tick_change hl, hbus]

/-- Ticks at which the line is at its last level and the budget is not spent, all of them in the poll (R129). -/
theorem State.Polls.ticks_quiet (h : u.Polls) {n : Nat} (hl : u.env.lineIn = List.replicate n u.drv.last ++ rest)
    (hb : u.elapsed + n < u.budget) :
    State.ticks n u = { u with env := { u.env with now := u.env.now + BitVec.ofNat 32 n, lineIn := rest } } ∧
      (State.ticks n u).elapsed = u.elapsed + n ∧ ∀ j ≤ n, (State.ticks j u).Polls := by
  have hj (j : Nat) (hjn : j ≤ n) : State.ticks j u = { u with env := { u.env with
      now := u.env.now + BitVec.ofNat 32 j, lineIn := List.replicate (n - j) u.drv.last ++ rest } } :=
    State.ticks_quiet j h.inv h.running h.polling
      (by rw [hl, ← List.append_assoc, List.replicate_append_replicate, Nat.add_sub_cancel' hjn]) (by omega)
  have hn := hj n le_rfl
  rw [Nat.sub_self, List.replicate_zero, List.nil_append] at hn
  have hlt : u.budget < 2 ^ 32 := (pollBudget u.par u.drv.mode u.drv.tau).isLt
  refine ⟨hn, ?_, fun j hjn => ⟨State.ticks_inv j h.inv, by simp [h.running], by rw [hj j hjn]; exact h.polling⟩⟩
  have hel : u.env.now + BitVec.ofNat 32 n - u.drv.timeline[0] = (u.env.now - u.drv.timeline[0]) + BitVec.ofNat 32 n := by
    rw [BitVec.sub_eq_add_neg, BitVec.sub_eq_add_neg, BitVec.add_assoc, BitVec.add_assoc,
      BitVec.add_comm (BitVec.ofNat 32 n)]
  rw [hn]
  simp only [State.elapsed] at hb ⊢
  rw [hel, BitVec.toNat_add, BitVec.toNat_ofNat, Nat.mod_eq_of_lt (a := n) (by omega), Nat.mod_eq_of_lt (by omega)]

/-- A poll at rest for its whole budget ends in Timeout at the last of its ticks (R130). -/
theorem State.Polls.ticks_rest (h : u.Polls) (h0 : u.elapsed = 0)
    (hl : u.env.lineIn = List.replicate u.budget u.drv.last ++ rest) :
    State.ticks u.budget u = { u with
        drv := { u.drv with bus := .timeout }
        env := { u.env with now := u.env.now + BitVec.ofNat 32 u.budget, lineIn := rest } } ∧
      ∀ j < u.budget, (State.ticks j u).Polls := by
  obtain ⟨n, hn⟩ := Nat.exists_eq_add_of_le' u.budget_pos
  rw [hn, List.replicate_succ', List.append_assoc] at hl
  obtain ⟨hq, hel, hp⟩ := h.ticks_quiet hl (by omega)
  have hlast := (hp n le_rfl).tick_spent (rest := rest) (by rw [hq]; rfl) (by
    rw [hel, h0, Nat.zero_add, ← hn, hq]
    rfl)
  rw [hn]
  refine ⟨?_, fun j hj => hp j (by omega)⟩
  rw [State.ticks_add n u 1, State.ticks_succ, State.ticks_zero, hlast, hq, BitVec.ofNat_add]
  simp only [BitVec.add_assoc]
  rfl

end Polls

/-! ### A reply in the symbol code (R102, R163) -/

/-- The ticks of a run of pulses are their units (R136, R163). -/
theorem sum_replyWidth (unit : Nat) (bits : List Bool) :
    (bits.map (replyWidth unit)).sum = unit * (bits.length + 2 * bits.count true) := by
  induction bits with
  | nil => simp
  | cons b bits ih => cases b <;> simp [ih, replyWidth] <;> ring

theorem wireBits_eq_reverse (w : WireWord) : wireBits w = ((List.range 17).map fun i => w.getLsbD i).reverse := rfl

theorem count_wireBits (w : WireWord) : (wireBits w).count true = popcount w := by
  rw [wireBits_eq_reverse, List.count_reverse, List.count, List.countP_map, popcount]
  exact List.countP_congr fun i _ => by simp

/-- A reply takes its latency and its pulses (R102). -/
theorem replyTicks_eq (w : WireWord) (unit latency : Nat) :
    replyTicks w unit latency = latency + ((wireBits w).map (replyWidth unit)).sum := by
  rw [sum_replyWidth, count_wireBits]
  rfl

section Reply
variable {u : State} {rest : List Level}

theorem State.Polls.one_le_nedge (h : u.Polls) : 1 ≤ u.drv.nedge.toNat := by
  obtain ⟨-, hint, hpkt, -⟩ := h.pollInv
  rcases BusState.polling_iff.1 h.polling with hb | hb
  · rw [(hint hb).2]
    decide
  · obtain ⟨-, hone, -⟩ := hpkt hb
    exact hone

/-- The entry of a captured level change is the next one (R129). -/
theorem State.take_timeline_edge (hn : u.drv.nedge.toNat < 19) (bus : BusState) (n : Nat) (rest : List Level) :
    (u.edge bus n rest).drv.timeline.toList.take (u.drv.nedge.toNat + 1) =
      u.drv.timeline.toList.take u.drv.nedge.toNat ++ [u.env.now + 1] := by
  simp only [State.edge, Vector.toList_setIfInBounds]
  rw [List.take_succ_eq_append_getElem (by simpa using hn), List.getElem_set_self, List.take_set_of_le le_rfl]

/-- A level change leaves the poll's start in T[0] (R128, R129). -/
theorem State.Polls.elapsed_edge (h : u.Polls) (hb : u.elapsed + 1 ≤ u.budget) (bus : BusState) :
    (u.edge bus 1 rest).elapsed = u.elapsed + 1 := by
  have h1 := h.one_le_nedge
  rw [State.elapsed, State.edge]
  simp only [Vector.getElem_setIfInBounds_ne (show 0 < 19 by omega) (show u.drv.nedge.toNat ≠ 0 by omega)]
  exact State.elapsed_tick hb

/-- A pulse of a reply that leaves the poll going on (R102, R129). -/
theorem State.Polls.ticks_pulse (h : u.Polls) {n : Nat} (hpos : 1 ≤ n)
    (hl : u.env.lineIn = List.replicate n (!u.drv.last) ++ rest) (hcap : u.drv.nedge + 1 ≠ u.drv.mode.cap)
    (hb : u.elapsed + n < u.budget) :
    State.ticks n u = u.edge u.drv.bus n rest ∧ (State.ticks n u).elapsed = u.elapsed + n ∧
      ∀ j ≤ n, (State.ticks j u).Polls := by
  obtain ⟨k, rfl⟩ := Nat.exists_eq_add_of_le' hpos
  have hedge : u.tick = u.edge u.drv.bus 1 (List.replicate k (!u.drv.last) ++ rest) := h.tick_edge hl hcap (by omega)
  have hp : u.tick.Polls := ⟨State.tick_inv h.inv, by simp [h.running], by rw [hedge]; exact h.polling⟩
  have hel : u.tick.elapsed = u.elapsed + 1 := by
    rw [hedge]
    exact h.elapsed_edge (by omega) _
  have hbud : u.tick.budget = u.budget := by rw [hedge]; rfl
  obtain ⟨hq, helq, hpq⟩ := hp.ticks_quiet (n := k) (rest := rest) (by rw [hedge]; rfl) (by omega)
  refine ⟨?_, ?_, fun j hj => ?_⟩
  · rw [State.ticks_succ, hq, hedge, Nat.add_comm k]
    simp only [State.edge, BitVec.ofNat_add, BitVec.add_assoc]
  · rw [State.ticks_succ, helq, hel, Nat.add_assoc, Nat.add_comm 1]
  · cases j with
    | zero => exact h
    | succ j => exact hpq j (by omega)

/-- The pulses of a reply and the change that ends them, from the first tick of the first pulse on: the poll lasts until
the last of them, which fills the timeline (R102, R129, R163). -/
theorem State.Polls.ticks_pulses {unit : Nat} (hunit : 1 ≤ unit) (bits : List Bool) {u : State} (h : u.Polls)
    (hm : u.drv.mode = .pollPacket) (hl : u.env.lineIn = pulseLevels unit (!u.drv.last) bits ++ rest)
    (hn : u.drv.nedge.toNat + bits.length = 18) {n : Nat} (hsum : n = (bits.map (replyWidth unit)).sum + 1)
    (hb : u.elapsed + n ≤ u.budget) :
    (∃ (v : Vector Word 19) (last : Level),
      State.ticks n u = { u with
        drv := { u.drv with timeline := v, nedge := 19, last := last, bus := .idle }
        env := { u.env with now := u.env.now + BitVec.ofNat 32 n, lineIn := rest } } ∧
      v.toList = u.drv.timeline.toList.take u.drv.nedge.toNat ++
        (u.env.now + 1) :: edgeTimes unit (u.env.now + 1) bits) ∧
    ∀ j < n, (State.ticks j u).Polls := by
  induction bits generalizing u n with
  | nil =>
    have hn18 : u.drv.nedge = 18 := BitVec.eq_of_toNat_eq hn
    have h19 : u.drv.nedge + 1 = 19 := by rw [hn18]; rfl
    have hlast : u.tick = u.edge .idle 1 rest := h.tick_last_edge hl (by rw [hm, h19]; rfl)
    have hv := State.take_timeline_edge (by omega : u.drv.nedge.toNat < 19) .idle 1 rest
    rw [List.take_of_length_le (by simp [hn18])] at hv
    subst hsum
    refine ⟨⟨_, !u.drv.last, ?_, hv⟩, fun j hj => ?_⟩
    · rw [← h19]
      exact hlast
    · obtain rfl : j = 0 := by simpa using hj
      exact h
  | cons b bits ih =>
    simp only [List.length_cons, List.map_cons, List.sum_cons] at hn hsum
    generalize hw : replyWidth unit b = w at hsum
    obtain ⟨m, hm'⟩ : ∃ m, m = (bits.map (replyWidth unit)).sum + 1 := ⟨_, rfl⟩
    obtain rfl : n = w + m := by omega
    have hadd : (u.drv.nedge + 1).toNat = u.drv.nedge.toNat + 1 := by simp [BitVec.toNat_add]; omega
    have hcap : u.drv.nedge + 1 ≠ u.drv.mode.cap := fun e => by
      rw [e, hm] at hadd
      change 19 = _ at hadd
      omega
    obtain ⟨hq, hel, hp⟩ := h.ticks_pulse (n := w) (rest := pulseLevels unit u.drv.last bits ++ rest)
      (hw ▸ replyWidth_pos hunit b) (by rw [hl, pulseLevels, hw, Bool.not_not, List.append_assoc]) hcap (by omega)
    have hpq := hp w le_rfl
    rw [hq] at hel hpq
    obtain ⟨⟨v, last, hend, hv⟩, hpolls⟩ := ih hpq hm (by simp [State.edge])
      (by change (u.drv.nedge + 1).toNat + _ = 18; omega) hm' (by rw [hel]; change _ ≤ u.budget; omega)
    refine ⟨⟨v, last, ?_, ?_⟩, fun j hj => ?_⟩
    · rw [State.ticks_add, hq, hend, BitVec.ofNat_add, ← BitVec.add_assoc]
      rfl
    · have hnow : u.env.now + BitVec.ofNat 32 w + 1 = u.env.now + 1 + BitVec.ofNat 32 w := by
        rw [BitVec.add_assoc, BitVec.add_comm _ 1, ← BitVec.add_assoc]
      have hnedge : (u.edge u.drv.bus w (pulseLevels unit u.drv.last bits ++ rest)).drv.nedge.toNat =
          u.drv.nedge.toNat + 1 := hadd
      rw [hv, hnedge, State.take_timeline_edge (by omega), edgeTimes, hw, ← hnow, List.append_assoc]
      rfl
    · rcases Nat.lt_or_ge j w with hjw | hjw
      · exact hp j hjw.le
      · obtain ⟨i, rfl⟩ := Nat.exists_eq_add_of_le hjw
        rw [State.ticks_add, hq]
        exact hpolls i (by omega)

/-- A poll that began with this reply on the line ends in Idle at the reply's last change, its timeline the reply's
(R102, R129, R163). -/
theorem State.Polls.ticks_reply (h : u.Polls) (hm : u.drv.mode = .pollPacket) (hn : u.drv.nedge = 1)
    (hlast : u.drv.last = Config.idleLevel) (hnow : u.env.now = u.drv.timeline[0]) {w : WireWord} {unit latency : Nat}
    (hunit : 1 ≤ unit) (hlat : 1 ≤ latency) (hb : replyTicks w unit latency ≤ u.budget)
    (hl : u.env.lineIn = replyLevels w unit latency ++ rest) :
    (∃ (v : Vector Word 19) (last : Level),
      State.ticks (replyTicks w unit latency) u = { u with
        drv := { u.drv with timeline := v, nedge := 19, last := last, bus := .idle }
        env := { u.env with now := u.env.now + BitVec.ofNat 32 (replyTicks w unit latency), lineIn := rest } } ∧
      v.toList = timelineOf w unit u.drv.timeline[0] latency) ∧
    ∀ j < replyTicks w unit latency, (State.ticks j u).Polls := by
  obtain ⟨k, rfl⟩ := Nat.exists_eq_add_of_le' hlat
  rw [replyTicks_eq] at hb ⊢
  generalize hsum : ((wireBits w).map (replyWidth unit)).sum = m at hb ⊢
  rw [replyLevels, Nat.add_sub_cancel, ← hlast, List.append_assoc] at hl
  have hel : u.elapsed = 0 := by rw [State.elapsed, hnow, BitVec.sub_self]; rfl
  obtain ⟨hq, helq, hp⟩ := h.ticks_quiet hl (by omega)
  have hpq := hp k le_rfl
  have hbud : (State.ticks k u).budget = u.budget := by rw [hq]; rfl
  have hsplit : k + 1 + m = k + (m + 1) := by omega
  obtain ⟨⟨v, last, hend, hv⟩, hpolls⟩ := hpq.ticks_pulses hunit (wireBits w) (rest := rest) (by rw [hq]; exact hm)
    (by rw [hq]) (by rw [hq]; change u.drv.nedge.toNat + 17 = 18; rw [hn]; rfl) (n := m + 1) (by rw [hsum]) (by omega)
  rw [hsplit]
  refine ⟨⟨v, last, ?_, ?_⟩, fun j hj => ?_⟩
  · rw [State.ticks_add, hend, hq, BitVec.ofNat_add k, ← BitVec.add_assoc]
  · have hstart : u.drv.timeline.toList.take 1 = [u.drv.timeline[0]] := by
      rw [List.take_one, List.head?_eq_getElem?, List.getElem?_eq_getElem (by simp)]
      rfl
    rw [hv, hq]
    simp only [hn]
    rw [show (1 : BitVec 5).toNat = 1 from rfl, hstart, hnow, BitVec.add_assoc]
    rw [timelineOf, BitVec.ofNat_add]
    rfl
  · rcases Nat.lt_or_ge j k with hjk | hjk
    · exact hp j hjk.le
    · obtain ⟨i, rfl⟩ := Nat.exists_eq_add_of_le hjk
      rw [State.ticks_add]
      exact hpolls i (by omega)

end Reply

/-! ### An exchange that polls (R190, R193, R194) -/

/-- The poll state of a mode (R128). -/
def Mode.pollState : Mode → BusState
  | .sendOnly => .idle
  | .pollInterrupt => .pollInterrupt
  | .pollPacket => .pollPacket

theorem Mode.pollState_polling {m : Mode} (hm : m ≠ .sendOnly) : m.pollState.polling = true := by
  cases m with
  | sendOnly => exact absurd rfl hm
  | pollInterrupt => rfl
  | pollPacket => rfl

/-- The tick at which the word of an exchange has been sent (R77, R137). -/
def State.sentAt (c : Code) (p : Byte) (s : State) : Word :=
  s.env.now + BitVec.ofNat 32 (s.env.lag.take 1).sum + BitVec.ofNat 32 (1 + sendTicks s.drv.tau (wireWord c p))

/-- The state at that tick: the foreground has paused, armed the driver, and waits (R190). -/
def State.wordOut (c : Code) (p : Byte) (m : Mode) (s : State) : State :=
  State.ticks (1 + sendTicks s.drv.tau (wireWord c p)) (s.pause.beginTransfer ((wireWord c p).setWidth 32) m)

section Exchange
variable {s : State} {m : Mode}

/-- The ticks of an exchange's word, the cycle in progress in all of them but the last (R122, R137). -/
theorem State.wordOut_wordSent (h : s.Ready) (c : Code) (p : Byte) (m : Mode) :
    s.wordOut c p m = { s with
        drv := ({ s.drv with dir := .output, txsr := (wireWord c p).setWidth 32, mode := m, bus := .begin } : Driver).wordSent
          (s.sentAt c p)
        env := { s.env with
          now := s.sentAt c p, lag := s.env.lag.tail, sent := (wireWord c p, m) :: s.env.sent } } ∧
      ∀ j < 1 + sendTicks s.drv.tau (wireWord c p),
        (State.ticks j (s.pause.beginTransfer ((wireWord c p).setWidth 32) m)).drv.bus.ready = false := by
  have hs := h.undisturbed
  have harm : s.pause.beginTransfer ((wireWord c p).setWidth 32) m = { s with
      drv := { s.drv with dir := .output, txsr := (wireWord c p).setWidth 32, mode := m, bus := .begin }
      env := { s.env with
        now := s.env.now + BitVec.ofNat 32 (s.env.lag.take 1).sum, lag := s.env.lag.tail
        sent := (wireWord c p, m) :: s.env.sent } } := by
    rw [State.pause_ready hs.1 h.bus, State.beginTransfer_ready (by exact h.bus), armed_word]
  obtain ⟨hw, hj⟩ := State.ticks_word (s := s.pause.beginTransfer ((wireWord c p).setWidth 32) m)
    (by rw [harm]; exact hs.1) (by rw [harm]) (by rw [harm]; exact h.one_le_tau)
  have hticks : 1 + sendTicks (s.pause.beginTransfer ((wireWord c p).setWidth 32) m).drv.tau
      ((s.pause.beginTransfer ((wireWord c p).setWidth 32) m).drv.txsr.setWidth 17) =
      1 + sendTicks s.drv.tau (wireWord c p) := by rw [harm]; simp only [armed_word]
  rw [hticks] at hw hj
  refine ⟨?_, fun j hjn => by rcases hj j hjn with e | e <;> rw [e] <;> rfl⟩
  rw [State.wordOut, hw, harm]
  rfl

/-- Where a poll begins: DIR is input, the timeline holds its first entry, LAST is the resting level (R128). -/
theorem State.wordOut_eq (h : s.Ready) (c : Code) (p : Byte) (hm : m ≠ .sendOnly) :
    s.wordOut c p m = { s with
      drv := { s.drv with
        bus := m.pollState, mode := m, txsr := (wireWord c p).setWidth 32, dir := .input, bitix := 0, due := s.sentAt c p
        timeline := s.drv.timeline.set 0 (s.sentAt c p), nedge := 1, last := Config.idleLevel }
      env := { s.env with
        now := s.sentAt c p, lag := s.env.lag.tail, sent := (wireWord c p, m) :: s.env.sent } } := by
  rw [(State.wordOut_wordSent h c p m).1, ← h.out]
  cases m with
  | sendOnly => exact absurd rfl hm
  | pollInterrupt => rfl
  | pollPacket => rfl

theorem State.wordOut_polls (h : s.Ready) (c : Code) (p : Byte) (hm : m ≠ .sendOnly) : (s.wordOut c p m).Polls where
  inv := State.ticks_inv _ (State.beginTransfer_inv (State.pause_inv h.inv) (by simp [State.pause_eq_ticks, h.tauSet]) _ _)
  running := by rw [State.wordOut_eq h c p hm]; exact h.undisturbed.1
  polling := by rw [State.wordOut_eq h c p hm]; exact Mode.pollState_polling hm

theorem State.wordOut_elapsed (h : s.Ready) (c : Code) (p : Byte) (hm : m ≠ .sendOnly) :
    (s.wordOut c p m).elapsed = 0 := by
  rw [State.wordOut_eq h c p hm]
  simp [State.elapsed]

theorem State.wordOut_budget (h : s.Ready) (c : Code) (p : Byte) (hm : m ≠ .sendOnly) :
    (s.wordOut c p m).budget = (pollBudget s.par m s.drv.tau).toNat := by
  rw [State.wordOut_eq h c p hm]
  rfl

/-- An exchange that polls is over when its poll is: it answers how the poll has ended, and leaves the state that the poll
has left but for the second pause and the guard delay (R190). -/
theorem State.exchange_poll (h : s.Ready) (c : Code) (p : Byte) (hm : m ≠ .sendOnly) {k : Nat} {u : State}
    (hu : State.ticks k (s.wordOut c p m) = u) (hr : u.drv.bus.ready = true)
    (hj : ∀ j < k, (State.ticks j (s.wordOut c p m)).Polls) (hk : k < 2 ^ 32) :
    ∃ now, s.exchange c p m =
      .done u.drv.bus { u with env := { u.env with now := now, lag := s.env.lag.drop 2 } } := by
  have hs := h.undisturbed
  have hbusy := (State.wordOut_wordSent h c p m).2
  have hund : u.Undisturbed := by
    rw [← hu, State.wordOut_eq h c p hm]
    exact ⟨by simp [hs.1], by simpa using hs.2⟩
  have hlag : u.env.lag = s.env.lag.tail := by rw [← hu, State.ticks_lag, State.wordOut_eq h c p hm]
  have hwait : (s.pause.beginTransfer ((wireWord c p).setWidth 32) m).awaitReady = .done () u := by
    have hlt := sendTicks_lt s.drv.tau (wireWord c p)
    have hend : State.ticks (1 + sendTicks s.drv.tau (wireWord c p) + k)
        (s.pause.beginTransfer ((wireWord c p).setWidth 32) m) = u := by
      rw [State.ticks_add]
      exact hu
    rw [← hend]
    refine State.spin_of_first ⟨by simp [State.pause_eq_ticks, hs.1], by simp [State.pause_eq_ticks, hs.2]⟩ (lt_spinFuel (by omega)) (by rw [hend]; exact hr)
      fun j hjk => ?_
    rcases Nat.lt_or_ge j (1 + sendTicks s.drv.tau (wireWord c p)) with hjn | hjn
    · exact hbusy j hjn
    · obtain ⟨i, rfl⟩ := Nat.exists_eq_add_of_le hjn
      rw [State.ticks_add]
      exact BusState.not_ready_of_polling (hj i (by omega)).polling
  have htail : s.env.lag.tail.tail = s.env.lag.drop 2 := by
    rw [← List.drop_one, ← List.drop_one, List.drop_drop]
  rw [State.exchange, State.moment_calm (by simpa [State.pause_eq_ticks] using hs.2), hwait, Run.andThen_done,
    State.pause_ready hund.1 hr, State.guard_eq_ticks (by exact hund), State.ticks_ready _ (by exact hund.1) (by exact hr), hlag,
    htail]
  exact ⟨_, rfl⟩

end Exchange

/-- The end of an exchange that polls, whatever the line shows: it answers STATE, which a timeline of the mode's length
(Idle) or the deadline (Timeout) has ended, DIR is input, and the machine is ready for the next exchange (R129, R190). -/
structure PollEnd (c : Code) (p : Byte) (m : Mode) (s t : State) : Prop where
  run   : s.exchange c p m = .done t.drv.bus t
  ready : t.Ready
  word  : WordSent (wireWord c p) m s t
  frame : ExchangeFrame s t
  ans   : t.ans = s.ans
  dir   : t.drv.dir = .input
  full  : t.drv.bus = .idle → t.drv.nedge = m.cap

section PollEnds
variable {s : State} {c : Code} {p : Byte} {m : Mode} {rest : List Level}

/-- What the last tick of a poll has left (R17, R19). -/
theorem State.Polls.ticks_over {b u : State} {k : Nat} (hu : State.ticks k b = u) (hb : b.Polls)
    (hr : u.drv.bus.ready = true) (hj : ∀ j < k, (State.ticks j b).Polls) :
    u.drv.dir = .input ∧ (u.drv.bus = .idle → u.drv.nedge = b.drv.mode.cap) := by
  cases k with
  | zero =>
    rw [← hu, State.ticks_zero, BusState.not_ready_of_polling hb.polling] at hr
    cases hr
  | succ k =>
    have hlast := hj k (by omega)
    rw [State.ticks_add k b 1, State.ticks_succ, State.ticks_zero] at hu
    rw [← hu, ← State.ticks_mode k b]
    exact ⟨hlast.tick_dir, hlast.tick_nedge_of_idle⟩

/-- The end of an exchange whose poll is known to end in `u` after `k` ticks. -/
theorem State.exchange_pollEnd (h : s.Ready) (hm : m ≠ .sendOnly) {k : Nat} {u : State}
    (hu : State.ticks k (s.wordOut c p m) = u) (hr : u.drv.bus.ready = true)
    (hj : ∀ j < k, (State.ticks j (s.wordOut c p m)).Polls) (hk : k < 2 ^ 32) :
    ∃ t, PollEnd c p m s t ∧ t.drv = u.drv ∧ t.env.lineIn = u.env.lineIn := by
  have hbegun := State.wordOut_eq h c p hm
  have hpolls := State.wordOut_polls h c p hm
  obtain ⟨hdir, hfull⟩ := State.Polls.ticks_over hu hpolls hr hj
  have hout : u.drv.out = s.drv.out := by
    obtain ⟨-, -, ⟨-, hrest⟩, -⟩ : u.Inv := hu ▸ State.ticks_inv k hpolls.inv
    rw [h.out]
    exact hrest fun e => by simp [e, BusState.ready] at hr
  obtain ⟨now, hex⟩ := State.exchange_poll h c p hm hu hr hj hk
  refine ⟨_, ⟨hex, h.of_exchange hex rfl, ?_, ?_, ?_, hdir, ?_⟩, rfl, rfl⟩
  · simp [WordSent, ← hu, hbegun]
  · simp only [ExchangeFrame, hout]
    simp [← hu, hbegun, h.undisturbed.1]
  · simp [← hu, hbegun]
  · rwa [hbegun] at hfull

/-- Every exchange that polls ends (R79, R190). -/
theorem State.exchange_pollEnds (h : s.Ready) (c : Code) (p : Byte) (hm : m ≠ .sendOnly) : ∃ t, PollEnd c p m s t := by
  have hpolls := State.wordOut_polls h c p hm
  have hlt : (s.wordOut c p m).budget < 2 ^ 32 := (pollBudget _ _ _).isLt
  obtain ⟨k, hk, hr, hj⟩ := State.poll_ends (s.wordOut c p m).budget hpolls.inv hpolls.running hpolls.polling
    (by rw [State.wordOut_elapsed h c p hm, Nat.zero_add]) (State.budget_pos _)
  obtain ⟨t, ht, -⟩ := State.exchange_pollEnd h hm rfl hr (fun j hjk => ⟨State.ticks_inv j hpolls.inv,
    by simp [hpolls.running], by rw [hj j hjk]; exact hpolls.polling⟩) (by omega)
  exact ⟨t, ht⟩

/-- A line at rest for the whole budget ends the exchange in Timeout (R130, R193, R194). -/
theorem State.exchange_rest (h : s.Ready) (c : Code) (p : Byte) (hm : m ≠ .sendOnly)
    (hl : s.env.lineIn = restLevels (pollBudget s.par m s.drv.tau).toNat ++ rest) :
    ∃ t, PollEnd c p m s t ∧ t.drv.bus = .timeout ∧ t.env.lineIn = rest := by
  have hbegun := State.wordOut_eq h c p hm
  have hlt : (s.wordOut c p m).budget < 2 ^ 32 := (pollBudget _ _ _).isLt
  obtain ⟨hticks, hj⟩ := (State.wordOut_polls h c p hm).ticks_rest (State.wordOut_elapsed h c p hm) (rest := rest)
    (by rw [State.wordOut_budget h c p hm, hbegun]; exact hl)
  obtain ⟨t, ht, hdrv, hline⟩ := State.exchange_pollEnd h hm hticks rfl hj hlt
  exact ⟨t, ht, by rw [hdrv], hline⟩

/-- A level change within the budget ends a probe in Idle (R65, R193). -/
theorem State.exchange_edge (h : s.Ready) (c : Code) (p : Byte) {latency : Nat} (h1 : 1 ≤ latency)
    (hb : latency ≤ intTicks s) (hl : s.env.lineIn = edgeLevels latency ++ rest) :
    ∃ t, PollEnd c p .pollInterrupt s t ∧ t.drv.bus = .idle ∧ t.env.lineIn = rest := by
  have hm : Mode.pollInterrupt ≠ .sendOnly := by decide
  have hbegun := State.wordOut_eq h c p hm
  have hlt : intTicks s < 2 ^ 32 := (pollBudget _ _ _).isLt
  have hbud : (s.wordOut c p .pollInterrupt).budget = intTicks s := State.wordOut_budget h c p hm
  obtain ⟨k, rfl⟩ := Nat.exists_eq_add_of_le' h1
  obtain ⟨hq, -, hp⟩ := (State.wordOut_polls h c p hm).ticks_quiet (n := k) (rest := (!Config.idleLevel) :: rest)
    (by rw [hbegun]; simpa [edgeLevels, restLevels] using hl)
    (by rw [State.wordOut_elapsed h c p hm, hbud]; omega)
  have hedge := (hp k le_rfl).tick_last_edge (rest := rest) (by rw [hq, hbegun]) (by rw [hq, hbegun]; rfl)
  have hticks : State.ticks (k + 1) (s.wordOut c p .pollInterrupt) = _ := (State.ticks_add k _ 1).trans hedge
  obtain ⟨t, ht, hdrv, hline⟩ := State.exchange_pollEnd h hm hticks rfl (fun j hj => hp j (by omega)) (by omega)
  exact ⟨t, ht, by rw [hdrv]; rfl, hline⟩

/-- A reply within the budget ends a packet poll in Idle with the reply's timeline (R102, R163, R194). -/
theorem State.exchange_reply (h : s.Ready) (c : Code) (p : Byte) {w : WireWord} {unit latency : Nat} (h1 : 1 ≤ unit)
    (hlat : 1 ≤ latency) (hb : replyTicks w unit latency ≤ pktTicks s)
    (hl : s.env.lineIn = replyLevels w unit latency ++ rest) :
    ∃ t, PollEnd c p .pollPacket s t ∧ t.drv.bus = .idle ∧ t.env.lineIn = rest ∧
      t.drv.timeline.toList = timelineOf w unit t.drv.timeline[0] latency := by
  have hm : Mode.pollPacket ≠ .sendOnly := by decide
  have hbegun := State.wordOut_eq h c p hm
  have hlt : pktTicks s < 2 ^ 32 := (pollBudget _ _ _).isLt
  obtain ⟨⟨v, last, hticks, hv⟩, hj⟩ := (State.wordOut_polls h c p hm).ticks_reply (by rw [hbegun]) (by rw [hbegun])
    (by rw [hbegun]) (by rw [hbegun]; simp) h1 hlat (by rw [State.wordOut_budget h c p hm]; exact hb)
    (by rw [hbegun]; exact hl)
  obtain ⟨t, ht, hdrv, hline⟩ := State.exchange_pollEnd h hm hticks rfl hj (by omega)
  refine ⟨t, ht, by rw [hdrv], hline, ?_⟩
  have h0 : v[0] = (s.wordOut c p .pollPacket).drv.timeline[0] := by
    have := congrArg (·[0]?) hv
    simpa [timelineOf] using this
  rw [hdrv]
  simp only [h0]
  exact hv

/-! ### Probes (R193) -/

/-- A line with the whole budget's levels scripted rests for the budget or changes level within it. -/
theorem line_rests_or_changes (n : Nat) {line : List Level} (h : n ≤ line.length) :
    (∃ rest, line = restLevels n ++ rest) ∨ ∃ latency rest, 1 ≤ latency ∧ latency ≤ n ∧ line = edgeLevels latency ++ rest := by
  induction n generalizing line with
  | zero => exact .inl ⟨line, rfl⟩
  | succ n ih =>
    obtain ⟨l, line, rfl⟩ : ∃ l rest, line = l :: rest := List.exists_cons_of_length_pos (by omega)
    by_cases hl : l = Config.idleLevel
    · subst hl
      rcases ih (line := line) (by simpa using h) with ⟨rest, rfl⟩ | ⟨latency, rest, h1, hn, rfl⟩
      · exact .inl ⟨rest, rfl⟩
      · obtain ⟨k, rfl⟩ := Nat.exists_eq_add_of_le' h1
        exact .inr ⟨k + 2, rest, by omega, by omega, rfl⟩
    · refine .inr ⟨1, line, le_rfl, by omega, ?_⟩
      cases l with
      | false => rfl
      | true => exact absurd rfl hl

/-- send_poll_interrupt and the probe words, with no cycle in progress and nothing to disturb them (R99, R193). -/
theorem probeWord_ready (h : s.Ready) (c : Code) (p : Byte) : ∃ t, probeWord c p s = .next t ∧ ProbeSent c p s t := by
  have hm : Mode.pollInterrupt ≠ .sendOnly := by decide
  obtain ⟨t, ht⟩ := State.exchange_pollEnds h c p hm
  have hexec : probeWord c p s = .next (answerBool (decide (t.drv.bus = .idle)) t) := by
    rw [probeWord, needTau_of_tauSet h.tauSet, State.sendPollInterrupt, ht.run]
    rfl
  refine ⟨_, hexec, ht.word, ht.frame, ht.dir, by rw [← ht.ans]; rfl, BusState.ready_iff.1 ht.ready.bus, fun hlen => ?_⟩
  change t.drv.bus = .idle ↔ _
  rcases line_rests_or_changes _ hlen with ⟨rest, hl⟩ | ⟨latency, rest, h1, hn, hl⟩
  · obtain ⟨t', ht', hbus, -⟩ := State.exchange_rest h c p hm hl
    obtain ⟨-, rfl⟩ : t'.drv.bus = t.drv.bus ∧ t' = t := by simpa [ht'.run] using ht.run
    refine iff_of_false (by simp [hbus]) ?_
    rw [hl, List.take_left' (by simp [restLevels])]
    rintro ⟨l, hmem, hne⟩
    exact hne (List.eq_of_mem_replicate hmem)
  · obtain ⟨t', ht', hbus, -⟩ := State.exchange_edge h c p h1 hn hl
    obtain ⟨-, rfl⟩ : t'.drv.bus = t.drv.bus ∧ t' = t := by simpa [ht'.run] using ht.run
    refine iff_of_true hbus ⟨!Config.idleLevel, ?_, by decide⟩
    rw [hl, List.take_append, List.take_of_length_le (by simp [edgeLevels, restLevels]; omega)]
    simp [edgeLevels]

end PollEnds

/-- Settles O36: the three instructions are one probe, whose poll ends at the first level change or with its budget. -/
theorem probesAnswerLevelChanges : Obligations.ProbesAnswerLevelChanges := fun _ h =>
  ⟨probeWord_ready h, probeWord_ready h 0x8 0x86, probeWord_ready h 0x8 0x87⟩

/-! ### The timeline read by the foreground (R24, R164) -/

theorem intervalsOf_eq_map (l : List Word) :
    intervalsOf l = (List.range (l.length - 1)).map fun k => l.getD (k + 1) 0 - l.getD k 0 := by
  induction l with
  | nil => rfl
  | cons a l ih =>
    cases l with
    | nil => rfl
    | cons b l =>
      rw [intervalsOf, ih]
      simp [List.range_succ_eq_map]

/-- The foreground reads a full timeline as the driver has written it (R24). -/
theorem State.intervalsBetween_stamp {u : State} (h : u.drv.nedge = 19) :
    intervalsBetween u.stamp = intervalsBetween fun k => u.drv.timeline.getD k 0 := by
  have hstamp (k : Nat) (hk : k < 19) : u.stamp k = u.drv.timeline.getD k 0 := by
    rw [State.stamp, h]
    exact if_pos hk
  refine List.map_congr_left fun k hk => ?_
  rw [hstamp k (by simp at hk; omega), hstamp (k + 1) (by simp at hk; omega)]

theorem intervalsBetween_getD (v : Vector Word 19) : (intervalsBetween fun k => v.getD k 0) = intervalsOf v.toList := by
  have hget (k : Nat) : v.toList.getD k 0 = v.getD k 0 := by
    simp [List.getD_eq_getElem?_getD, Vector.getD]
  rw [intervalsOf_eq_map, Vector.length_toList]
  refine List.map_congr_left fun k hk => ?_
  simp only [hget]

theorem State.stampsRead_of_full {u : State} (h : u.drv.nedge = 19) : u.stampsRead = u := by
  rw [State.stampsRead, h]
  rfl

/-! ### The answer to a word (R165, R194, R195) -/

/-- What a packet poll answers for an un-inverted word (R195). -/
def wordAnswer (l : WireWord) : Byte × Byte :=
  if failingGroup l = none then ((wordCode l).setWidth 8, wordPayload l) else (Config.statusDecodeFail, 0)

theorem packetAnswer_eq {intervals : List Word} (h : 18 ≤ intervals.length) :
    decodedWord intervals = some (unInvert (receivedWord intervals)) ∧
      packetAnswer intervals = wordAnswer (unInvert (receivedWord intervals)) := by
  have hd : decodedWord intervals = some (unInvert (receivedWord intervals)) := if_neg (by omega)
  refine ⟨hd, ?_⟩
  rw [packetAnswer, hd, wordAnswer]
  cases hg : failingGroup (unInvert (receivedWord intervals)) <;> simp [hg, Config.checkFraming]

/-- Bit 16 - k of what a reply is received as (R165, R166). -/
theorem getLsbD_receivedWord_pulseIntervals {unit : Nat} (hunit : 3 * unit < 2 ^ 32) (w : WireWord) (latency : Word)
    {k : Nat} (hk : k < 17) :
    (receivedWord (latency :: pulseIntervals unit (wireBits w))).getLsbD (16 - k) =
      decide (threshold (pulseIntervals unit ((wireBits w).take 16)) < replyWidth unit (w.getLsbD (16 - k))) := by
  rw [getLsbD_receivedWord hk (by simp), List.drop_one, List.tail_cons, take_pulseIntervals, List.getElem_cons_succ,
    getElem_pulseIntervals_wireBits, toNat_pulse hunit]

/-- A word with a short pulse before its last is received as it was sent (R165, R166). -/
theorem receivedWord_of_short_pulse {unit : Nat} (h1 : 1 ≤ unit) (hunit : 3 * unit < 2 ^ 32) {w : WireWord}
    (hshort : false ∈ (wireBits w).take 16) (latency : Word) :
    receivedWord (latency :: pulseIntervals unit (wireBits w)) = w := by
  obtain ⟨hlo, hhi⟩ := threshold_pulseIntervals hunit hshort
  refine BitVec.eq_of_getLsbD_eq fun i hi => ?_
  obtain ⟨k, hk, rfl⟩ : ∃ k < 17, i = 16 - k := ⟨16 - i, by omega, by omega⟩
  rw [getLsbD_receivedWord_pulseIntervals hunit w latency hk]
  cases w.getLsbD (16 - k) <;> simp [replyWidth] <;> omega

/-- A word of long pulses, but for its last, is received as all zeros: no pulse is longer than the threshold (R166). -/
theorem receivedWord_of_long_pulses {unit : Nat} (hunit : 3 * unit < 2 ^ 32) {w : WireWord}
    (hlong : false ∉ (wireBits w).take 16) (latency : Word) :
    receivedWord (latency :: pulseIntervals unit (wireBits w)) = 0 := by
  have hne : pulseIntervals unit ((wireBits w).take 16) ≠ [] := by simp [pulseIntervals, wireBits]
  obtain ⟨lo, hlo, hi, hhi, -, hth⟩ := threshold_eq hne
  have hwidth {i : Word} (hmem : i ∈ pulseIntervals unit ((wireBits w).take 16)) : i.toNat = 3 * unit := by
    obtain ⟨b, hb, rfl⟩ := List.mem_map.1 hmem
    cases b with
    | false => exact absurd hb hlong
    | true => exact toNat_pulse hunit true
  rw [hwidth hlo, hwidth hhi] at hth
  refine BitVec.eq_of_getLsbD_eq fun i hi => ?_
  obtain ⟨k, hk, rfl⟩ : ∃ k < 17, i = 16 - k := ⟨16 - i, by omega, by omega⟩
  have hle := replyWidth_le unit (w.getLsbD (16 - k))
  rw [getLsbD_receivedWord_pulseIntervals hunit w latency hk, hth, decide_eq_false (by omega)]
  simp

/-- The answer to a reply of encode's words is its code and payload (R170, R195). -/
theorem packetAnswer_wireWord {unit : Nat} (h1 : 1 ≤ unit) (hunit : 3 * unit < 2 ^ 32) (c : Code) (b : Byte)
    (latency : Word) :
    packetAnswer (latency :: pulseIntervals unit (wireBits (wireWord c b))) = (c.setWidth 8, b) := by
  have hzero : popcount (coveredBits (wireWord c b)) < 14 := by
    have := popcount_coveredBits_le (majorityAgrees_wireWord c b)
    omega
  rw [(packetAnswer_eq (by simp)).2, receivedWord_pulseIntervals h1 hunit hzero, wordAnswer,
    if_pos (failingGroup_unInvert_wireWord c b), wordCode_unInvert_wireWord, wordPayload_unInvert_wireWord]

/-- BCF and nBCF stay when the inversion is undone (R95). -/
theorem mem_take_wireBits_of_ne {w : WireWord} (h : w.getLsbD 16 ≠ w.getLsbD 15) : false ∈ (wireBits w).take 16 := by
  change false ∈ (List.range 16).map fun k => w.getLsbD (16 - k)
  cases h16 : w.getLsbD 16 with
  | false => exact List.mem_map.2 ⟨0, by simp, h16⟩
  | true =>
    refine List.mem_map.2 ⟨1, by simp, ?_⟩
    rw [h16] at h
    simpa using h.symm

theorem endOfTransmission_code (c : Code) : endOfTransmission (c.setWidth 8) = c.getLsbD 0 := by
  revert c
  decide

/-- The answer to a word ends a byte read as answered iff the word passes the parity check and has the flag (R101, R201). -/
theorem endOfTransmission_wordAnswer {l : WireWord} (h : failingGroup l ≠ none ∨ l.getLsbD 13 = false) :
    endOfTransmission (wordAnswer l).1 = false ∧ (wordAnswer l).1 ≠ Config.statusTimeout := by
  unfold wordAnswer
  split
  · next hgood =>
    have hflag : (wordCode l).getLsbD 0 = false := by simpa [wordCode] using h.resolve_left (not_not_intro hgood)
    refine ⟨by rw [endOfTransmission_code, hflag], fun e => ?_⟩
    have hlt := (wordCode l).isLt
    have := congrArg BitVec.toNat e
    rw [BitVec.toNat_setWidth, Config.statusTimeout, BitVec.toNat_ofNat] at this
    omega
  · decide

/-- The answer to a reply of any word that fails the parity check or lacks the flag is not retried and stores nothing
(R195, R201, R285). -/
theorem packetAnswer_unflagged {w : WireWord} (h : failingGroup (unInvert w) ≠ none ∨ (unInvert w).getLsbD 13 = false)
    {unit : Nat} (h1 : 1 ≤ unit) (hunit : 3 * unit < 2 ^ 32) (latency : Word) :
    endOfTransmission (packetAnswer (latency :: pulseIntervals unit (wireBits w))).1 = false ∧
      (packetAnswer (latency :: pulseIntervals unit (wireBits w))).1 ≠ Config.statusTimeout ∧
      (failingGroup (unInvert w) ≠ none → w.getLsbD 16 ≠ w.getLsbD 15 →
        packetAnswer (latency :: pulseIntervals unit (wireBits w)) = (0xFE, 0)) := by
  rw [(packetAnswer_eq (by simp)).2]
  by_cases hshort : false ∈ (wireBits w).take 16
  · rw [receivedWord_of_short_pulse h1 hunit hshort]
    obtain ⟨heot, hne⟩ := endOfTransmission_wordAnswer h
    exact ⟨heot, hne, fun hbad _ => if_neg hbad⟩
  · rw [receivedWord_of_long_pulses hunit hshort]
    exact ⟨by decide, by decide, fun _ hframe => absurd (mem_take_wireBits_of_ne hframe) hshort⟩

/-! ### Packet polls (R194, R195) -/

/-- What send_poll_packet answers when its poll has left `u` (R194, R195). -/
def State.pollAnswer (u : State) : Byte × Byte :=
  if u.drv.bus = .timeout then (Config.statusTimeout, 0) else packetAnswer (intervalsOf u.drv.timeline.toList)

/-- The end of a send_poll_packet, whatever the line shows (R194). -/
structure PacketEnd (c : Code) (p : Byte) (s t : State) : Prop where
  run   : s.sendPollPacket c p = .done (t.scr.status, t.scr.payload) t
  ready : t.Ready
  sent  : PacketSent c p s (answerPacket (t.scr.status, t.scr.payload) t)
  ans   : t.ans = s.ans

section Packets
variable {s u t : State} {c : Code} {p : Byte} {rest : List Level}

theorem PollEnd.packetEnd (hu : PollEnd c p .pollPacket s u) :
    u.packetEnd u.drv.bus = .done u.pollAnswer (u.setStatus u.pollAnswer.1 u.pollAnswer.2) := by
  rcases BusState.ready_iff.1 hu.ready.bus with hb | hb
  · have hn : u.drv.nedge = 19 := hu.full hb
    have ha : u.pollAnswer = packetAnswer (intervalsBetween u.stamp) := by
      rw [State.pollAnswer, hb, State.intervalsBetween_stamp hn, intervalsBetween_getD, if_neg (by decide)]
    rw [State.packetEnd, hb, if_neg (by decide), State.stampsRead_of_full hn, ha]
  · have ha : u.pollAnswer = (Config.statusTimeout, 0) := if_pos hb
    rw [State.packetEnd, if_pos hb, ha]

/-- From the end of the poll to the end of the operation (R27, R194). -/
theorem PollEnd.toPacketEnd (hu : PollEnd c p .pollPacket s u) :
    PacketEnd c p s (u.setStatus u.pollAnswer.1 u.pollAnswer.2) := by
  have hrun : s.sendPollPacket c p = .done u.pollAnswer (u.setStatus u.pollAnswer.1 u.pollAnswer.2) := by
    rw [State.sendPollPacket, hu.run, Run.andThen_done, hu.packetEnd]
  obtain ⟨huid, hmap, hpar, hmem, hscr, htau, hset, hout, hleft, hrst, hin⟩ := hu.frame
  have hready : (u.setStatus u.pollAnswer.1 u.pollAnswer.2).Ready := hu.ready
  refine ⟨hrun, hready, ⟨hu.word, huid, hmap, hpar, hmem, htau, hset, hout, hleft, hrst, hin, hu.dir, ?_, rfl, ?_⟩, hu.ans⟩
  · rw [← hscr]
    rfl
  · rcases BusState.ready_iff.1 hu.ready.bus with hb | hb
    · obtain ⟨hdec, hans⟩ := packetAnswer_eq (intervals := intervalsOf u.drv.timeline.toList)
        (by rw [intervalsOf_eq_map]; simp)
      have ha : u.pollAnswer = wordAnswer (unInvert (receivedWord (intervalsOf u.drv.timeline.toList))) := by
        rw [State.pollAnswer, if_neg (by simp [hb]), hans]
      refine .inr ⟨hb, hu.full hb, _, (congrArg decodedWord (intervalsBetween_getD _)).trans hdec, ?_⟩
      rw [ha]
      unfold wordAnswer
      split
      · next hgood => exact .inr ⟨hgood, rfl, rfl⟩
      · next hbad => exact .inl ⟨hbad, rfl, rfl⟩
    · rw [State.pollAnswer, if_pos hb]
      exact .inl ⟨hb, rfl, rfl⟩

theorem State.sendPollPacket_ready (h : s.Ready) (c : Code) (p : Byte) : ∃ t, PacketEnd c p s t := by
  obtain ⟨u, hu⟩ := State.exchange_pollEnds h c p (m := .pollPacket) (by decide)
  exact ⟨_, hu.toPacketEnd⟩

/-- A packet poll that nobody answers (R130, R194). -/
theorem State.sendPollPacket_rest (h : s.Ready) (c : Code) (p : Byte)
    (hl : s.env.lineIn = restLevels (pktTicks s) ++ rest) :
    ∃ t, PacketEnd c p s t ∧ t.scr.status = Config.statusTimeout ∧ t.drv.bus = .timeout ∧ t.env.lineIn = rest := by
  obtain ⟨u, hu, hbus, hline⟩ := State.exchange_rest h c p (m := .pollPacket) (by decide) hl
  have ha : u.pollAnswer = (Config.statusTimeout, 0) := if_pos hbus
  exact ⟨_, hu.toPacketEnd, by rw [ha]; rfl, hbus, hline⟩

theorem unit_lt_of_replyTicks {w : WireWord} {unit latency : Nat} (h : replyTicks w unit latency ≤ pktTicks s) :
    3 * unit < 2 ^ 32 := by
  have hlt : pktTicks s < 2 ^ 32 := (pollBudget _ _ _).isLt
  have hmul : unit * 17 ≤ unit * (17 + 2 * popcount w) := Nat.mul_le_mul_left _ (by omega)
  unfold replyTicks at h
  omega

/-- A packet poll answered within its budget by any word in the symbol code (R102, R129, R194). -/
theorem State.sendPollPacket_reply (h : s.Ready) (c : Code) (p : Byte) {w : WireWord} {unit latency : Nat} (h1 : 1 ≤ unit)
    (hlat : 1 ≤ latency) (hb : replyTicks w unit latency ≤ pktTicks s)
    (hl : s.env.lineIn = replyLevels w unit latency ++ rest) :
    ∃ t, PacketEnd c p s t ∧ t.drv.bus = .idle ∧ t.env.lineIn = rest ∧
      (t.scr.status, t.scr.payload) = packetAnswer (BitVec.ofNat 32 latency :: pulseIntervals unit (wireBits w)) ∧
      t.drv.timeline.toList = timelineOf w unit t.drv.timeline[0] latency := by
  obtain ⟨u, hu, hbus, hline, htime⟩ := State.exchange_reply h c p h1 hlat hb hl
  have ha : u.pollAnswer = packetAnswer (BitVec.ofNat 32 latency :: pulseIntervals unit (wireBits w)) := by
    rw [State.pollAnswer, if_neg (by simp [hbus]), htime, intervalsOf_timelineOf]
  exact ⟨_, hu.toPacketEnd, hbus, hline, ha, htime⟩

/-- The instruction's next state is the run's end with the answer on the port (R91, R194). -/
theorem PacketEnd.exec (h : s.Ready) (ht : PacketEnd c p s t) :
    execSendPollPacket c p s = .next (answerPacket (t.scr.status, t.scr.payload) t) := by
  rw [execSendPollPacket, needTau_of_tauSet h.tauSet, ht.run]
  rfl

theorem execSendPollPacket_ready (h : s.Ready) (c : Code) (p : Byte) :
    ∃ t, execSendPollPacket c p s = .next t ∧ PacketSent c p s t := by
  obtain ⟨t, ht⟩ := State.sendPollPacket_ready h c p
  exact ⟨_, ht.exec h, ht.sent⟩

end Packets

/-- Settles O37: both instructions are one packet poll, which ends with its timeline full or with its budget. -/
theorem packetPollsAnswerTheReply : Obligations.PacketPollsAnswerTheReply := fun _ h =>
  ⟨execSendPollPacket_ready h, execSendPollPacket_ready h 0x7⟩

/-- Settles O39: the timeline is the reply's, and its intervals decode to the code and payload the reply was made of. -/
theorem repliesAreReceived : Obligations.RepliesAreReceived := by
  intro s code c payload b unit latency rest h h1 hlat hb hl
  obtain ⟨t, ht, hbus, hline, ha, htime⟩ := State.sendPollPacket_reply h code payload h1 hlat hb hl
  rw [packetAnswer_wireWord h1 (unit_lt_of_replyTicks hb)] at ha
  refine ⟨_, ht.exec h, ?_, hbus, hline, htime⟩
  rw [ha]
  simp [answerPacket]

/-! ### Words sent one after another (R191, R198) -/

/-- Only words in SendOnly have been sent since `s`, these, newest first, and ADDR and IDX written: what R191 and R198 say is
left (R27). -/
def SentOnly (words : List (WireWord × Mode)) (s t : State) : Prop :=
  ∃ (txsr due now : Word) (bitix : BitVec 5) (lag : List Nat) (addr : Addr) (idx : BitVec 16), t = { s with
    drv := { s.drv with
      bus := .idle, dir := .output, mode := .sendOnly, txsr := txsr, bitix := bitix, due := due }
    scr := { s.scr with addr := addr, idx := idx }
    env := { s.env with now := now, lag := lag, sent := words ++ s.env.sent } }

theorem SentOnly.trans {ws vs : List (WireWord × Mode)} {s t u : State} (h : SentOnly ws s t) (h' : SentOnly vs t u) :
    SentOnly (vs ++ ws) s u := by
  obtain ⟨_, _, _, _, _, _, _, rfl⟩ := h
  obtain ⟨_, _, _, _, _, _, _, rfl⟩ := h'
  rw [SentOnly, List.append_assoc]
  exact ⟨_, _, _, _, _, _, _, rfl⟩

theorem SentOnly.of_byteInHand {ws : List (WireWord × Mode)} {s t : State} {a : Addr} {i : Nat}
    (h : SentOnly ws (s.byteInHand a i) t) : SentOnly ws s t := by
  obtain ⟨_, _, _, _, _, _, _, rfl⟩ := h
  exact ⟨_, _, _, _, _, _, _, rfl⟩

/-- send_only with no cycle in progress and nothing to disturb it (R191). -/
theorem State.sendOnly_ready {s : State} (h : s.Ready) (c : Code) (p : Byte) :
    ∃ t, s.sendOnly c p = .done true t ∧ t.Ready ∧ SentOnly [(wireWord c p, .sendOnly)] s t := by
  obtain ⟨due, hex⟩ := State.exchange_sendOnly c p h.undisturbed h.bus h.one_le_tau
  exact ⟨_, by rw [State.sendOnly, hex]; rfl, h.of_exchange hex rfl, _, _, _, _, _, _, _, rfl⟩

/-- Settles O34: the instruction is that exchange with its answer (`sendWord_ready`). -/
theorem sendOnlySendsTheWord : Obligations.SendOnlySendsTheWord := fun _ c p h => sendWord_ready h c p

/-- The data words of a write: one WD for each byte (R198). -/
theorem State.writeBytes_ready (addr : Addr) (buf : BufRef) (n : Nat) {i : Nat} {r s : State}
    {ws : List (WireWord × Mode)} (h : s.Ready) (hs : SentOnly ws r s) :
    ∃ t, s.writeBytes addr buf i n = .done (i + n) t ∧
      SentOnly ((((List.range' i n).map (r.bufByte buf ·)).map fun b => (wireWord 0x4 b, Mode.sendOnly)).reverse ++ ws) r t := by
  induction n generalizing i s ws with
  | zero => exact ⟨s, rfl, hs⟩
  | succ n ih =>
    have hmem : s.mem = r.mem := by
      obtain ⟨_, _, _, _, _, _, _, rfl⟩ := hs
      rfl
    obtain ⟨u, hrun, hu, hsent⟩ := State.sendOnly_ready (s := s.byteInHand (addrPlus addr i) i) h Config.codeWD
      (s.bufByte buf i)
    obtain ⟨t, ht, htsent⟩ := ih (i := i + 1) hu (hs.trans hsent.of_byteInHand)
    refine ⟨t, ?_, ?_⟩
    · rw [State.writeBytes, hrun, Run.andThen_done, if_pos rfl, ht, Nat.add_right_comm, Nat.add_assoc]
    · have hbyte : s.bufByte buf i = r.bufByte buf i := by rw [State.bufByte, hmem]; rfl
      rw [hbyte] at htsent
      simpa [List.range'_succ, Config.codeWD] using htsent

/-- write_addr_space with no cycle in progress and nothing to disturb it (R198). -/
theorem State.writeSpace_ready {s : State} (h : s.Ready) (addr : Addr) (n : Nat) (buf : BufRef) :
    ∃ t, s.writeSpace addr n buf = .done n t ∧ SentOnly (writeWords addr (s.bufBytes buf n)) s t := by
  obtain ⟨u, hu, hur, husent⟩ := State.sendOnly_ready h Config.codeERA (addrHigh addr)
  obtain ⟨v, hv, hvr, hvsent⟩ := State.sendOnly_ready hur Config.codeWRA (addrLow addr)
  obtain ⟨t, ht, htsent⟩ := State.writeBytes_ready addr buf n (i := 0) hvr (husent.trans hvsent)
  refine ⟨t, ?_, ?_⟩
  · rw [State.writeSpace, hu, Run.andThen_done, if_pos rfl, hv, Run.andThen_done, if_pos rfl, ht, Nat.zero_add]
  · rw [← List.range_eq_range'] at htsent
    exact htsent

theorem exec_writeAddrSpace {s : State} (h : s.drv.tauSet = true) (addr : Addr) {n : Word} {buf : BufRef}
    (hn : n.toNat ≤ buf.size.toNat) :
    exec (.writeAddrSpace addr n buf) s = finish answerCount (s.writeSpace addr n.toNat buf) :=
  (needTau_of_tauSet h _).trans (withBuffer_of_holds hn _)

/-- Settles O41: a write is words sent one after another. -/
theorem writeAddrSpaceSendsTheBytes : Obligations.WriteAddrSpaceSendsTheBytes := by
  intro s addr n buf h hn
  obtain ⟨t, hrun, hsent⟩ := State.writeSpace_ready h addr n.toNat buf
  have hexec := exec_writeAddrSpace h.tauSet addr hn
  rw [hrun] at hexec
  obtain ⟨hleft, hrst⟩ := h.undisturbed
  obtain ⟨_, _, _, _, _, _, _, rfl⟩ := hsent
  refine ⟨_, hexec, ?_, rfl, rfl, rfl, rfl, rfl, rfl, rfl, rfl, rfl, rfl, hleft, hrst, rfl⟩
  simp [answerCount]

/-! ### Named registers (R206, R208) -/

theorem toNat_ofNat_len {buf : BufRef} {n : Nat} (h : n ≤ buf.size.toNat) : (BitVec.ofNat 32 n).toNat = n := by
  have := buf.size.isLt
  exact Nat.mod_eq_of_lt (by omega)

/-- write_registers of a row of the table that the buffer holds (R208). -/
theorem exec_writeRegisters {s : State} {id : Word} {buf : BufRef} {e : RegEntry}
    (he : s.regmap[id.toNat]? = some e) (hlen : e.len ≤ buf.size.toNat) :
    exec (.writeRegisters id buf) s = exec (.writeAddrSpace e.addr (BitVec.ofNat 32 e.len) buf) s := by
  rw [exec, exec, execWriteRegisters, execWriteAddrSpace, State.namedRegister, he, toNat_ofNat_len hlen]

/-- read_registers of a row of the table that the buffer holds (R206). -/
theorem exec_readRegisters {s : State} {id : Word} {buf : BufRef} {e : RegEntry}
    (he : s.regmap[id.toNat]? = some e) (hlen : e.len ≤ buf.size.toNat) :
    exec (.readRegisters id buf) s = exec (.readAddrSpace e.addr (BitVec.ofNat 32 e.len) buf) s := by
  rw [exec, exec, execReadRegisters, execReadAddrSpace, State.namedRegister, he, toNat_ofNat_len hlen]

/-- A row the table does not have, or a buffer too short for it (D26, log 13). -/
theorem exec_registers_undefined {s : State} {id : Word} {buf : BufRef} (h : s.drv.tauSet = true)
    (hrow : ∀ e : RegEntry, s.regmap[id.toNat]? = some e → buf.size.toNat < e.len) :
    exec (.readRegisters id buf) s = .next s.undefined0 ∧ exec (.writeRegisters id buf) s = .next s.undefined0 := by
  rw [exec, exec, execReadRegisters, execWriteRegisters, needTau_of_tauSet h, needTau_of_tauSet h, State.namedRegister]
  cases he : s.regmap[id.toNat]? with
  | none => exact ⟨rfl, rfl⟩
  | some e => exact ⟨withBuffer_of_short (hrow e he) _, withBuffer_of_short (hrow e he) _⟩

/-- Settles O48: with a row and a buffer that holds it the instruction is the write of that row (O41). -/
theorem writeRegistersGoesThroughTheMap : Obligations.WriteRegistersGoesThroughTheMap := by
  refine fun s id buf h => ⟨fun e he hlen => ?_, fun hrow => ?_⟩
  · have hn := toNat_ofNat_len hlen
    obtain ⟨t, hexec, hans, hsent, -, -, hmem, -⟩ :=
      writeAddrSpaceSendsTheBytes s e.addr (BitVec.ofNat 32 e.len) buf h (by rw [hn]; exact hlen)
    rw [hn] at hsent
    exact ⟨t, (exec_writeRegisters he hlen).trans hexec, hexec, by rw [hans], hmem, hsent⟩
  · exact ⟨_, _, (exec_registers_undefined h.tauSet hrow).2, rfl⟩

/-! ### What a read leaves alone (R72, R281) -/

/-- A read goes on from `t`: the machine is ready, and of what a read does not write all is as in `s`. -/
structure ReadFrame (s t : State) : Prop where
  ready   : t.Ready
  ans     : t.ans = s.ans
  uid     : t.uid = s.uid
  regmap  : t.regmap = s.regmap
  par     : t.par = s.par
  tau     : t.drv.tau = s.drv.tau
  out     : t.drv.out = s.drv.out
  offset  : t.scr.offset = s.scr.offset
  attempt : t.scr.attempt = s.scr.attempt
  inbox   : t.env.inbox = s.env.inbox

section ReadFrame
variable {s t u : State}

theorem ReadFrame.refl (h : s.Ready) : ReadFrame s s := ⟨h, rfl, rfl, rfl, rfl, rfl, rfl, rfl, rfl, rfl⟩

theorem ReadFrame.trans (h : ReadFrame s t) (h' : ReadFrame t u) : ReadFrame s u where
  ready := h'.ready
  ans := h'.ans.trans h.ans
  uid := h'.uid.trans h.uid
  regmap := h'.regmap.trans h.regmap
  par := h'.par.trans h.par
  tau := h'.tau.trans h.tau
  out := h'.out.trans h.out
  offset := h'.offset.trans h.offset
  attempt := h'.attempt.trans h.attempt
  inbox := h'.inbox.trans h.inbox

theorem ReadFrame.pktTicks (h : ReadFrame s t) : pktTicks t = pktTicks s := by
  simp only [Machine.pktTicks, h.par, h.tau]

theorem SentOnly.readFrame {ws : List (WireWord × Mode)} (h : SentOnly ws s t) (ht : t.Ready) : ReadFrame s t := by
  obtain ⟨_, _, _, _, _, _, _, rfl⟩ := h
  exact ⟨ht, rfl, rfl, rfl, rfl, rfl, rfl, rfl, rfl, rfl⟩

theorem PacketEnd.readFrame {c : Code} {p : Byte} (h : PacketEnd c p s t) : ReadFrame s t := by
  obtain ⟨-, huid, hmap, hpar, -, htau, -, hout, -, -, hin, -, hscr, -⟩ := h.sent
  exact ⟨h.ready, h.ans, huid, hmap, hpar, htau, hout, (congrArg Scratch.offset hscr :), (congrArg Scratch.attempt hscr :), hin⟩

theorem ReadFrame.byteInHand (h : s.Ready) (a : Addr) (i : Nat) : ReadFrame s (s.byteInHand a i) :=
  ⟨h, rfl, rfl, rfl, rfl, rfl, rfl, rfl, rfl, rfl⟩

theorem ReadFrame.setRetry (h : s.Ready) {n : Nat} (hn : n ≤ Config.readRetries) : ReadFrame s (s.setRetry n) := by
  have ⟨hinv, hset⟩ := (Quiet.setRetry hn).armed s h.going.1
  exact ⟨⟨⟨hinv, hset, h.undisturbed⟩, h.bus⟩, rfl, rfl, rfl, rfl, rfl, rfl, rfl, rfl, rfl⟩

theorem ReadFrame.bufStore (h : s.Ready) (buf : BufRef) (i : Nat) (b : Byte) : ReadFrame s (s.bufStore buf i b) :=
  ⟨⟨⟨State.bufStore_inv h.inv buf i b, h.tauSet, h.undisturbed⟩, h.bus⟩, rfl, rfl, rfl, rfl, rfl, rfl, rfl, rfl, rfl⟩

end ReadFrame

/-! ### One asking for a byte (R201) -/

/-- The end of one asking for byte `i` of a read. -/
structure Asked (addr : Addr) (i : Nat) (s t : State) : Prop where
  run   : s.readAttempt (addrPlus addr i) = .done (t.scr.status, t.scr.payload) t
  frame : ReadFrame s t
  mem   : t.mem = s.mem
  retry : t.scr.retry = s.scr.retry
  sent  : t.env.sent = askWords addr i ++ s.env.sent

section Asked
variable {s t u : State} {addr : Addr} {i : Nat} {rest : List Level}

/-- An asking is ERA, which leaves the line script and the budget as they were, and RRA with its reply. -/
theorem State.ask (h : s.Ready) (addr : Addr) (i : Nat) :
    ∃ u, u.Ready ∧ pktTicks u = pktTicks s ∧ u.env.lineIn = s.env.lineIn ∧
      ∀ t, PacketEnd Config.codeRRA (addrLow (addrPlus addr i)) u t → Asked addr i s t := by
  obtain ⟨u, hu, hur, husent⟩ := State.sendOnly_ready h Config.codeERA (addrHigh (addrPlus addr i))
  have hframe := husent.readFrame hur
  refine ⟨u, hur, hframe.pktTicks, ?_, fun t ht => ⟨?_, hframe.trans ht.readFrame, ?_, ?_, ?_⟩⟩
  · obtain ⟨_, _, _, _, _, _, _, rfl⟩ := husent
    rfl
  · rw [State.readAttempt, hu, Run.andThen_done, ht.run]
  all_goals
    obtain ⟨⟨-, -, hsent, -⟩, -, -, -, hmem, -, -, -, -, -, -, -, hscr, -⟩ := ht.sent
    obtain ⟨_, _, _, _, _, _, _, rfl⟩ := husent
  · exact hmem
  · exact (congrArg Scratch.retry hscr :)
  · exact hsent

theorem State.readAttempt_ready (h : s.Ready) (addr : Addr) (i : Nat) : ∃ t, Asked addr i s t := by
  obtain ⟨u, hur, -, -, hask⟩ := State.ask h addr i
  obtain ⟨t, ht⟩ := State.sendPollPacket_ready hur Config.codeRRA (addrLow (addrPlus addr i))
  exact ⟨t, hask t ht⟩

/-- An asking that nobody answers (R195, R201). -/
theorem State.readAttempt_rest (h : s.Ready) (addr : Addr) (i : Nat)
    (hl : s.env.lineIn = restLevels (pktTicks s) ++ rest) :
    ∃ t, Asked addr i s t ∧ t.scr.status = Config.statusTimeout ∧ t.drv.bus = .timeout ∧ t.env.lineIn = rest := by
  obtain ⟨u, hur, hbud, hline, hask⟩ := State.ask h addr i
  obtain ⟨t, ht, hend⟩ := State.sendPollPacket_rest hur Config.codeRRA (addrLow (addrPlus addr i)) (rest := rest)
    (by rw [hline, hbud]; exact hl)
  exact ⟨t, hask t ht, hend⟩

/-- An asking that is answered by a word in the symbol code (R102, R201). -/
theorem State.readAttempt_reply (h : s.Ready) (addr : Addr) (i : Nat) {w : WireWord} {unit latency : Nat} (h1 : 1 ≤ unit)
    (hlat : 1 ≤ latency) (hb : replyTicks w unit latency ≤ pktTicks s)
    (hl : s.env.lineIn = replyLevels w unit latency ++ rest) :
    ∃ t, Asked addr i s t ∧ t.drv.bus = .idle ∧ t.env.lineIn = rest ∧
      (t.scr.status, t.scr.payload) = packetAnswer (BitVec.ofNat 32 latency :: pulseIntervals unit (wireBits w)) := by
  obtain ⟨u, hur, hbud, hline, hask⟩ := State.ask h addr i
  obtain ⟨t, ht, hbus, hrest, ha, -⟩ := State.sendPollPacket_reply hur Config.codeRRA (addrLow (addrPlus addr i)) h1 hlat
    (by rw [hbud]; exact hb) (by rw [hline]; exact hl)
  exact ⟨t, hask t ht, hbus, hrest, ha⟩

/-! ### A byte read with its retry (R201) -/

/-- What a byte read makes of the answer it does not retry (R101, R201). -/
def byteAnswer (a : Byte × Byte) : Option Byte := if endOfTransmission a.1 then some a.2 else none

/-- The last asking's answer stands, a timeout's too. -/
theorem State.readByteFrom_zero {x : Addr} {a : Byte × Byte} (h : s.readAttempt x = .done a t) :
    s.readByteFrom x 0 = .done (byteAnswer a) t := by
  rw [State.readByteFrom, h, Run.andThen_done, byteAnswer]
  by_cases ha : a.1 = Config.statusTimeout
  · rw [if_pos ha, ha]
    rfl
  · rw [if_neg ha]
    cases endOfTransmission a.1 <;> rfl

/-- An answer other than a timeout is not retried. -/
theorem State.readByteFrom_succ_of_ne {x : Addr} {a : Byte × Byte} (h : s.readAttempt x = .done a t)
    (ha : a.1 ≠ Config.statusTimeout) (k : Nat) : s.readByteFrom x (k + 1) = .done (byteAnswer a) t := by
  rw [State.readByteFrom, h, Run.andThen_done, if_neg ha, byteAnswer]
  cases endOfTransmission a.1 <;> rfl

/-- A timeout is retried, while retries are left. -/
theorem State.readByteFrom_succ_of_timeout {x : Addr} {a : Byte × Byte} (h : s.readAttempt x = .done a t)
    (ha : a.1 = Config.statusTimeout) (k : Nat) :
    s.readByteFrom x (k + 1) = (t.setRetry (Config.readRetries - k)).readByteFrom x k := by
  rw [State.readByteFrom, h, Run.andThen_done, if_pos ha]

/-- The end of the read of byte `i`, asked for once or, if it is late, twice: its answer is the last asking's. -/
structure ByteRead (addr : Addr) (i : Nat) (late : Bool) (s t : State) : Prop where
  run   : (s.byteInHand (addrPlus addr i) i).readByte (addrPlus addr i) =
    .done (byteAnswer (t.scr.status, t.scr.payload)) t
  frame : ReadFrame s t
  mem   : t.mem = s.mem
  retry : t.scr.retry = if late then 1 else 0
  sent  : t.env.sent = byteWords addr i late ++ s.env.sent

/-- A byte read begins with its address in hand and no retry made (R27). -/
def State.byteBegun (addr : Addr) (i : Nat) (s : State) : State := (s.byteInHand (addrPlus addr i) i).setRetry 0

theorem ReadFrame.byteBegun (h : s.Ready) (addr : Addr) (i : Nat) : ReadFrame s (s.byteBegun addr i) :=
  (ReadFrame.byteInHand h _ i).trans (ReadFrame.setRetry (s := s.byteInHand _ i) h (Nat.zero_le _))

/-- A byte whose first asking is answered. -/
theorem Asked.byteRead (h : s.Ready) (ht : Asked addr i (s.byteBegun addr i) t) (ha : t.scr.status ≠ Config.statusTimeout) :
    ByteRead addr i false s t :=
  ⟨State.readByteFrom_succ_of_ne ht.run ha 0, (ReadFrame.byteBegun h addr i).trans ht.frame, ht.mem, ht.retry, ht.sent⟩

/-- The state in which a byte is asked for again: RETRY is 1 (R27, R201). -/
theorem ReadFrame.retried (h : s.Ready) (ht : Asked addr i (s.byteBegun addr i) t) : ReadFrame s (t.setRetry 1) :=
  ((ReadFrame.byteBegun h addr i).trans ht.frame).trans (ReadFrame.setRetry ht.frame.ready le_rfl)

/-- A byte whose first asking times out; its second asking's answer stands. -/
theorem Asked.byteRead_retried (h : s.Ready) (ht : Asked addr i (s.byteBegun addr i) t)
    (ha : t.scr.status = Config.statusTimeout) (hu : Asked addr i (t.setRetry 1) u) : ByteRead addr i true s u where
  run := (State.readByteFrom_succ_of_timeout ht.run ha 0).trans (State.readByteFrom_zero hu.run)
  frame := (ReadFrame.retried h ht).trans hu.frame
  mem := hu.mem.trans ht.mem
  retry := hu.retry
  sent := by
    rw [hu.sent, State.setRetry_env, ht.sent]
    exact (List.append_assoc _ _ _).symm

/-- A byte read ends, whatever the line shows (R79, R201). -/
theorem State.readByte_ready (h : s.Ready) (addr : Addr) (i : Nat) : ∃ late t, ByteRead addr i late s t := by
  obtain ⟨t, ht⟩ := State.readAttempt_ready (ReadFrame.byteBegun h addr i).ready addr i
  by_cases ha : t.scr.status = Config.statusTimeout
  · obtain ⟨u, hu⟩ := State.readAttempt_ready (ReadFrame.retried h ht).ready addr i
    exact ⟨true, u, ht.byteRead_retried h ha hu⟩
  · exact ⟨false, t, ht.byteRead h ha⟩

/-- A byte answered by a word in the symbol code at the first or the second asking (R102, R201). -/
theorem State.readByte_reply (h : s.Ready) (addr : Addr) (i : Nat) {w : WireWord} {unit latency : Nat} (late : Bool)
    (h1 : 1 ≤ unit) (hlat : 1 ≤ latency) (hb : replyTicks w unit latency ≤ pktTicks s)
    (hne : (packetAnswer (BitVec.ofNat 32 latency :: pulseIntervals unit (wireBits w))).1 ≠ Config.statusTimeout)
    (hl : s.env.lineIn = lateLevels (pktTicks s) late ++ (replyLevels w unit latency ++ rest)) :
    ∃ t, ByteRead addr i late s t ∧ t.drv.bus = .idle ∧ t.env.lineIn = rest ∧
      (t.scr.status, t.scr.payload) = packetAnswer (BitVec.ofNat 32 latency :: pulseIntervals unit (wireBits w)) := by
  have hbegun := ReadFrame.byteBegun h addr i
  cases late with
  | false =>
    obtain ⟨t, ht, hbus, hrest, ha⟩ := State.readAttempt_reply hbegun.ready addr i h1 hlat hb hl
    exact ⟨t, ht.byteRead h (by rw [← ha] at hne; exact hne), hbus, hrest, ha⟩
  | true =>
    obtain ⟨t, ht, hto, -, hline⟩ := State.readAttempt_rest hbegun.ready addr i hl
    have hretried := ReadFrame.retried h ht
    obtain ⟨u, hu, hend⟩ := State.readAttempt_reply hretried.ready addr i h1 hlat (by rw [hretried.pktTicks]; exact hb) hline
    exact ⟨u, ht.byteRead_retried h hto hu, hend⟩

/-- A byte that is answered at neither asking (R201). -/
theorem State.readByte_rest (h : s.Ready) (addr : Addr) (i : Nat)
    (hl : s.env.lineIn = restLevels (2 * pktTicks s) ++ rest) :
    ∃ t, ByteRead addr i true s t ∧ t.drv.bus = .timeout ∧ t.scr.status = Config.statusTimeout ∧ t.env.lineIn = rest := by
  rw [restLevels, Nat.two_mul, ← List.replicate_append_replicate, List.append_assoc] at hl
  obtain ⟨t, ht, hto, -, hline⟩ := State.readAttempt_rest (ReadFrame.byteBegun h addr i).ready addr i hl
  have hretried := ReadFrame.retried h ht
  obtain ⟨u, hu, hto', hbus, hend⟩ := State.readAttempt_rest hretried.ready addr i (rest := rest)
    (by rw [hretried.pktTicks]; exact hline)
  exact ⟨u, ht.byteRead_retried h hto hu, hbus, hto', hend⟩

end Asked

/-! ### A read byte by byte (R200) -/

section Reads
variable {s t : State} {addr : Addr} {buf : BufRef} {i : Nat} {late : Bool} {rest : List Level}

/-- A byte that has been answered is stored, and the read goes on (R200). -/
theorem ByteRead.readBytes_of_some (ht : ByteRead addr i late s t) {b : Byte}
    (hb : byteAnswer (t.scr.status, t.scr.payload) = some b) (n : Nat) :
    s.readBytes addr buf i (n + 1) = (t.bufStore buf i b).readBytes addr buf (i + 1) n := by
  rw [State.readBytes, ht.run, Run.andThen_done, hb]

/-- A byte that has not been answered ends the read (R200). -/
theorem ByteRead.readBytes_of_none (ht : ByteRead addr i late s t)
    (hb : byteAnswer (t.scr.status, t.scr.payload) = none) (n : Nat) : s.readBytes addr buf i (n + 1) = .done i t := by
  rw [State.readBytes, ht.run, Run.andThen_done, hb]

theorem length_byteWords (addr : Addr) (i : Nat) (late : Bool) :
    2 ≤ (byteWords addr i late).length ∧ (byteWords addr i late).length ≤ 4 := by
  cases late <;> simp [byteWords, askWords]

/-- Whatever the line shows, a read ends with a count of bytes, has stored nothing outside them, and has sent two or four
words for each byte it has asked for (R72, R200, R281). -/
theorem State.readBytes_ready (addr : Addr) (buf : BufRef) (n : Nat) {i : Nat} {s : State} (h : s.Ready) :
    ∃ c t, s.readBytes addr buf i n = .done (i + c) t ∧ c ≤ n ∧ ReadFrame s t ∧
      (∀ a, (∀ k, i ≤ k → k < i + c → a ≠ bufAddr buf k) → t.mem.read a = s.mem.read a) ∧
      s.env.sent.length + 2 * c ≤ t.env.sent.length ∧ t.env.sent.length ≤ s.env.sent.length + 4 * n := by
  induction n generalizing i s with
  | zero => exact ⟨0, s, rfl, le_rfl, ReadFrame.refl h, fun _ _ => rfl, le_rfl, le_rfl⟩
  | succ n ih =>
    obtain ⟨late, t, ht⟩ := State.readByte_ready h addr i
    have hsent := congrArg List.length ht.sent
    rw [List.length_append] at hsent
    obtain ⟨h2, h4⟩ := length_byteWords addr i late
    cases hb : byteAnswer (t.scr.status, t.scr.payload) with
    | none =>
      exact ⟨0, t, ht.readBytes_of_none hb n, Nat.zero_le _, ht.frame, fun a _ => by rw [ht.mem], by omega, by omega⟩
    | some b =>
      have hstored := ReadFrame.bufStore ht.frame.ready buf i b
      obtain ⟨c, u, hrun, hc, hframe, hmem, hlo, hhi⟩ := ih (i := i + 1) hstored.ready
      rw [State.bufStore_env] at hlo hhi
      refine ⟨c + 1, u, ?_, by omega, (ht.frame.trans hstored).trans hframe, fun a ha => ?_, by omega, by omega⟩
      · rw [ht.readBytes_of_some hb, hrun, Nat.add_right_comm, Nat.add_assoc]
      · rw [hmem a fun k h1 h2 => ha k (by omega) (by omega), State.bufStore_mem,
          Memory.read_write_other _ _ (ha i le_rfl (by omega)), ht.mem]

theorem exec_readAddrSpace (h : s.drv.tauSet = true) (addr : Addr) {n : Word} (hn : n.toNat ≤ buf.size.toNat) :
    exec (.readAddrSpace addr n buf) s = finish answerCount (s.readBytes addr buf 0 n.toNat) :=
  (needTau_of_tauSet h _).trans (withBuffer_of_holds hn _)

theorem toNat_ofNat_count {n : Word} {c : Nat} (h : c ≤ n.toNat) : (BitVec.ofNat 32 c).toNat = c :=
  Nat.mod_eq_of_lt (h.trans_lt n.isLt)

/-! ### A read that is answered (R200, R201) -/

/-- A read whose next bytes are answered in time goes on after them with the bytes stored (R69, R101, R200). -/
theorem State.readBytes_answers (addr : Addr) (buf : BufRef) (n : Nat) (answers : List ByteAnswer) {i : Nat} {s : State}
    (h : s.Ready) (hgood : ∀ a ∈ answers, a.reply.Good (pktTicks s))
    (hl : s.env.lineIn = answers.flatMap (ByteAnswer.levels (pktTicks s)) ++ rest) :
    ∃ t, s.readBytes addr buf i (answers.length + n) = t.readBytes addr buf (i + answers.length) n ∧ ReadFrame s t ∧
      t.mem = (s.bufStoreAll buf i (answers.map (·.reply.data))).mem ∧
      t.env.sent = readWords addr i (answers.map ByteAnswer.late) ++ s.env.sent ∧ t.env.lineIn = rest := by
  induction answers generalizing i s with
  | nil => exact ⟨s, by rw [List.length_nil, Nat.zero_add]; rfl, ReadFrame.refl h, rfl, rfl, hl⟩
  | cons a answers ih =>
    obtain ⟨hflag, h1, hlat, hb⟩ := hgood a List.mem_cons_self
    have hans := packetAnswer_wireWord h1 (unit_lt_of_replyTicks hb) a.reply.code a.reply.data
      (BitVec.ofNat 32 a.reply.latency)
    have heot : endOfTransmission (a.reply.code.setWidth 8) = true := (endOfTransmission_code _).trans hflag
    have hne : a.reply.code.setWidth 8 ≠ Config.statusTimeout := fun e => by
      rw [e] at heot
      exact absurd heot (by decide)
    rw [List.flatMap_cons, ByteAnswer.levels, Reply.levels, List.append_assoc, List.append_assoc] at hl
    obtain ⟨t, ht, -, hline, ha⟩ := State.readByte_reply h addr i a.late h1 hlat hb (by rw [hans]; exact hne) hl
    have hbyte : byteAnswer (t.scr.status, t.scr.payload) = some a.reply.data := by
      rw [ha, hans, byteAnswer, if_pos heot]
    have hstored := ht.frame.trans (ReadFrame.bufStore ht.frame.ready buf i a.reply.data)
    obtain ⟨u, hrun, hframe, hmem, hsent, hrest⟩ := ih (i := i + 1) hstored.ready
      (fun a' ha' => by rw [hstored.pktTicks]; exact hgood a' (List.mem_cons_of_mem _ ha'))
      (by rw [hstored.pktTicks]; exact hline)
    refine ⟨u, ?_, hstored.trans hframe, ?_, ?_, hrest⟩
    · rw [List.length_cons, Nat.add_right_comm, ht.readBytes_of_some hbyte, hrun, Nat.add_right_comm, Nat.add_assoc]
    · rw [hmem]
      exact State.bufStoreAll_mem_congr (by simp [ht.mem]) buf (i + 1) _
    · rw [hsent, State.bufStore_env, ht.sent, ← List.append_assoc]
      rfl

/-- The end of a read whose answered bytes are stored: what is then in the buffer, and what is not (R69, R200). -/
theorem readEnded_of_stored {answers : List ByteAnswer} {last : List (WireWord × Mode)} (h : s.Ready)
    (hlen : answers.length ≤ buf.size.toNat) (hmem : t.mem = (s.bufStoreAll buf 0 (answers.map (·.reply.data))).mem)
    (hsent : t.env.sent = last ++ (readWords addr 0 (answers.map ByteAnswer.late) ++ s.env.sent)) :
    ReadEnded addr buf answers last s (answerCount (0 + answers.length) t) := by
  have hlt := buf.size.isLt
  refine ⟨by rw [Nat.zero_add]; rfl, ?_, fun a ha => ?_, fun he => ?_, hsent⟩
  · refine List.ext_getElem (by simp) fun j hj _ => ?_
    have hj' : j < answers.length := by simpa using hj
    have hread := State.bufByte_bufStoreAll (buf := buf) (i := 0) (j := j) (l := answers.map (·.reply.data)) h.mem_wf
      (by simp; omega) (by simpa using hj')
    rw [Nat.zero_add, State.bufByte, ← hmem] at hread
    simp only [State.bufBytes, List.getElem_map, List.getElem_range] at hread ⊢
    exact hread
  · change t.mem.read a = _
    rw [hmem]
    exact State.read_bufStoreAll_other fun k _ hk => ha k (by simpa using hk)
  · subst he
    exact hmem

end Reads

/-- Settles O42, by induction on the bytes asked for. -/
theorem readAddrSpaceCountsAndStores : Obligations.ReadAddrSpaceCountsAndStores := by
  intro s addr n buf h hn
  obtain ⟨c, t, hrun, hc, hframe, hmem, hlo, hhi⟩ := State.readBytes_ready addr buf n.toNat (i := 0) h
  have hexec := exec_readAddrSpace h.tauSet addr hn
  rw [hrun, Nat.zero_add] at hexec
  have hcount : (answerCount c t).ans.res0.toNat = c := toNat_ofNat_count hc
  refine ⟨_, hexec, (congrArg Answer.res1 hframe.ans :), by rw [hcount]; exact hc, fun a ha => ?_, by rw [hcount]; exact hlo, hhi,
    hframe.ready.bus, hframe.uid, hframe.regmap, hframe.par, hframe.tau, hframe.ready.tauSet, hframe.out, hframe.offset,
    hframe.attempt, hframe.ready.undisturbed.1, hframe.ready.undisturbed.2, hframe.inbox⟩
  rw [hcount] at ha
  exact hmem a fun k _ hk => ha k (by omega)

/-- Settles O43: after the answered bytes none is left to ask for. -/
theorem answeredReadsFillTheBuffer : Obligations.AnsweredReadsFillTheBuffer := by
  intro s addr buf answers rest h hlen hgood hl
  have hn := toNat_ofNat_len hlen
  obtain ⟨t, hrun, -, hmem, hsent, hrest⟩ := State.readBytes_answers addr buf 0 answers (i := 0) h hgood hl
  have hexec := exec_readAddrSpace h.tauSet addr (hn.trans_le hlen)
  rw [hn, ← Nat.add_zero answers.length, hrun, Nat.add_zero] at hexec
  exact ⟨_, hexec, readEnded_of_stored h hlen hmem hsent, hrest⟩

/-- A read whose next byte, after the answered ones, is not answered, or not as a byte's end: it ends there (R200, R202). -/
theorem exec_readAddrSpace_ends {s : State} (h : s.Ready) (addr : Addr) {n : Word} {buf : BufRef} {answers : List ByteAnswer}
    (hk : answers.length < n.toNat) (hn : n.toNat ≤ buf.size.toNat) (hgood : ∀ a ∈ answers, a.reply.Good (pktTicks s))
    {line : List Level} (hl : s.env.lineIn = answers.flatMap (ByteAnswer.levels (pktTicks s)) ++ line) :
    ∃ t, t.Ready ∧ pktTicks t = pktTicks s ∧ t.env.lineIn = line ∧ ∀ late u, ByteRead addr answers.length late t u →
      byteAnswer (u.scr.status, u.scr.payload) = none →
      exec (.readAddrSpace addr n buf) s = .next (answerCount (0 + answers.length) u) ∧
        ReadEnded addr buf answers (byteWords addr answers.length late) s (answerCount (0 + answers.length) u) := by
  obtain ⟨m, hm⟩ := Nat.exists_eq_add_of_lt hk
  obtain ⟨t, hrun, hframe, hmem, hsent, hrest⟩ := State.readBytes_answers addr buf (m + 1) answers (i := 0) h hgood hl
  have hexec := exec_readAddrSpace h.tauSet addr hn
  rw [hm, Nat.add_assoc, hrun] at hexec
  refine ⟨t, hframe.ready, hframe.pktTicks, hrest, fun late u hu hb => ⟨?_, ?_⟩⟩
  · rw [← Nat.zero_add answers.length] at hu
    rw [hexec, hu.readBytes_of_none hb]
    rfl
  · exact readEnded_of_stored h (by omega) (hu.mem.trans hmem) (by rw [hu.sent, hsent])

/-- Settles O44: the byte after the answered ones times out at both its askings. -/
theorem unansweredReadIsRetriedOnce : Obligations.UnansweredReadIsRetriedOnce := by
  intro s addr n buf answers rest h hk hn hgood hl
  obtain ⟨t, ht, hbud, hline, hend⟩ := exec_readAddrSpace_ends h addr hk hn hgood hl
  obtain ⟨u, hu, hbus, hto, hrest⟩ := State.readByte_rest ht addr answers.length (by rw [hline, hbud])
  obtain ⟨hexec, hended⟩ := hend true u hu (by rw [byteAnswer, hto]; rfl)
  exact ⟨_, hexec, hended, hbus, hu.retry, hto, hrest⟩

/-- Settles O45: what the word is received as (itself, or all zeros where every pulse but the last is long) is an answer that
is neither a timeout nor flagged. -/
theorem replyWithoutFlagEndsTheRead : Obligations.ReplyWithoutFlagEndsTheRead := by
  intro s addr n buf answers w unit latency late rest h hk hn hgood hw h1 hlat hb hl
  obtain ⟨heot, hne, hbad⟩ := packetAnswer_unflagged hw h1 (unit_lt_of_replyTicks hb) (BitVec.ofNat 32 latency)
  obtain ⟨t, ht, hbud, hline, hend⟩ := exec_readAddrSpace_ends h addr hk hn hgood hl
  obtain ⟨u, hu, hbus, hrest, ha⟩ := State.readByte_reply ht addr answers.length late h1 hlat (by rw [hbud]; exact hb) hne
    (by rw [hline, hbud])
  obtain ⟨hexec, hended⟩ := hend late u hu (by rw [ha, byteAnswer, heot]; rfl)
  refine ⟨_, hexec, hended, hbus, hu.retry, hrest, fun hfail hframe => ?_⟩
  exact Prod.ext_iff.1 (ha.trans (hbad hfail hframe))

/-- Settles O46: the reversal comes after the read, and only where the read's count is the size. -/
theorem readAddrReverseReverses : Obligations.ReadAddrReverseReverses := by
  intro s addr n buf h hn
  obtain ⟨c, u, hrun, hc, hframe, -, -, -⟩ := State.readBytes_ready addr buf n.toNat (i := 0) h
  rw [Nat.zero_add] at hrun
  have hread := exec_readAddrSpace h.tauSet addr hn
  rw [hrun] at hread
  have hexec : exec (.readAddrReverse addr n buf) s = finish answerWord (s.readReverse addr n.toNat buf) :=
    (needTau_of_tauSet h.tauSet _).trans (withBuffer_of_holds hn _)
  rw [State.readReverse, State.readSpace, hrun, Run.andThen_done] at hexec
  have hres : (answerCount c u).ans.res0 = n ↔ c = n.toNat := by
    rw [← BitVec.toNat_inj]
    exact Eq.congr_left (toNat_ofNat_count hc)
  by_cases hlt : c < n.toNat
  · rw [if_pos hlt] at hexec
    exact ⟨_, _, hexec, hread, fun _ => rfl, fun he => absurd (hres.1 he) (by omega)⟩
  · rw [if_neg hlt, BitVec.ofNat_toNat, BitVec.setWidth_eq] at hexec
    refine ⟨_, _, hexec, hread, fun hne => absurd (hres.2 (by omega)) hne, fun _ => ⟨?_, fun j hj => ?_, fun a ha => ?_⟩⟩
    · exact congrArg (answerWord n) (u.reverseBytes_frame buf n.toNat)
    · exact State.bufByte_reverseBytes hframe.ready.mem_wf n.isLt hj
    · exact State.read_reverseBytes_other ha

/-- Settles O47: with a row and a buffer that holds it the instruction is the read of that row (O42). -/
theorem readRegistersGoesThroughTheMap : Obligations.ReadRegistersGoesThroughTheMap := by
  refine fun s id buf h => ⟨fun e he hlen => ?_, fun hrow => ?_⟩
  · have hn := toNat_ofNat_len hlen
    obtain ⟨t, hexec, -, hcount, -⟩ :=
      readAddrSpaceCountsAndStores s e.addr (BitVec.ofNat 32 e.len) buf h (hn.trans_le hlen)
    exact ⟨t, (exec_readRegisters he hlen).trans hexec, hexec, hcount.trans_eq hn⟩
  · exact ⟨_, _, (exec_registers_undefined h.tauSet hrow).1, rfl⟩

end Sys2Proof.Machine

/-! PROOFS, 43_uid_search.md. What one attempt at a position comes to, whatever the line shows and with scripted answers; a
position with its attempts; the search position by position, UID[] holding the bits found so far (O50, O51, O52). -/

namespace Sys2Proof.Machine

/-! ### What a search leaves alone (R231, R235) -/

/-- A foreground step that neither waits nor touches STATE leaves a ready machine ready (R7). -/
theorem State.Ready.of_quiet {s : State} (h : s.Ready) {g : State → State} (hg : Quiet g)
    (hbus : (g s).drv.bus = s.drv.bus) : (g s).Ready := by
  obtain ⟨hinv, hset⟩ := hg.armed s h.going.1
  obtain ⟨hleft, hrst⟩ := h.undisturbed
  exact ⟨⟨hinv, hset, (hg.ticksLeft_eq s).trans hleft, (hg.rstIn s).trans hrst⟩, by rw [hbus]; exact h.bus⟩

/-- A search has gone from `s` to `t`: the machine is ready for the next word, these words have been sent, newest first, and
of what a search does not write all is as it was. -/
structure SearchRun (words : List (WireWord × Mode)) (s t : State) : Prop where
  ready  : t.Ready
  ans    : t.ans = s.ans
  mem    : t.mem = s.mem
  regmap : t.regmap = s.regmap
  par    : t.par = s.par
  tau    : t.drv.tau = s.drv.tau
  out    : t.drv.out = s.drv.out
  scr    : t.scr = { s.scr with offset := t.scr.offset, attempt := t.scr.attempt }
  inbox  : t.env.inbox = s.env.inbox
  sent   : t.env.sent = words ++ s.env.sent

/-- ... without leaving the position it was at: UID[] and OFFSET are as they were (R232). -/
structure PositionRun (words : List (WireWord × Mode)) (s t : State) : Prop extends SearchRun words s t where
  uid    : t.uid = s.uid
  offset : t.scr.offset = s.scr.offset

section Runs
variable {s t u : State} {ws vs : List (WireWord × Mode)} {c : Code} {p : Byte} {m : Mode}

theorem SearchRun.refl (h : s.Ready) : SearchRun [] s s := ⟨h, rfl, rfl, rfl, rfl, rfl, rfl, rfl, rfl, rfl⟩

theorem SearchRun.trans (h : SearchRun ws s t) (h' : SearchRun vs t u) : SearchRun (vs ++ ws) s u where
  ready := h'.ready
  ans := h'.ans.trans h.ans
  mem := h'.mem.trans h.mem
  regmap := h'.regmap.trans h.regmap
  par := h'.par.trans h.par
  tau := h'.tau.trans h.tau
  out := h'.out.trans h.out
  scr := by rw [h'.scr, h.scr]
  inbox := h'.inbox.trans h.inbox
  sent := by rw [h'.sent, h.sent, List.append_assoc]

theorem PositionRun.refl (h : s.Ready) : PositionRun [] s s := ⟨.refl h, rfl, rfl⟩

theorem PositionRun.trans (h : PositionRun ws s t) (h' : PositionRun vs t u) : PositionRun (vs ++ ws) s u where
  toSearchRun := h.toSearchRun.trans h'.toSearchRun
  uid := h'.uid.trans h.uid
  offset := h'.offset.trans h.offset

theorem SearchRun.intTicks (h : SearchRun ws s t) : intTicks t = intTicks s := by
  simp only [Machine.intTicks, h.par, h.tau]

theorem State.Ready.setAttempt (h : s.Ready) (n : Nat) : (s.setAttempt n).Ready := h.of_quiet (.setAttempt n) rfl

/-- ATTEMPT is written at a position (R28). -/
theorem PositionRun.of_setAttempt {n : Nat} (h : PositionRun ws (s.setAttempt n) t) : PositionRun ws s t where
  toSearchRun :=
    { ready := h.ready, ans := h.ans, mem := h.mem, regmap := h.regmap, par := h.par, tau := h.tau, out := h.out
      scr := h.scr, inbox := h.inbox, sent := h.sent }
  uid := h.uid
  offset := h.offset

/-- An exchange is a step of a search that stays at its position. -/
theorem PositionRun.of_exchangeFrame {w : WireWord × Mode} (hf : ExchangeFrame s t) (ht : t.Ready) (ha : t.ans = s.ans)
    (hw : t.env.sent = w :: s.env.sent) : PositionRun [w] s t := by
  obtain ⟨huid, hmap, hpar, hmem, hscr, htau, -, hout, -, -, hin⟩ := hf
  exact ⟨⟨ht, ha, hmem, hmap, hpar, htau, hout, by rw [hscr], hin, hw⟩, huid, by rw [hscr]⟩

theorem PollEnd.positionRun (h : PollEnd c p m s t) : PositionRun [(wireWord c p, m)] s t := by
  obtain ⟨-, -, hsent, -⟩ := h.word
  exact .of_exchangeFrame h.frame h.ready h.ans hsent

theorem PollEnd.attempt (h : PollEnd c p m s t) : t.scr.attempt = s.scr.attempt := by
  obtain ⟨-, -, -, -, hscr, -⟩ := h.frame
  rw [hscr]

theorem PollEnd.sendPollInterrupt (h : PollEnd c p .pollInterrupt s t) :
    s.sendPollInterrupt c p = .done (decide (t.drv.bus = .idle)) t := by
  rw [State.sendPollInterrupt, h.run, Run.map_done]

end Runs

/-- How a position, and with it the search, is left: after the commit to a branch, or after the last of three attempts that
nobody answered (R232, R235). -/
def State.PositionEnd (t : State) : Bool → Prop
  | true => t.drv.bus = .idle ∧ t.drv.dir = .output
  | false => t.scr.attempt = 3 ∧ t.drv.bus = .timeout ∧ t.drv.dir = .input

/-- A word in SendOnly is a step of a search that takes no sample of the line (R191). -/
theorem State.sendOnly_positionRun {s : State} (h : s.Ready) (c : Code) (p : Byte) :
    ∃ t, s.sendOnly c p = .done true t ∧ PositionRun [(wireWord c p, .sendOnly)] s t ∧ t.PositionEnd true ∧
      t.env.lineIn = s.env.lineIn := by
  obtain ⟨due, hex⟩ := State.exchange_sendOnly c p h.undisturbed h.bus h.one_le_tau
  refine ⟨_, by rw [State.sendOnly, hex]; rfl, .of_exchangeFrame ?_ (h.of_exchange hex rfl) rfl rfl, ⟨rfl, rfl⟩, rfl⟩
  simp [ExchangeFrame]

/-! ### One attempt at a position (R232, R233) -/

/-- The words of an attempt, newest first, by the branch that answered. -/
def probeWords : Option Bool → List (WireWord × Mode)
  | some true => [(wireWord 0x8 0x87, .pollInterrupt)]
  | some false | none => [(wireWord 0x8 0x86, .pollInterrupt), (wireWord 0x8 0x87, .pollInterrupt)]

/-- The end of an attempt. -/
structure Probed (branch : Option Bool) (s t : State) : Prop where
  run     : s.probe = .done branch t
  kept    : PositionRun (probeWords branch) s t
  attempt : t.scr.attempt = s.scr.attempt
  dir     : t.drv.dir = .input
  timeout : branch = none → t.drv.bus = .timeout

section Probes
variable {s t u : State} {rest : List Level} {latency : Nat}

/-- Branch 1 has answered. -/
theorem PollEnd.probed_one (h : PollEnd Config.bcCode Config.probeBranch1 .pollInterrupt s t) (hb : t.drv.bus = .idle) :
    Probed (some true) s t :=
  ⟨by rw [State.probe, h.sendPollInterrupt, Run.andThen_done, decide_eq_true hb]; rfl, h.positionRun, h.attempt, h.dir,
    nofun⟩

/-- Branch 1 has not answered, and branch 0 has been probed. -/
theorem PollEnd.probed_zero (h : PollEnd Config.bcCode Config.probeBranch1 .pollInterrupt s t) (hb : t.drv.bus = .timeout)
    (h' : PollEnd Config.bcCode Config.probeBranch0 .pollInterrupt t u) :
    Probed (if u.drv.bus = .idle then some false else none) s u := by
  have hrun : s.probe = .done (if u.drv.bus = .idle then some false else none) u := by
    rw [State.probe, h.sendPollInterrupt, Run.andThen_done, hb, h'.sendPollInterrupt]
    simp
  have hkept := h.positionRun.trans h'.positionRun
  have hattempt := h'.attempt.trans h.attempt
  rcases BusState.ready_iff.1 h'.ready.bus with hu | hu
  · rw [if_pos hu] at hrun ⊢
    exact ⟨hrun, hkept, hattempt, h'.dir, nofun⟩
  · rw [if_neg (by simp [hu])] at hrun ⊢
    exact ⟨hrun, hkept, hattempt, h'.dir, fun _ => hu⟩

/-- An attempt ends, whatever the line shows (R79, R232). -/
theorem State.probe_ready (h : s.Ready) : ∃ branch t, Probed branch s t := by
  have hm : Mode.pollInterrupt ≠ .sendOnly := by decide
  obtain ⟨t, ht⟩ := State.exchange_pollEnds h Config.bcCode Config.probeBranch1 hm
  rcases BusState.ready_iff.1 ht.ready.bus with hb | hb
  · exact ⟨_, t, ht.probed_one hb⟩
  · obtain ⟨u, hu⟩ := State.exchange_pollEnds ht.ready Config.bcCode Config.probeBranch0 hm
    exact ⟨_, u, ht.probed_zero hb hu⟩

/-- A line at rest through the probe of branch 1, which goes on to that of branch 0 (R232). -/
theorem State.probe_one_rest (h : s.Ready) (hl : s.env.lineIn = restLevels (intTicks s) ++ rest) :
    ∃ t, PollEnd Config.bcCode Config.probeBranch1 .pollInterrupt s t ∧ t.drv.bus = .timeout ∧ t.env.lineIn = rest :=
  State.exchange_rest h _ _ (by decide) hl

/-- The levels a device shows to an attempt at a position where its identifier has bit `b` (R65). -/
def bitLevels (budget latency : Nat) (b : Bool) : List Level :=
  if b then edgeLevels latency else restLevels budget ++ edgeLevels latency

theorem obedientLevels_cons (budget latency : Nat) (b : Bool) (bits : List Bool) :
    obedientLevels budget latency (b :: bits) = bitLevels budget latency b ++ obedientLevels budget latency bits :=
  List.flatMap_cons

/-- An attempt answered by a device that follows its identifier's bit (R65, R233). -/
theorem State.probe_answered (h : s.Ready) (b : Bool) (h1 : 1 ≤ latency) (hb : latency ≤ intTicks s)
    (hl : s.env.lineIn = bitLevels (intTicks s) latency b ++ rest) :
    ∃ t, Probed (some b) s t ∧ t.env.lineIn = rest := by
  cases b with
  | true =>
    obtain ⟨t, ht, hidle, hrest⟩ := State.exchange_edge h Config.bcCode Config.probeBranch1 h1 hb hl
    exact ⟨t, ht.probed_one hidle, hrest⟩
  | false =>
    obtain ⟨t, ht, hto, hline⟩ := State.probe_one_rest h (hl.trans (List.append_assoc _ _ _))
    obtain ⟨u, hu, hidle, hrest⟩ := State.exchange_edge ht.ready Config.bcCode Config.probeBranch0 h1
      (by rw [ht.positionRun.intTicks]; exact hb) hline
    have hprobed := ht.probed_zero hto hu
    rw [if_pos hidle] at hprobed
    exact ⟨u, hprobed, hrest⟩

theorem restLevels_add (m n : Nat) : restLevels (m + n) = restLevels m ++ restLevels n :=
  List.replicate_append_replicate.symm

/-- An attempt that nobody answers (R232). -/
theorem State.probe_rest (h : s.Ready) (hl : s.env.lineIn = restLevels (intTicks s) ++ (restLevels (intTicks s) ++ rest)) :
    ∃ t, Probed none s t ∧ t.env.lineIn = rest := by
  obtain ⟨t, ht, hto, hline⟩ := State.probe_one_rest h hl
  have hbud : intTicks t = intTicks s := ht.positionRun.intTicks
  obtain ⟨u, hu, hto', hrest⟩ := State.exchange_rest ht.ready Config.bcCode Config.probeBranch0 (m := .pollInterrupt)
    (by decide) (by rw [hline, ← hbud])
  have hprobed := ht.probed_zero hto hu
  rw [if_neg (by simp [hto'])] at hprobed
  exact ⟨u, hprobed, hrest⟩

/-! ### A position with its attempts (R232) -/

/-- The words of a position that finds `b` at its first attempt, newest first: the probes and the commit. -/
def bitWords (b : Bool) : List (WireWord × Mode) :=
  (wireWord 0x8 (if b then 0x85 else 0x84), .sendOnly) :: probeWords (some b)

theorem searchWords_cons (b : Bool) (bits : List Bool) : searchWords (b :: bits) = searchWords bits ++ bitWords b := by
  cases b <;> rfl

/-- A branch that has answered is committed to. -/
theorem Probed.resolve_some {b : Bool} {left : Nat} (ht : Probed (some b) (s.setAttempt (Config.uidAttempts - left)) t) :
    ∃ u, s.resolveBitFrom (left + 1) = .done (some b) u ∧ PositionRun (bitWords b) s u ∧ u.PositionEnd true ∧
      u.env.lineIn = t.env.lineIn := by
  obtain ⟨u, hu, hkept, hend⟩ :=
    State.sendOnly_positionRun ht.kept.ready Config.bcCode (if b then Config.enterBranch1 else Config.enterBranch0)
  have hcommit : t.enterBranch b = .done true u := hu
  refine ⟨u, ?_, (ht.kept.trans hkept).of_setAttempt, hend⟩
  rw [State.resolveBitFrom, ht.run, Run.andThen_done]
  simp only [hcommit, Run.map_done]

/-- With no answer the next attempt is made, if one is left. -/
theorem Probed.resolve_none {left : Nat} (ht : Probed none (s.setAttempt (Config.uidAttempts - left)) t) :
    s.resolveBitFrom (left + 1) = t.resolveBitFrom left := by
  rw [State.resolveBitFrom, ht.run, Run.andThen_done]

/-- The third attempt is the last (R232). -/
theorem Probed.positionEnd {left : Nat} (ht : Probed none (s.setAttempt (Config.uidAttempts - left)) t) (h0 : left = 0) :
    t.PositionEnd false := by
  subst h0
  exact ⟨ht.attempt, ht.timeout rfl, ht.dir⟩

/-- A position is left with a branch committed to or after its last attempt, whatever the line shows (R79, R232). -/
theorem State.resolveBitFrom_ready (left : Nat) (h : s.Ready) (h0 : left = 0 → s.PositionEnd false) :
    ∃ bit words t, s.resolveBitFrom left = .done bit t ∧ PositionRun words s t ∧ t.PositionEnd bit.isSome := by
  induction left generalizing s with
  | zero => exact ⟨none, [], s, rfl, .refl h, h0 rfl⟩
  | succ left ih =>
    obtain ⟨branch, t, ht⟩ := State.probe_ready (h.setAttempt (Config.uidAttempts - left))
    cases branch with
    | none =>
      obtain ⟨bit, _, u, hrun, hkept, hend⟩ := ih ht.kept.ready ht.positionEnd
      exact ⟨bit, _, u, ht.resolve_none.trans hrun, ht.kept.of_setAttempt.trans hkept, hend⟩
    | some b =>
      obtain ⟨u, hrun, hkept, hend, -⟩ := ht.resolve_some
      exact ⟨_, _, u, hrun, hkept, hend⟩

/-- A position whose attempts nobody answers (R232, R235). -/
theorem State.resolveBitFrom_rest (left : Nat) (h : s.Ready) (h0 : left = 0 → s.PositionEnd false)
    (hl : s.env.lineIn = restLevels (2 * left * intTicks s) ++ rest) :
    ∃ t, s.resolveBitFrom left = .done none t ∧ PositionRun (List.replicate left (probeWords none)).flatten s t ∧
      t.PositionEnd false ∧ t.env.lineIn = rest := by
  induction left generalizing s with
  | zero => exact ⟨s, rfl, .refl h, h0 rfl, by simpa [restLevels] using hl⟩
  | succ left ih =>
    have hsplit : 2 * (left + 1) * intTicks s = intTicks s + (intTicks s + 2 * left * intTicks s) := by ring
    rw [hsplit, restLevels_add, restLevels_add, List.append_assoc, List.append_assoc] at hl
    obtain ⟨t, ht, hline⟩ := State.probe_rest (h.setAttempt (Config.uidAttempts - left)) hl
    have hkept := ht.kept.of_setAttempt
    obtain ⟨u, hrun, hkept', hend⟩ := ih hkept.ready ht.positionEnd (by rw [hkept.intTicks]; exact hline)
    refine ⟨u, ht.resolve_none.trans hrun, ?_, hend⟩
    rw [List.replicate_succ', List.flatten_concat]
    exact hkept.trans hkept'

/-- A position whose first attempt is answered as an identifier with this bit has it (R65, R232). -/
theorem State.resolveBit_answered (h : s.Ready) (b : Bool) (h1 : 1 ≤ latency) (hb : latency ≤ intTicks s)
    (hl : s.env.lineIn = bitLevels (intTicks s) latency b ++ rest) :
    ∃ t, s.resolveBit = .done (some b) t ∧ PositionRun (bitWords b) s t ∧ t.PositionEnd true ∧
      t.env.lineIn = rest := by
  obtain ⟨t, ht, hline⟩ := State.probe_answered ((h.setAttempt 0).setAttempt (Config.uidAttempts - 2)) b h1 hb hl
  obtain ⟨u, hrun, hkept, hend, hline'⟩ := ht.resolve_some
  exact ⟨u, hrun, hkept.of_setAttempt, hend, hline'.trans hline⟩

end Probes

/-! ### The bits of UID[] (R25, R234) -/

/-- Bit `p` of UID[], bit 0 of UID[0] first (R234). -/
def uidBit (uid : Vector Byte 10) (p : Nat) : Bool := (uid.getD (p / 8) 0).getLsbD (p % 8)

theorem getLsbD_setByteBit (v : Byte) {k j : Nat} (hj : j < 8) (b : Bool) :
    (setByteBit v k b).getLsbD j = if j = k then b else v.getLsbD j := by
  by_cases hjk : j = k
  · subst hjk
    cases b <;> simp [setByteBit, hj]
  · cases b <;> simp [setByteBit, hj, hjk]

theorem getD_setIfInBounds (uid : Vector Byte 10) {i : Nat} (hi : i < 10) (v : Byte) (j : Nat) :
    (uid.setIfInBounds i v).getD j 0 = if i = j then v else uid.getD j 0 := by
  simp only [Vector.getD, Vector.toArray_setIfInBounds, Array.getD_eq_getD_getElem?, Array.getElem?_setIfInBounds,
    Vector.size_toArray, hi, if_true]
  split <;> rfl

/-- Only the bit written changes (R234). -/
theorem uidBit_setUidBit (s : State) {p : Nat} (hp : p < 80) (q : Nat) (b : Bool) :
    uidBit (s.setUidBit p b).uid q = if q = p then b else uidBit s.uid q := by
  rw [uidBit, uidBit, State.setUidBit_uid, getD_setIfInBounds _ (by omega)]
  by_cases hbyte : p / 8 = q / 8
  · have hbit : q % 8 = p % 8 ↔ q = p := by omega
    rw [if_pos hbyte, getLsbD_setByteBit _ (Nat.mod_lt q (by decide)), hbyte]
    simp only [hbit]
  · rw [if_neg hbyte, if_neg fun e => hbyte (by rw [e])]

theorem uidBit_clearUid (s : State) (p : Nat) : uidBit s.clearUid.uid p = false := by
  rw [uidBit, State.clearUid_uid, Vector.getD, Vector.toArray_replicate, Array.getD_eq_getD_getElem?,
    Array.getElem?_replicate]
  split <;> exact BitVec.getLsbD_zero

/-- A byte of UID[] without a bit that is 1. -/
theorem uid_eq_zero_of_uidBit {uid : Vector Byte 10} {k : Nat} (hk : k < 10)
    (h : ∀ i < 8, uidBit uid (8 * k + i) = false) : uid[k] = 0 := by
  refine BitVec.eq_of_getLsbD_eq fun i hi => ?_
  have hbit := h i hi
  rw [uidBit, show (8 * k + i) / 8 = k by omega, show (8 * k + i) % 8 = i by omega] at hbit
  simpa [Vector.getD, hk] using hbit

/-- The search has committed these bits: OFFSET counts them, the first is at position 79, and the positions after them are
zero (R231, R234, R235). -/
structure UidFound (bits : List Bool) (s : State) : Prop where
  offset : s.scr.offset.toNat = bits.length
  bit    : ∀ k < 80, uidBit s.uid (79 - k) = bits.getD k false

section Found
variable {s t : State} {bits : List Bool} {ws : List (WireWord × Mode)}

theorem UidFound.of_positionRun (h : UidFound bits s) (hr : PositionRun ws s t) : UidFound bits t :=
  ⟨by rw [hr.offset]; exact h.offset, by rw [hr.uid]; exact h.bit⟩

theorem UidFound.begun (s : State) : UidFound [] (s.clearUid.setOffset 0) := ⟨rfl, fun _ _ => uidBit_clearUid s _⟩

/-- A position's bit has been found: it is written, and OFFSET counts it (R231). -/
def State.committed (left : Nat) (b : Bool) (s : State) : State :=
  (s.setUidBit left b).setOffset (Config.uidBits - left)

theorem UidFound.committed (h : UidFound bits s) {left : Nat} (hlen : bits.length + (left + 1) = 80) (b : Bool) :
    UidFound (bits ++ [b]) (s.committed left b) where
  offset := by
    have hoff : (s.committed left b).scr.offset.toNat = (80 - left) % 128 := BitVec.toNat_ofNat (80 - left) 7
    rw [hoff, List.length_append, List.length_singleton]
    omega
  bit k hk := by
    have hwrite : uidBit (s.committed left b).uid (79 - k) = if 79 - k = left then b else uidBit s.uid (79 - k) :=
      uidBit_setUidBit s (by omega) _ b
    rw [hwrite, h.bit k hk]
    rcases Nat.lt_trichotomy k bits.length with hlt | rfl | hgt
    · rw [if_neg (by omega), List.getD_append _ _ _ _ hlt]
    · rw [if_pos (by omega), List.getD_append_right _ _ _ _ le_rfl, Nat.sub_self]
      rfl
    · rw [if_neg (by omega), List.getD_eq_default _ _ hgt.le, List.getD_eq_default _ _ (by simpa using hgt)]

theorem SearchRun.committed (h : s.Ready) (left : Nat) (b : Bool) : SearchRun [] s (s.committed left b) :=
  ⟨h.of_quiet ((Quiet.setUidBit left b).comp (Quiet.setOffset (Nat.sub_le _ left))) rfl,
    rfl, rfl, rfl, rfl, rfl, rfl, rfl, rfl, rfl⟩

end Found

/-! ### The search position by position (R231) -/

section Search
variable {s t : State} {found : List Bool} {rest : List Level} {latency : Nat}

/-- A position that nobody answers ends the search (R231). -/
theorem State.searchFrom_of_none (h : s.resolveBit = .done none t) (left : Nat) :
    s.searchFrom (left + 1) = .done false t := by
  rw [State.searchFrom, h, Run.andThen_done]

/-- A bit found is committed, and the search goes on (R231). -/
theorem State.searchFrom_of_some {b : Bool} (h : s.resolveBit = .done (some b) t) (left : Nat) :
    s.searchFrom (left + 1) = (t.committed left b).searchFrom left := by
  rw [State.searchFrom, h, Run.andThen_done]
  rfl

theorem State.resolveBit_ready (h : s.Ready) :
    ∃ bit words t, s.resolveBit = .done bit t ∧ PositionRun words s t ∧ t.PositionEnd bit.isSome := by
  obtain ⟨bit, words, t, hrun, hkept, hend⟩ :=
    State.resolveBitFrom_ready Config.uidAttempts (h.setAttempt 0) (fun e => absurd e (by decide))
  exact ⟨bit, words, t, hrun, hkept.of_setAttempt, hend⟩

/-- A search ends, whatever the line shows: with all 80 positions committed, or at the first that nobody answers (R79, R231,
R235). -/
theorem State.searchFrom_ready (left : Nat) (h : s.Ready) (hf : UidFound found s) (hend : s.PositionEnd true)
    (hlen : found.length + left = 80) :
    ∃ ok bits words t, s.searchFrom left = .done ok t ∧ SearchRun words s t ∧ UidFound bits t ∧ t.PositionEnd ok ∧
      if ok then bits.length = 80 else bits.length < 80 := by
  induction left generalizing s found with
  | zero => exact ⟨true, found, [], s, rfl, .refl h, hf, hend, hlen⟩
  | succ left ih =>
    obtain ⟨bit, words, t, hrun, hkept, htend⟩ := State.resolveBit_ready h
    have hft := hf.of_positionRun hkept
    cases bit with
    | none =>
      exact ⟨false, found, words, t, State.searchFrom_of_none hrun left, hkept.toSearchRun, hft, htend, by simp; omega⟩
    | some b =>
      have hstep := hkept.toSearchRun.trans (SearchRun.committed hkept.ready left b)
      obtain ⟨ok, bits, _, u, hrun', hkept', hend'⟩ := ih hstep.ready (hft.committed hlen b) htend (by simp; omega)
      exact ⟨ok, bits, _, u, (State.searchFrom_of_some hrun left).trans hrun', hstep.trans hkept', hend'⟩

/-- A search whose next positions are answered as by a device with these bits goes on after them with the bits found (R65,
R231 to R234). -/
theorem State.searchFrom_answered (bits : List Bool) (n : Nat) (h : s.Ready) (hf : UidFound found s)
    (hlen : found.length + (bits.length + n) = 80) (h1 : 1 ≤ latency) (hb : latency ≤ intTicks s)
    (hl : s.env.lineIn = obedientLevels (intTicks s) latency bits ++ rest) :
    ∃ t, s.searchFrom (bits.length + n) = t.searchFrom n ∧ SearchRun (searchWords bits) s t ∧
      UidFound (found ++ bits) t ∧ t.env.lineIn = rest := by
  induction bits generalizing s found with
  | nil => exact ⟨s, by rw [List.length_nil, Nat.zero_add], .refl h, by rw [List.append_nil]; exact hf, hl⟩
  | cons b bits ih =>
    rw [obedientLevels_cons, List.append_assoc] at hl
    rw [List.length_cons, Nat.add_right_comm] at hlen ⊢
    obtain ⟨t, hrun, hkept, -, hline⟩ := State.resolveBit_answered h b h1 hb hl
    have hstep := hkept.toSearchRun.trans (SearchRun.committed hkept.ready (bits.length + n) b)
    obtain ⟨u, hrun', hkept', hfound, hrest⟩ := ih hstep.ready ((hf.of_positionRun hkept).committed hlen b)
      (by simp; omega) (by rw [hstep.intTicks]; exact hb) (by rw [hstep.intTicks]; exact hline)
    refine ⟨u, (State.searchFrom_of_some hrun _).trans hrun', ?_, by simpa using hfound, hrest⟩
    rw [searchWords_cons]
    exact hstep.trans hkept'

/-- A search begins with UID[] and OFFSET cleared and DiscoverStart sent (R231). -/
theorem State.search_begins (h : s.Ready) :
    ∃ t, s.search = t.searchFrom 80 ∧ SearchRun [(wireWord 0x8 0x80, .sendOnly)] s t ∧ UidFound [] t ∧
      t.PositionEnd true ∧ t.env.lineIn = s.env.lineIn := by
  have hready : (s.clearUid.setOffset 0).Ready :=
    h.of_quiet (Quiet.clearUid.comp (Quiet.setOffset (Nat.zero_le _))) rfl
  have hclear : SearchRun [] s (s.clearUid.setOffset 0) := ⟨hready, rfl, rfl, rfl, rfl, rfl, rfl, rfl, rfl, rfl⟩
  obtain ⟨t, hrun, hkept, hend⟩ := State.sendOnly_positionRun hready Config.bcCode Config.discoverStart
  refine ⟨t, ?_, hclear.trans hkept.toSearchRun, (UidFound.begun s).of_positionRun hkept, hend⟩
  rw [State.search, hrun, Run.andThen_done]
  rfl

/-- A search that a device with these bits answers as long as they last (R231 to R234). -/
theorem State.search_answered {bits : List Bool} (h : s.Ready) {n : Nat} (hlen : bits.length + n = 80) (h1 : 1 ≤ latency)
    (hb : latency ≤ intTicks s) (hl : s.env.lineIn = obedientLevels (intTicks s) latency bits ++ rest) :
    ∃ t, s.search = t.searchFrom n ∧ SearchRun (searchWords bits ++ [(wireWord 0x8 0x80, .sendOnly)]) s t ∧
      UidFound bits t ∧ t.env.lineIn = rest := by
  obtain ⟨t, hrun, hkept, hf, -, hline⟩ := State.search_begins h
  have hbud := hkept.intTicks
  obtain ⟨u, hrun', hkept', hend⟩ := State.searchFrom_answered bits n hkept.ready hf (by simpa using hlen) h1
    (by rw [hbud]; exact hb) (by rw [hline, hbud]; exact hl)
  exact ⟨u, by rw [hrun, ← hlen, hrun'], hkept.trans hkept', hend⟩

/-- search_id with TAU set (R323). -/
theorem exec_searchId {ok : Bool} (h : s.drv.tauSet = true) (hrun : s.search = .done ok t) :
    exec .searchId s = .next (answerBool ok t) := by
  rw [exec, execSearchId, needTau_of_tauSet h, hrun]
  rfl

end Search

/-- Settles O50: bit `p` of UID[] is the one at depth 79 - `p`, past the bits found. -/
theorem searchAnswersTrueOrFalse : Obligations.SearchAnswersTrueOrFalse := by
  intro s h
  obtain ⟨t, hbegin, hstart, hf, hend, -⟩ := State.search_begins h
  obtain ⟨ok, bits, _, u, hrun, hsearch, hfound, huend, hlen⟩ := State.searchFrom_ready 80 hstart.ready hf hend rfl
  have hkept := hstart.trans hsearch
  obtain ⟨hleft, hrst⟩ := hkept.ready.undisturbed
  refine ⟨_, exec_searchId h.tauSet (hbegin.trans hrun), (congrArg Answer.res1 hkept.ans :), ?_, hkept.mem, hkept.regmap,
    hkept.par, hkept.tau, hkept.ready.tauSet, hkept.out, hkept.scr, hleft, hrst, hkept.inbox⟩
  have hoff : (answerBool ok u).scr.offset.toNat = bits.length := hfound.offset
  cases ok with
  | true => exact .inl ⟨rfl, BitVec.eq_of_toNat_eq (hoff.trans hlen), huend⟩
  | false =>
    obtain ⟨hattempt, hbus, hdir⟩ := huend
    refine .inr ⟨rfl, hoff.trans_lt hlen, hattempt, hbus, hdir, fun p hp => ?_⟩
    rw [hoff] at hp
    have hbit := hfound.bit (79 - p) (by omega)
    rw [Nat.sub_sub_self (by omega), List.getD_eq_default _ _ (by omega)] at hbit
    exact hbit

/-- Settles O51: after the 80 bits no position is left. -/
theorem searchFindsTheIdentifier : Obligations.SearchFindsTheIdentifier := by
  intro s bits latency rest h hlen h1 hb hl
  obtain ⟨t, hrun, hkept, hfound, hrest⟩ := State.search_answered (n := 0) h hlen h1 hb hl
  refine ⟨_, exec_searchId h.tauSet hrun, rfl, hfound.bit, ?_, hrest⟩
  exact hkept.sent.trans (List.append_assoc _ _ _)

/-- Settles O52: the position after the bits found is the first that nobody answers. -/
theorem searchFailsWithNobody : Obligations.SearchFailsWithNobody := by
  intro s bits latency rest h hlen h1 hb hl
  obtain ⟨n, hn⟩ := Nat.exists_eq_add_of_lt hlen
  obtain ⟨t, hrun, hkept, hfound, hline⟩ := State.search_answered (n := n + 1) h hn.symm h1 hb hl
  obtain ⟨u, hresolve, hfailed, ⟨hattempt, hbus, hdir⟩, hrest⟩ :=
    State.resolveBitFrom_rest Config.uidAttempts (hkept.ready.setAttempt 0) (fun e => absurd e (by decide))
      (hline.trans (by rw [← hkept.intTicks]; rfl))
  have hfound' := hfound.of_positionRun hfailed.of_setAttempt
  refine ⟨_, exec_searchId h.tauSet (hrun.trans (State.searchFrom_of_none hresolve n)), rfl, hfound'.offset, hattempt,
    hbus, hdir, hrest, hfound'.bit, fun hnil k hk => uid_eq_zero_of_uidBit hk fun i hi => ?_, ?_⟩
  · have hbit := hfound'.bit (79 - (8 * k + i)) (by omega)
    rwa [Nat.sub_sub_self (by omega), hnil, List.getD_nil] at hbit
  · exact hfailed.sent.trans (congrArg (failedProbes ++ ·) (hkept.sent.trans (List.append_assoc _ _ _)))

end Sys2Proof.Machine

/-! PROOFS, 70_reset_and_hazards.md. What reset leaves (O1, O2), what asks for TAU before it is set (O24), and where in an
operation rst lands (O59, O60): told by the moments an operation takes, with rst due some moments from now. -/

namespace Sys2Proof.Machine

/-! ### After reset (R320, R326) -/

/-- The registers of a state in which rst has landed (R320). -/
theorem State.rstLands_registersReset (s : State) : RegistersReset s.rstLands :=
  ⟨rfl, rfl, rfl, rfl, rfl, rfl, rfl, rfl, rfl, rfl, by simp, rfl, rfl, rfl⟩

theorem step_rst {s : State} {rest : List Input} (h : s.env.inbox = .rst :: rest) :
    step s = .next (s.setInbox rest).applyReset := by
  rw [step, nextStep, h]
  rfl

/-- Settles O1: the rst event is `applyReset`, whose registers are those rst landing in an operation leaves. -/
theorem resetPortLeavesTheTable : Obligations.ResetPortLeavesTheTable := by
  intro s rest h
  obtain ⟨hbus, hmode, htxsr, hbitix, hdue, hdir, hout, hnedge, hlast, htau, huid, hscr, -⟩ :=
    (s.setInbox rest).rstLands_registersReset
  exact ⟨_, step_rst h, hbus, hmode, htxsr, hbitix, hdue, hdir, hout, hnedge, hlast, htau, huid, hscr, rfl, rfl, rfl,
    rfl⟩

/-- A row put in at a place of a table makes it one longer and is a row of it. -/
theorem place_row {rows : List RegEntry} {n : Nat} (h : rows.length = n) (place : Nat) (e : RegEntry) :
    (rows.insertIdx (place % (n + 1)) e).length = n + 1 ∧
      ∀ x, x ∈ rows.insertIdx (place % (n + 1)) e ↔ x = e ∨ x ∈ rows := by
  subst h
  have hplace : place % (rows.length + 1) ≤ rows.length := Nat.le_of_lt_succ (Nat.mod_lt _ (Nat.succ_pos _))
  exact ⟨List.length_insertIdx_of_le_length hplace e, fun _ => List.mem_insertIdx hplace⟩

/-- The open places are places of the table, so none of the four given rows is lost (R26, log 10). -/
theorem regMapInv_regMap : RegMapInv Config.regMap := by
  have hlost : ((List.range 16).map Config.lostRow).length = 16 := by simp
  obtain ⟨hlen₁, hmem₁⟩ := place_row hlost (Config.rowPlace 0) Config.errorCode
  obtain ⟨hlen₂, hmem₂⟩ := place_row hlen₁ (Config.rowPlace 1) Config.authChallenge
  obtain ⟨hlen₃, hmem₃⟩ := place_row hlen₂ (Config.rowPlace 2) Config.macData
  obtain ⟨hlen₄, hmem₄⟩ := place_row hlen₃ (Config.rowPlace 3) Config.nvmLockOffset
  refine ⟨hlen₄, (hmem₄ _).2 ?_, (hmem₄ _).2 ?_, (hmem₄ _).2 ?_, (hmem₄ _).2 ?_⟩ <;> simp [hmem₃, hmem₂, hmem₁]

theorem Driver.reset_inv (now : Word) : Driver.reset.Inv now :=
  ⟨by decide, by decide, by decide, ⟨by decide, fun hb => absurd hb (by decide)⟩, by decide⟩

/-- Settles O2: the registers and the empty memory by their reset values, REGMAP by where its rows are put in. -/
theorem resetMeetsInvariant : Obligations.ResetMeetsInvariant :=
  (State.inv_iff _).2 ⟨Driver.reset_inv _, regMapInv_regMap, by decide, Memory.reset_wf⟩

/-! ### TAU before it is set (R323) -/

theorem needTau_of_not_tauSet {s : State} (h : s.drv.tauSet = false) (k : Host.Outcome State Fault Refusal) :
    s.needTau k = .refused .tauUnset := if_neg (by simp [h])

/-- What uses TAU asks first whether it is set (R287, R323). -/
theorem exec_eq_needTau {i : Instr} (h : usesTau i = true) (s : State) : ∃ k, exec i s = s.needTau k := by
  cases i with
  | setTau _ | getTau | currentState | delayUs _ | busLineIdle | encode _ _ | decode _ _ | checkParity _
  | checkInversionMajority _ | reverseByteOrder _ _ => cases h
  | _ => exact ⟨_, rfl⟩

theorem finish_ne_refused {α : Type} (answer : α → State → State) (r : Run α) (x : Refusal) :
    finish answer r ≠ .refused x := by cases r <;> exact nofun

/-- What does not use TAU is never refused (R323). -/
theorem exec_ne_refused {i : Instr} (h : usesTau i = false) (s : State) (x : Refusal) : exec i s ≠ .refused x := by
  cases i with
  | delayUs n => exact finish_ne_refused noAnswer _ x
  | getTau =>
    change execGetTau s ≠ _
    unfold execGetTau
    split <;> exact nofun
  | decode n buf =>
    change execDecode n buf s ≠ _
    unfold execDecode
    split
    · exact nofun
    · split
      · split <;> exact nofun
      · exact nofun
  | checkParity w =>
    change execCheckParity w s ≠ _
    unfold execCheckParity
    split <;> exact nofun
  | reverseByteOrder n buf =>
    change execReverseByteOrder n buf s ≠ _
    unfold execReverseByteOrder
    split <;> exact nofun
  | setTau _ | currentState | busLineIdle | encode _ _ | checkInversionMajority _ => exact nofun
  | _ => cases h

/-- Settles O24: what uses TAU asks for it and is refused, the rest is never refused. -/
theorem useOfTauBeforeSetTauIsRefused : Obligations.UseOfTauBeforeSetTauIsRefused := by
  intro i s hs
  cases hi : usesTau i with
  | false => simpa using exec_ne_refused hi s .tauUnset
  | true =>
    obtain ⟨k, hk⟩ := exec_eq_needTau hi s
    simpa using hk.trans (needTau_of_not_tauSet hs k)

/-! ### rst anywhere in an instruction (R320, R326) -/

/-- REGMAP, the parameters and the waiting events are those of `s`. -/
abbrev SameOutside (s u : State) : Prop := u.regmap = s.regmap ∧ u.par = s.par ∧ u.env.inbox = s.env.inbox

/-- rst is due still while an instruction runs, and where it lands the registers are reset. -/
theorem rstDue_keptInWaits (s : State) :
    KeptInWaits (fun u => u.env.rstIn ≠ none ∧ SameOutside s u) (fun u => RegistersReset u ∧ SameOutside s u) where
  answer _ _ h := h
  freeCtr _ _ h := h
  beginTransfer _ _ _ h _ := by simpa [SameOutside] using h
  lineIdle _ h := by simpa [SameOutside] using h
  tick _ h := by simpa [SameOutside] using h
  lag _ _ h := h
  rstIn _ _ h hr := ⟨fun e => h.1 (hr.1 e), h.2⟩
  scratch _ _ h _ := h
  lands u h _ := ⟨u.rstLands_registersReset, h.2⟩

theorem sameRstIn_keptAtOnce (s : State) : KeptAtOnce fun u => u.env.rstIn = s.env.rstIn where
  answer _ _ h := h
  freeCtr _ _ h := h
  beginTransfer _ _ _ h _ := by simpa using h
  lineIdle _ h := by simpa using h

/-- Settles O60: an instruction that does not wait has no moment at which rst could land. -/
theorem rstLeavesTheTableWhereverItLands : Obligations.RstLeavesTheTableWhereverItLands := by
  intro i s t hr he
  refine ⟨fun ht => ?_, fun hi hd => ?_⟩
  · have hkept := exec_keeps (rstDue_keptInWaits s) (fun _ _ => ⟨hr, rfl, rfl, rfl⟩) (fun _ _ _ _ _ hu => hu)
      (fun _ _ _ hu => hu) ⟨hr, rfl, rfl, rfl⟩ he
    exact hkept.resolve_left fun hdue => hdue.1 ht
  · exact exec_keeps_of_not_waits (sameRstIn_keptAtOnce s) (waits_eq_false hi hd) (fun _ _ => rfl)
      (fun _ _ _ _ _ hu => hu) rfl he

/-! ### rst due inside a wait (R326, log 23) -/

section RstDue
variable {s : State}

theorem State.setRstIn_self {r : Option Nat} (h : s.env.rstIn = r) : s.setRstIn r = s := by subst h; rfl

theorem State.pause_setRstIn (s : State) (r : Option Nat) : (s.setRstIn r).pause = s.pause.setRstIn r := by
  rw [State.pause_eq_ticks s, ← State.ticks_setRstIn, State.pause_eq_ticks]
  rfl

@[simp] theorem State.pause_tauSet (s : State) : s.pause.drv.tauSet = s.drv.tauSet := by rw [State.pause_eq_ticks]; simp
@[simp] theorem State.pause_sent (s : State) : s.pause.env.sent = s.env.sent := by rw [State.pause_eq_ticks]; simp
@[simp] theorem State.pause_ans (s : State) : s.pause.ans = s.ans := by rw [State.pause_eq_ticks]; simp

theorem State.beginTransfer_setRstIn (s : State) (r : Option Nat) (w : Word) (m : Mode) :
    (s.setRstIn r).beginTransfer w m = (s.beginTransfer w m).setRstIn r := by
  unfold State.beginTransfer
  rw [State.setRstIn_drv]
  split <;> rfl

/-- rst due at moment `k` of a wait that takes `n` ticks, and so `n + 1` moments: it lands in the wait or is left due. -/
theorem State.spin_setRstIn {p : State → Bool} (hpr : ∀ u r, p (State.setRstIn r u) = p u) {fuel n : Nat} (k : Nat)
    (hs : s.env.ticksLeft = none) (hn : n < fuel) (hp : p (State.ticks n s) = true)
    (hj : ∀ j < n, p (State.ticks j s) = false) :
    State.spin p fuel (s.setRstIn (some k)) =
      if k ≤ n then .cut (State.ticks k s).rstLands else .done () ((State.ticks n s).setRstIn (some (k - n - 1))) := by
  have hticks (j : Nat) : p (State.ticks j (s.setRstIn (some k))) = p (State.ticks j s) := by
    rw [State.ticks_setRstIn, hpr]
  split
  · next hk =>
    rw [State.spin_rst hpr (by exact hs) rfl (by omega) fun j hjk => (hticks j).trans (hj j (by omega)),
      State.ticks_setRstIn]
    rfl
  · next hk =>
    rw [State.spin_before_rst hpr (by exact hs) rfl (Nat.lt_of_not_le hk) hn ((hticks n).trans hp) fun j hjn =>
      (hticks j).trans (hj j hjn), State.ticks_setRstIn]
    rfl

/-- The moments of delay_us(n) are its ticks and the look that ends it (R133). -/
theorem State.delay_setRstIn (hs : s.env.ticksLeft = none) (n : Word) (k : Nat) :
    (s.setRstIn (some k)).delay n =
      if k ≤ n.toNat then .cut (State.ticks k s).rstLands
      else .done () ((State.ticks n.toNat s).setRstIn (some (k - n.toNat - 1))) := by
  have hlt := n.isLt
  refine State.spin_setRstIn (fun _ _ => rfl) k hs (lt_spinFuel (by omega)) ?_ (State.delay_goes_on hs n)
  simp [State.ticks_now _ hs, BitVec.add_comm s.env.now]

theorem State.guard_setRstIn (hs : s.env.ticksLeft = none) (k : Nat) :
    (s.setRstIn (some k)).guard =
      if k ≤ 5 * s.drv.tau.toNat then .cut (State.ticks k s).rstLands
      else .done () ((State.ticks (5 * s.drv.tau.toNat) s).setRstIn (some (k - 5 * s.drv.tau.toNat - 1))) := by
  rw [← State.five_tau_toNat]
  exact State.delay_setRstIn hs _ k

end RstDue

/-! ### rst due inside a SendOnly exchange (R190, R326) -/

/-- `u` is reached from `s` within a SendOnly exchange: what rst leaves outside the block is as in `s`, and the line is not
sampled (R129), since no poll runs. -/
structure Sending (s u : State) : Prop where
  inv       : u.Inv
  noPoll    : u.drv.bus.ready = true ∨ u.drv.mode = .sendOnly
  regmap    : u.regmap = s.regmap
  par       : u.par = s.par
  mem       : u.mem = s.mem
  inbox     : u.env.inbox = s.env.inbox
  lineIn    : u.env.lineIn = s.env.lineIn
  ticksLeft : u.env.ticksLeft = s.env.ticksLeft

section Sending
variable {s u : State} {c : Code} {p : Byte}

theorem Sending.polling (h : Sending s u) : u.drv.bus.polling = false := by
  obtain ⟨-, -, -, -, ⟨-, hint, hpkt, -⟩, -⟩ := h.inv
  rcases h.noPoll with hr | hm
  · exact Bool.eq_false_iff.2 fun hp => by simp [BusState.not_ready_of_polling hp] at hr
  · cases hb : u.drv.bus with
    | pollInterrupt => simp [(hint hb).1] at hm
    | pollPacket => simp [(hpkt hb).1] at hm
    | _ => rfl

theorem Sending.tick (hs : s.env.ticksLeft = none) (h : Sending s u) : Sending s u.tick where
  inv := State.tick_inv h.inv
  noPoll := h.noPoll.imp (fun hr => by rwa [State.tick_ready_running (h.ticksLeft.trans hs) hr]) (by simp)
  regmap := by simpa using h.regmap
  par := by simpa using h.par
  mem := by simpa using h.mem
  inbox := by simpa using h.inbox
  lineIn := by
    rw [State.tick_running (h.ticksLeft.trans hs), h.polling]
    exact h.lineIn
  ticksLeft := by simp [h.ticksLeft, hs]

theorem Sending.ticks (hs : s.env.ticksLeft = none) (h : Sending s u) (n : Nat) : Sending s (State.ticks n u) :=
  State.ticks_induct n u h fun _ => Sending.tick hs

theorem Sending.pause (hs : s.env.ticksLeft = none) (h : Sending s u) : Sending s u.pause :=
  State.pause_induct h (fun _ _ hu => ⟨hu.1, hu.2, hu.3, hu.4, hu.5, hu.6, hu.7, hu.8⟩) fun _ => Sending.tick hs

theorem Sending.beginTransfer (h : Sending s u) (ht : u.drv.tauSet = true) (w : Word) :
    Sending s (u.beginTransfer w .sendOnly) where
  inv := State.beginTransfer_inv h.inv ht w _
  noPoll := by
    unfold State.beginTransfer
    split
    · exact .inr rfl
    · exact h.noPoll
  regmap := by simpa using h.regmap
  par := by simpa using h.par
  mem := by simpa using h.mem
  inbox := by simpa using h.inbox
  lineIn := by simpa using h.lineIn
  ticksLeft := by simpa using h.ticksLeft

/-- Where rst lands in the exchange. -/
theorem Sending.afterRst (h : Sending s u) : AfterRst s u.rstLands :=
  ⟨u.rstLands_registersReset, h.regmap, h.par, h.mem, h.inbox, h.lineIn, h.ticksLeft⟩

/-- The state in which an exchange's wait begins: the foreground has paused and armed the driver (R122, R190). -/
def State.wordArmed (c : Code) (p : Byte) (s : State) : State :=
  s.pause.beginTransfer ((wireWord c p).setWidth 32) .sendOnly

/-- The state in which its guard delay begins: the word is out and the foreground has paused again (R77, R134). -/
def State.wordGuarded (c : Code) (p : Byte) (s : State) : State := (s.wordOut c p .sendOnly).pause

theorem State.Ready.sending_pause (h : s.Ready) : Sending s s.pause :=
  Sending.pause h.undisturbed.1 ⟨h.inv, .inl h.bus, rfl, rfl, rfl, rfl, rfl, rfl⟩

theorem State.Ready.sending_wordArmed (h : s.Ready) : Sending s (s.wordArmed c p) :=
  h.sending_pause.beginTransfer (by simp [h.tauSet]) _

theorem State.Ready.sending_wordGuarded (h : s.Ready) : Sending s (s.wordGuarded c p) :=
  Sending.pause h.undisturbed.1 (h.sending_wordArmed.ticks h.undisturbed.1 _)

theorem State.wordArmed_sent (h : s.Ready) :
    (s.wordArmed c p).env.sent = (wireWord c p, .sendOnly) :: s.env.sent := by
  have hready : s.pause.drv.bus.ready = true := by rw [State.pause_ready h.undisturbed.1 h.bus]; exact h.bus
  rw [State.wordArmed, State.beginTransfer_ready hready, armed_word, State.pause_sent]

theorem State.wordGuarded_sent (h : s.Ready) :
    (s.wordGuarded c p).env.sent = (wireWord c p, .sendOnly) :: s.env.sent := by
  rw [State.wordGuarded, State.pause_sent, State.wordOut, State.ticks_sent]
  exact State.wordArmed_sent h

theorem State.wordGuarded_tau : (s.wordGuarded c p).drv.tau = s.drv.tau := by
  simp [State.wordGuarded, State.wordOut]

theorem State.wordGuarded_ans : (s.wordGuarded c p).ans = s.ans := by
  simp [State.wordGuarded, State.wordOut]

theorem State.wordOut_idle (h : s.Ready) : (s.wordOut c p .sendOnly).drv.bus = .idle := by
  rw [(State.wordOut_wordSent h c p .sendOnly).1]
  rfl

/-- The guard delay passes in Idle (R131). -/
theorem State.wordGuarded_ticks_idle (h : s.Ready) (n : Nat) : (State.ticks n (s.wordGuarded c p)).drv.bus = .idle := by
  have hout := State.wordOut_idle (c := c) (p := p) h
  have hready : (s.wordOut c p .sendOnly).drv.bus.ready = true := by rw [hout]; rfl
  have hleft : (s.wordOut c p .sendOnly).env.ticksLeft = none :=
    (h.sending_wordArmed.ticks h.undisturbed.1 _).ticksLeft.trans h.undisturbed.1
  rw [State.wordGuarded, State.pause_ready hleft hready, State.ticks_ready n (by exact hleft) (by exact hready)]
  exact hout

/-- At its first moment rst lands before begin_transfer. -/
theorem State.exchange_rst_first (s : State) (m : Mode) :
    (s.setRstIn (some 0)).exchange c p m = .cut s.pause.rstLands := by
  rw [State.exchange, State.pause_setRstIn]
  rfl

/-- After the first moment rst is due in the wait, or after the wait's ticks in the guard delay. -/
theorem State.exchange_rst_later (h : s.Ready) (k : Nat) :
    (s.setRstIn (some (k + 1))).exchange c p .sendOnly =
      if k ≤ 1 + sendTicks s.drv.tau (wireWord c p) then .cut (State.ticks k (s.wordArmed c p)).rstLands
      else
        ((s.wordGuarded c p).setRstIn (some (k - (1 + sendTicks s.drv.tau (wireWord c p)) - 1))).guard.map
          fun _ => .idle := by
  have hlt := sendTicks_lt s.drv.tau (wireWord c p)
  have hwait := State.spin_setRstIn (p := fun u => u.drv.bus.ready) (fun _ _ => rfl) (fuel := spinFuel) k
    (h.sending_wordArmed.ticksLeft.trans h.undisturbed.1) (lt_spinFuel (by omega))
    (congrArg BusState.ready (State.wordOut_idle h)) (State.wordOut_wordSent h c p .sendOnly).2
  have hmoment : (s.setRstIn (some (k + 1))).exchange c p .sendOnly =
      ((s.wordArmed c p).setRstIn (some k)).awaitReady.andThen fun _ u => u.pause.guard.map fun _ => u.drv.bus := by
    rw [State.wordArmed, ← State.beginTransfer_setRstIn, State.exchange, State.pause_setRstIn]
    rfl
  rw [hmoment, State.awaitReady, hwait]
  split
  · rfl
  · rw [Run.andThen_done, State.pause_setRstIn, State.setRstIn_drv]
    exact congrArg (fun b => Run.map (fun _ => b) _) (State.wordOut_idle h)

/-- rst due at a moment of a send_only lands there (R191, R326). -/
theorem State.exchange_sendOnly_lands (h : s.Ready) {k : Nat}
    (hk : k ≤ sendTicks s.drv.tau (wireWord c p) + 5 * s.drv.tau.toNat + 3) :
    ∃ t, (s.setRstIn (some k)).exchange c p .sendOnly = .cut t ∧ AfterRst s t ∧
      t.env.sent = (if k = 0 then [] else [(wireWord c p, .sendOnly)]) ++ s.env.sent := by
  cases k with
  | zero => exact ⟨_, State.exchange_rst_first s _, h.sending_pause.afterRst, by simp⟩
  | succ k =>
    rw [State.exchange_rst_later h]
    split
    · exact ⟨_, rfl, (h.sending_wordArmed.ticks h.undisturbed.1 k).afterRst, by simp [State.wordArmed_sent h]⟩
    · have hguard := h.sending_wordGuarded (c := c) (p := p)
      rw [State.guard_setRstIn (hguard.ticksLeft.trans h.undisturbed.1), State.wordGuarded_tau, if_pos (by omega)]
      exact ⟨_, rfl, (hguard.ticks h.undisturbed.1 _).afterRst, by simp [State.wordGuarded_sent h]⟩

/-- rst due later than all its moments leaves a send_only alone and comes nearer by them (R191, log 23). -/
theorem State.exchange_sendOnly_before_rst (h : s.Ready) {k : Nat}
    (hk : sendTicks s.drv.tau (wireWord c p) + 5 * s.drv.tau.toNat + 3 < k) :
    ∃ t, (s.setRstIn (some k)).exchange c p .sendOnly = .done .idle t ∧ t.ans = s.ans ∧ t.drv.bus = .idle ∧
      t.env.rstIn = some (k - (sendTicks s.drv.tau (wireWord c p) + 5 * s.drv.tau.toNat + 4)) := by
  obtain ⟨k, rfl⟩ := Nat.exists_eq_add_of_lt hk
  rw [State.exchange_rst_later h, if_neg (by omega), State.guard_setRstIn
    (h.sending_wordGuarded.ticksLeft.trans h.undisturbed.1), State.wordGuarded_tau, if_neg (by omega), Run.map_done]
  refine ⟨_, rfl, by simp [State.wordGuarded_ans], State.wordGuarded_ticks_idle h _, ?_⟩
  simp only [State.setRstIn_env, Option.some.injEq]
  omega

end Sending

/-- Settles O59: a delay is one wait; a send_only is its first moment, the wait for its word, and the guard delay. -/
theorem rstInsideAWaitEndsTheOperation : Obligations.RstInsideAWaitEndsTheOperation := by
  intro s k hleft hk
  have hs : (s.setRstIn none).setRstIn (some k) = s := State.setRstIn_self hk
  have hdelay (n : Word) := State.setRstIn_self hk ▸ State.delay_setRstIn hleft n k
  refine ⟨fun n hn => ⟨(State.ticks k s).rstLands, ?_, ?_, rfl⟩, fun n hn => ?_, fun hinv hset hb code payload => ?_⟩
  · rw [exec, execDelayUs, hdelay, if_pos hn]
    rfl
  · exact ⟨State.rstLands_registersReset _, rfl, rfl, rfl, rfl, rfl, rfl⟩
  · rw [exec, execDelayUs, hdelay, if_neg (by omega)]
    rfl
  · have hready : (s.setRstIn none).Ready := ⟨⟨hinv, hset, hleft, rfl⟩, hb⟩
    have hexec : exec (.sendOnly code payload) s = finish answerBool (s.sendOnly code payload) :=
      needTau_of_tauSet hset _
    rw [hexec, State.sendOnly]
    refine ⟨fun hlands => ?_, fun hlater => ?_⟩
    · obtain ⟨t, hcut, hafter, hsent⟩ := State.exchange_sendOnly_lands hready hlands
      rw [hs] at hcut
      exact ⟨t, by rw [hcut]; rfl, hafter, hsent⟩
    · obtain ⟨t, hdone, hans, hidle, hdue⟩ := State.exchange_sendOnly_before_rst hready hlater
      rw [hs] at hdone
      exact ⟨answerBool true t, by rw [hdone]; rfl, congrArg (fun a => { a with res0 := 1 }) hans, hidle, hdue⟩

end Sys2Proof.Machine
